-- ==== Sys2Proof/Word.lean ====
section
/-! DEFINITION. The widths of the core's values (00_scope.md R5, R7; 10_state.md R20): plain names for bit vectors. -/

namespace Sys2Proof

/-- One byte: a duty value, a bus byte, the data of an event, a key character (R5, R85, R88). -/
abbrev Byte := BitVec 8

/-- A 12-bit event record (30_encoding.md R82): type in bits 11:8, data in bits 7:0. -/
abbrev Ev := BitVec 12

/-- A 7-bit door-state code (30_encoding.md R86); codes compare as unsigned numbers (00_scope.md R9). -/
abbrev DoorCode := BitVec 7

/-- The levels of the four sense lines or the four scan lines (10_state.md R38): bit `c` is line `c`. -/
abbrev Lines := BitVec 4

/-- The raw level of one pin (10_state.md R23): `true` is high, `false` is low. -/
abbrev Level := Bool

end Sys2Proof
end

