-- ==== Sys2Proof/Config.lean ====
section
/-! DEFINITION. What an implementation fixes and what the spec leaves OPEN (00_scope.md R5; 10_state.md R37). -/

namespace Sys2Proof.Config

/-- The parameters of a configured core to which R5 gives a value: the configuration argument of R37, constant while the core
runs (20_memory.md R75). `N_LIMIT`, `N_KP` and `PIN_LEN` are any numbers: the counters that hold them are as wide as they need
(42_debounce.md R125, D25). The others have the width of what they are compared with or written to (10_state.md R27;
47_access_code_validator.md R206). The widths and the numeric codes in R5's table are no fields: they are the
types of `State` and the encodings of 30_encoding.md (log 7). -/
structure Params where
  /-- `Q_CAP`, the capacity of the event queue, in events. -/
  qCap : Nat
  /-- `TICK_PERIOD` in milliseconds. No rule reads it: the model counts ticks (R240, R280). -/
  tickPeriodMs : Nat
  /-- `N_LIMIT`, the limit-switch debounce length, in consecutive samples. -/
  nLimit : Nat
  /-- `N_KP`, the keypad debounce wait, in ticks. -/
  nKp : Nat
  /-- `PIN_LEN`, the number of digits of the access code. -/
  pinLen : Nat
  /-- `PIN`, the access code as a number. -/
  pin : BitVec 16
  /-- `SLAVE_ADDR` (20_memory.md R69). No rule of the core reads it: the bus peripheral compares the address (R160). -/
  slaveAddr : BitVec 7
  /-- `KEYMAP`, the characters of the keypad by key index (20_memory.md R63). -/
  keymap : Vector Byte 16
  /-- `TERMINATOR`, the key that ends a code. -/
  terminator : Byte
  /-- `DUTY_FULL`, the full-scale duty (R27). -/
  dutyFull : Byte
deriving DecidableEq, Repr

/-- The values of 00_scope.md R5; the characters in the codes of 30_encoding.md R88. -/
def reference : Params where
  qCap := 10
  tickPeriodMs := 4
  nLimit := 15
  nKp := 4
  pinLen := 4
  pin := 1111#16
  slaveAddr := 0x20#7
  keymap := #v[0x31#8, 0x32#8, 0x33#8, 0x41#8, 0x34#8, 0x35#8, 0x36#8, 0x42#8, 0x37#8, 0x38#8, 0x39#8, 0x43#8, 0x2A#8,
    0x30#8, 0x23#8, 0x44#8]
  terminator := 0x23#8
  dutyFull := 0xFF#8

/-- What the invariants need of a configuration: a debounce length and a keypad wait of at least one sample, so that the
countdowns of R121 and R133 do not wrap (R125, R133); a code of at least one digit, so that a digit key does not pass its length
(R201); and a full-scale duty that is not "off" (R27). -/
abbrev Params.wf (p : Params) : Prop :=
  1 ≤ p.nLimit ∧ 1 ≤ p.nKp ∧ 1 ≤ p.pinLen ∧ p.dutyFull ≠ 0#8

/-! ## The OPEN parameters of R5 -/

/-- `CLK_HZ`, OPEN (R5): no rule depends on it. -/
opaque clkHz : Nat

/-- The number of clock domains, OPEN (R5, which names it beside `CLK_HZ`): no rule depends on it (R6). -/
opaque clockDomains : Nat

/-- `KP_SETTLE`, OPEN (R5, 70_reset_and_hazards.md R276): it lies inside the scan tick and no rule depends on it. -/
opaque kpSettle : Nat

/-- What the environment and the scheduler may pick for the next step (48_agents_and_steps.md R210): a tick with its pin
levels, a bus phase with its byte, the main loop, or reset. -/
inductive Choice where
  | tick (cl ol : Level) (sense scan : Lines)
  | bus (kind : BitVec 3) (data : Byte)
  | main
  | reset
deriving DecidableEq, Repr, Inhabited

/-- Whose turn position `n` is: the number of turns the main loop has had, and the positions left before its next one. -/
def turn (gap : Nat → Nat) (n : Nat) : Nat × Nat :=
  match n with
  | 0 => (0, gap 0)
  | n + 1 =>
    match turn gap n with
    | (k, 0) => (k + 1, gap (k + 1))
    | (k, r + 1) => (k, r)

/-- The picks `env` with the main loop's turns between them: its turn number `k` comes `gap k` positions after the turn before
it, and at every other position `env` picks (which may pick the main loop too). -/
def interleave (gap : Nat → Nat) (env : Nat → Choice) (n : Nat) : Choice :=
  match turn gap n with
  | (_, 0) => .main
  | (_, _ + 1) => env n

/-- How long the main loop waits for each of its turns, OPEN (48_agents_and_steps.md R221: finite, with no bound). A free value:
it has no body. -/
opaque mainGap : Nat → Nat

/-- The picks between the main loop's turns, OPEN (R5, R218, R219). A free value: it has no body. -/
opaque envChoice : Nat → Choice

/-- `sched`, OPEN (R5, R218, R219), weakly fair to the main loop (R221): the pick at each position of a run. Whatever is proved
of a step taken from it holds for every weakly fair order of enabled steps and every input, since every such order is one of
these (`interleave_complete` in Laws/Schedule.lean). DESIGN CHOICE (form only), log 3: safe. -/
def sched (n : Nat) : Choice := interleave mainGap envChoice n

/-- The inputs that go with a rule taken by itself and that its word does not hold: the two keypad samples and a received byte
(10_state.md R38). -/
structure Inputs where
  sense : Lines
  scan : Lines
  busData : Byte
deriving DecidableEq, Repr, Inhabited

/-- What the environment supplies to the `n`-th operation whose word holds no input of its own, OPEN. A free value: it has no
body. DESIGN CHOICE (form only), log 9: safe. -/
opaque freeInput : Nat → Inputs

end Sys2Proof.Config
end

