-- ==== Sys2Proof/Syntax.lean ====
section
/-! DEFINITION. The operations of the core: one constructor per row of spec/opcode_table.json, and the formats of
30_encoding.md R80 in which their words are written. -/

namespace Sys2Proof

/-- The formats of 30_encoding.md R80 in which an operation of the table is written. `sampleCl` and `sampleOl` are the two
views of a `TICK` word that feed the debounce instances (R90, R121); `csrRead` and `csrWrite` are the two views of the
command/status byte (R85). A word carries no mark of its format: DESIGN CHOICE, log 1. -/
inductive Format where
  | trace | sampleCl | sampleOl | ev | char | key | csrRead | csrWrite | dstate | busk | mcmd | kpstate | qop
deriving DecidableEq, Repr

/-- A word on one of the core's interfaces: the format it is read in, and its bits, zero above the format's width. -/
structure Stim where
  fmt : Format
  bits : BitVec 16
deriving DecidableEq, Repr

/-- The operations. Operand names are the table's field names; ignored bits are kept, so that no bit of a word is lost. -/
inductive Instr where
  -- format TRACE (R90)
  | tick (cl ol : Level) (sense scan : Lines)
  | dbSampleCl (s : Level)
  | dbSampleOl (s : Level)
  | busAw (data : Byte)
  | busRx (data : Byte)
  | busAr (data : Byte)
  | busRdnext (data : Byte)
  | busStop (data : Byte)
  | busErr (data : Byte)
  | busRsvd (kind0 : BitVec 1) (data : Byte)
  | mainDispatch
  | mainEmit
  | reset
  -- format EV (R82 to R84)
  | closedLimitPressed (data : Byte)
  | closedLimitReleased (data : Byte)
  | openLimitPressed (data : Byte)
  | openLimitReleased (data : Byte)
  | keypadNewKey (data : Byte)
  | actuateDoor (data : Byte)
  | startDoor (data : Byte)
  | stopDoor (data : Byte)
  | evReserved0 (data : Byte)
  | evReserved9 (data : Byte)
  | evReservedAB (low : BitVec 1) (data : Byte)
  | evReservedCF (low : BitVec 2) (data : Byte)
  -- format CHAR (R88, R200)
  | keyDigit0to7 (low : BitVec 3)
  | keyDigit8to9 (low : BitVec 1)
  | keyTerminator
  | keyOther (ch : Byte)
  -- format KEY (R89)
  | keymap0 | keymap1 | keymap2 | keymap3 | keymap4 | keymap5 | keymap6 | keymap7
  | keymap8 | keymap9 | keymap10 | keymap11 | keymap12 | keymap13 | keymap14 | keymap15
  -- format CSR (R85)
  | csrRdStatus (state : BitVec 7)
  | csrWrActuate (ignored : BitVec 7)
  | csrWrNop (ignored : BitVec 7)
  -- format DSTATE (R86, R87)
  | dsClosed | dsClosingStopped | dsOpen | dsOpeningStopped | dsOpening | dsClosing | dsInvalid
  | dsReserved (code : DoorCode)
  -- format BUSK (R91)
  | kindAw | kindRx | kindAr | kindRdnext | kindStop | kindErr
  | kindRsvd (kind0 : BitVec 1)
  -- format MCMD (R93)
  | mStop | mStartOpen | mStartClose | mcmdReserved
  -- format KPSTATE (R94)
  | kpIdle | kpWait | kpScan | kpRelease
  -- format QOP (R95)
  | qEnq (ev : Ev)
  | qDeq (ignored : BitVec 12)
deriving DecidableEq, Repr

end Sys2Proof
end

