-- ==== Sys2Proof/WellFormed.lean ====
section
/-! DEFINITION. Which terms of `Instr` are operations of the table: the two rows with "priority": "last" take only the words
that no other row of their format takes (30_encoding.md, section 10). -/

namespace Sys2Proof

/-- The character codes that are decimal digits (30_encoding.md R88). -/
def isDigitCode (ch : Byte) : Bool := 0x30#8 ≤ ch && ch ≤ 0x39#8

/-- `KEY_OTHER` takes the codes that are neither a digit nor '#' (47_access_code_validator.md R203). -/
def isOtherCode (ch : Byte) : Bool := !isDigitCode ch && ch != 0x23#8

/-- The reserved door-state codes, 0x06 to 0x7E (30_encoding.md R87). -/
def isReservedDoorCode (c : DoorCode) : Bool := 0x06#7 ≤ c && c ≤ 0x7E#7

/-- A well-formed operation. Every operand of every other row is well formed at every value of its field. -/
def Instr.wf (i : Instr) : Bool :=
  match i with
  | .tick _ _ _ _ => true
  | .dbSampleCl _ => true
  | .dbSampleOl _ => true
  | .busAw _ => true
  | .busRx _ => true
  | .busAr _ => true
  | .busRdnext _ => true
  | .busStop _ => true
  | .busErr _ => true
  | .busRsvd _ _ => true
  | .mainDispatch => true
  | .mainEmit => true
  | .reset => true
  | .closedLimitPressed _ => true
  | .closedLimitReleased _ => true
  | .openLimitPressed _ => true
  | .openLimitReleased _ => true
  | .keypadNewKey _ => true
  | .actuateDoor _ => true
  | .startDoor _ => true
  | .stopDoor _ => true
  | .evReserved0 _ => true
  | .evReserved9 _ => true
  | .evReservedAB _ _ => true
  | .evReservedCF _ _ => true
  | .keyDigit0to7 _ => true
  | .keyDigit8to9 _ => true
  | .keyTerminator => true
  | .keyOther ch => isOtherCode ch
  | .keymap0 | .keymap1 | .keymap2 | .keymap3 | .keymap4 | .keymap5 | .keymap6 | .keymap7 => true
  | .keymap8 | .keymap9 | .keymap10 | .keymap11 | .keymap12 | .keymap13 | .keymap14 | .keymap15 => true
  | .csrRdStatus _ => true
  | .csrWrActuate _ => true
  | .csrWrNop _ => true
  | .dsClosed | .dsClosingStopped | .dsOpen | .dsOpeningStopped | .dsOpening | .dsClosing | .dsInvalid => true
  | .dsReserved c => isReservedDoorCode c
  | .kindAw | .kindRx | .kindAr | .kindRdnext | .kindStop | .kindErr => true
  | .kindRsvd _ => true
  | .mStop | .mStartOpen | .mStartClose | .mcmdReserved => true
  | .kpIdle | .kpWait | .kpScan | .kpRelease => true
  | .qEnq _ => true
  | .qDeq _ => true

end Sys2Proof
end

