-- ==== Sys2Proof/Decode.lean ====
section
/-! DEFINITION. Words to operations and back, from the formats of 30_encoding.md and the rows of spec/opcode_table.json.
`decode` is total: it refuses (`none`) every word that no row of its format takes. -/

namespace Sys2Proof

/-! ## Decoding, format by format -/

/-- The width of a format in bits (30_encoding.md R80). -/
def Format.width (f : Format) : Nat :=
  match f with
  | .trace => 16
  | .sampleCl => 16
  | .sampleOl => 16
  | .ev => 12
  | .char => 8
  | .key => 4
  | .csrRead => 8
  | .csrWrite => 8
  | .dstate => 7
  | .busk => 3
  | .mcmd => 2
  | .kpstate => 2
  | .qop => 13

/-- A `BUS` trace word's kind (30_encoding.md R91) selects the operation; kinds 6 and 7 are `BUS_RSVD`. -/
def busInstr (kind : BitVec 3) (data : Byte) : Instr :=
  match kind.toNat with
  | 0 => .busAw data
  | 1 => .busRx data
  | 2 => .busAr data
  | 3 => .busRdnext data
  | 4 => .busStop data
  | 5 => .busErr data
  | _ => .busRsvd (kind.extractLsb' 0 1) data

/-- Format `TRACE` (R90): agent in bits 15:13, operand in bits 12:0; agents 0b100 to 0b110, and operand bits that the agent
lists as zero and that are not, make the word malformed. -/
def decodeTrace (w : BitVec 16) : Option Instr :=
  match (w.extractLsb' 13 3).toNat with
  | 0 =>
    if w.extractLsb' 10 3 = 0 then
      some (.tick (w.getLsbD 9) (w.getLsbD 8) (w.extractLsb' 4 4) (w.extractLsb' 0 4))
    else none
  | 1 => if w.extractLsb' 11 2 = 0 then some (busInstr (w.extractLsb' 8 3) (w.extractLsb' 0 8)) else none
  | 2 => if w.extractLsb' 0 13 = 0 then some .mainDispatch else none
  | 3 => if w.extractLsb' 0 13 = 0 then some .mainEmit else none
  | 7 => if w.extractLsb' 0 13 = 0 then some .reset else none
  | _ => none

/-- The row `DB_SAMPLE[CL]` or `DB_SAMPLE[OL]`: bit `pos` of a `TICK` word (R90, R121); the other operand bits of that word
belong to the other processes. -/
def decodeSample (pos : Nat) (mk : Level → Instr) (w : BitVec 16) : Option Instr :=
  if w.extractLsb' 10 6 = 0 then some (mk (w.getLsbD pos)) else none

/-- Format `EV` (R82 to R84): type in bits 11:8, data in bits 7:0. -/
def decodeEv (w : BitVec 16) : Option Instr :=
  let data : Byte := w.extractLsb' 0 8
  match (w.extractLsb' 8 8).toNat with
  | 0x0 => some (.evReserved0 data)
  | 0x1 => some (.closedLimitPressed data)
  | 0x2 => some (.closedLimitReleased data)
  | 0x3 => some (.openLimitPressed data)
  | 0x4 => some (.openLimitReleased data)
  | 0x5 => some (.keypadNewKey data)
  | 0x6 => some (.actuateDoor data)
  | 0x7 => some (.startDoor data)
  | 0x8 => some (.stopDoor data)
  | 0x9 => some (.evReserved9 data)
  | 0xA => some (.evReservedAB 0 data)
  | 0xB => some (.evReservedAB 1 data)
  | 0xC => some (.evReservedCF 0 data)
  | 0xD => some (.evReservedCF 1 data)
  | 0xE => some (.evReservedCF 2 data)
  | 0xF => some (.evReservedCF 3 data)
  | _ => none

/-- Format `CHAR` (R88), classified as 47_access_code_validator.md R200 classifies it. -/
def decodeChar (w : BitVec 16) : Option Instr :=
  if w.extractLsb' 8 8 ≠ 0 then none
  else if w.extractLsb' 3 5 = 0b00110#5 then some (.keyDigit0to7 (w.extractLsb' 0 3))
  else if w.extractLsb' 1 7 = 0b0011100#7 then some (.keyDigit8to9 (w.extractLsb' 0 1))
  else if w.extractLsb' 0 8 = 0x23#8 then some .keyTerminator
  else some (.keyOther (w.extractLsb' 0 8))

/-- Format `KEY` (R89): all sixteen key indices. -/
def decodeKey (w : BitVec 16) : Option Instr :=
  match w.toNat with
  | 0 => some .keymap0
  | 1 => some .keymap1
  | 2 => some .keymap2
  | 3 => some .keymap3
  | 4 => some .keymap4
  | 5 => some .keymap5
  | 6 => some .keymap6
  | 7 => some .keymap7
  | 8 => some .keymap8
  | 9 => some .keymap9
  | 10 => some .keymap10
  | 11 => some .keymap11
  | 12 => some .keymap12
  | 13 => some .keymap13
  | 14 => some .keymap14
  | 15 => some .keymap15
  | _ => none

/-- Format `CSR`, the byte of a read (R85): bit 7 is always 0 in it. -/
def decodeCsrRead (w : BitVec 16) : Option Instr :=
  if w.extractLsb' 7 9 = 0 then some (.csrRdStatus (w.extractLsb' 0 7)) else none

/-- Format `CSR`, the command byte of a write (R85): bit 7 is the command, bits 6:0 are ignored. -/
def decodeCsrWrite (w : BitVec 16) : Option Instr :=
  if w.extractLsb' 8 8 ≠ 0 then none
  else if w.getLsbD 7 then some (.csrWrActuate (w.extractLsb' 0 7))
  else some (.csrWrNop (w.extractLsb' 0 7))

/-- Format `DSTATE` (R86, R87). -/
def decodeDstate (w : BitVec 16) : Option Instr :=
  if w.extractLsb' 7 9 ≠ 0 then none
  else
    match (w.extractLsb' 0 7).toNat with
    | 0x00 => some .dsClosed
    | 0x01 => some .dsClosingStopped
    | 0x02 => some .dsOpen
    | 0x03 => some .dsOpeningStopped
    | 0x04 => some .dsOpening
    | 0x05 => some .dsClosing
    | 0x7F => some .dsInvalid
    | _ => some (.dsReserved (w.extractLsb' 0 7))

/-- Format `BUSK` (R91). -/
def decodeBusk (w : BitVec 16) : Option Instr :=
  match w.toNat with
  | 0 => some .kindAw
  | 1 => some .kindRx
  | 2 => some .kindAr
  | 3 => some .kindRdnext
  | 4 => some .kindStop
  | 5 => some .kindErr
  | 6 => some (.kindRsvd 0)
  | 7 => some (.kindRsvd 1)
  | _ => none

/-- Format `MCMD` (R93). -/
def decodeMcmd (w : BitVec 16) : Option Instr :=
  match w.toNat with
  | 0 => some .mStop
  | 1 => some .mStartOpen
  | 2 => some .mStartClose
  | 3 => some .mcmdReserved
  | _ => none

/-- Format `KPSTATE` (R94). -/
def decodeKpstate (w : BitVec 16) : Option Instr :=
  match w.toNat with
  | 0 => some .kpIdle
  | 1 => some .kpWait
  | 2 => some .kpScan
  | 3 => some .kpRelease
  | _ => none

/-- Format `QOP` (R95): bit 12 is the operation, bits 11:0 the event of an enqueue. -/
def decodeQop (w : BitVec 16) : Option Instr :=
  if w.extractLsb' 13 3 ≠ 0 then none
  else if w.getLsbD 12 then some (.qEnq (w.extractLsb' 0 12))
  else some (.qDeq (w.extractLsb' 0 12))

/-- The operation that a word of a format is, or `none` where no row of the format takes it. -/
def decode (f : Format) (w : BitVec 16) : Option Instr :=
  match f with
  | .trace => decodeTrace w
  | .sampleCl => decodeSample 9 .dbSampleCl w
  | .sampleOl => decodeSample 8 .dbSampleOl w
  | .ev => decodeEv w
  | .char => decodeChar w
  | .key => decodeKey w
  | .csrRead => decodeCsrRead w
  | .csrWrite => decodeCsrWrite w
  | .dstate => decodeDstate w
  | .busk => decodeBusk w
  | .mcmd => decodeMcmd w
  | .kpstate => decodeKpstate w
  | .qop => decodeQop w

/-! ## Encoding -/

/-- One bit as a bit vector. -/
def bit (b : Bool) : BitVec 1 := BitVec.ofBool b

/-- A trace word (R90): agent, then operand. -/
def traceWord (agent : BitVec 3) (operand : BitVec 13) : BitVec 16 := agent ++ operand

/-- A `BUS` trace word (R90): kind in bits 10:8, data in bits 7:0. -/
def busWord (kind : BitVec 3) (data : Byte) : Stim :=
  ⟨.trace, traceWord 0b001 ((0#2 ++ kind) ++ data)⟩

/-- An event record as a word (R82). -/
def evWord (type : BitVec 4) (data : Byte) : Stim := ⟨.ev, (type ++ data).setWidth 16⟩

/-- A word of a format whose field fills the whole width: the bits above are zero. -/
def plainWord (f : Format) (w : BitVec n) : Stim := ⟨f, w.setWidth 16⟩

/-- The word of an operation, from the encoding tables R82 to R95. -/
def encode (i : Instr) : Stim :=
  match i with
  | .tick cl ol sense scan => ⟨.trace, traceWord 0b000 ((((0#3 ++ bit cl) ++ bit ol) ++ sense) ++ scan)⟩
  | .dbSampleCl s => ⟨.sampleCl, (0#6 ++ bit s) ++ 0#9⟩
  | .dbSampleOl s => ⟨.sampleOl, (0#7 ++ bit s) ++ 0#8⟩
  | .busAw d => busWord 0 d
  | .busRx d => busWord 1 d
  | .busAr d => busWord 2 d
  | .busRdnext d => busWord 3 d
  | .busStop d => busWord 4 d
  | .busErr d => busWord 5 d
  | .busRsvd k d => busWord (0b11#2 ++ k) d
  | .mainDispatch => ⟨.trace, traceWord 0b010 0⟩
  | .mainEmit => ⟨.trace, traceWord 0b011 0⟩
  | .reset => ⟨.trace, traceWord 0b111 0⟩
  | .closedLimitPressed d => evWord 0x1 d
  | .closedLimitReleased d => evWord 0x2 d
  | .openLimitPressed d => evWord 0x3 d
  | .openLimitReleased d => evWord 0x4 d
  | .keypadNewKey d => evWord 0x5 d
  | .actuateDoor d => evWord 0x6 d
  | .startDoor d => evWord 0x7 d
  | .stopDoor d => evWord 0x8 d
  | .evReserved0 d => evWord 0x0 d
  | .evReserved9 d => evWord 0x9 d
  | .evReservedAB k d => evWord (0b101#3 ++ k) d
  | .evReservedCF k d => evWord (0b11#2 ++ k) d
  | .keyDigit0to7 k => plainWord .char (0b00110#5 ++ k)
  | .keyDigit8to9 k => plainWord .char (0b0011100#7 ++ k)
  | .keyTerminator => plainWord .char 0x23#8
  | .keyOther ch => plainWord .char ch
  | .keymap0 => plainWord .key 0x0#4
  | .keymap1 => plainWord .key 0x1#4
  | .keymap2 => plainWord .key 0x2#4
  | .keymap3 => plainWord .key 0x3#4
  | .keymap4 => plainWord .key 0x4#4
  | .keymap5 => plainWord .key 0x5#4
  | .keymap6 => plainWord .key 0x6#4
  | .keymap7 => plainWord .key 0x7#4
  | .keymap8 => plainWord .key 0x8#4
  | .keymap9 => plainWord .key 0x9#4
  | .keymap10 => plainWord .key 0xA#4
  | .keymap11 => plainWord .key 0xB#4
  | .keymap12 => plainWord .key 0xC#4
  | .keymap13 => plainWord .key 0xD#4
  | .keymap14 => plainWord .key 0xE#4
  | .keymap15 => plainWord .key 0xF#4
  | .csrRdStatus s => plainWord .csrRead (0#1 ++ s)
  | .csrWrActuate x => plainWord .csrWrite (1#1 ++ x)
  | .csrWrNop x => plainWord .csrWrite (0#1 ++ x)
  | .dsClosed => plainWord .dstate 0x00#7
  | .dsClosingStopped => plainWord .dstate 0x01#7
  | .dsOpen => plainWord .dstate 0x02#7
  | .dsOpeningStopped => plainWord .dstate 0x03#7
  | .dsOpening => plainWord .dstate 0x04#7
  | .dsClosing => plainWord .dstate 0x05#7
  | .dsInvalid => plainWord .dstate 0x7F#7
  | .dsReserved c => plainWord .dstate c
  | .kindAw => plainWord .busk 0#3
  | .kindRx => plainWord .busk 1#3
  | .kindAr => plainWord .busk 2#3
  | .kindRdnext => plainWord .busk 3#3
  | .kindStop => plainWord .busk 4#3
  | .kindErr => plainWord .busk 5#3
  | .kindRsvd k => plainWord .busk (0b11#2 ++ k)
  | .mStop => plainWord .mcmd 0b00#2
  | .mStartOpen => plainWord .mcmd 0b01#2
  | .mStartClose => plainWord .mcmd 0b10#2
  | .mcmdReserved => plainWord .mcmd 0b11#2
  | .kpIdle => plainWord .kpstate 0b00#2
  | .kpWait => plainWord .kpstate 0b01#2
  | .kpScan => plainWord .kpstate 0b10#2
  | .kpRelease => plainWord .kpstate 0b11#2
  | .qEnq e => plainWord .qop (1#1 ++ e)
  | .qDeq x => plainWord .qop (0#1 ++ x)

/-! ## The opcode table, row by row -/

/-- A row of spec/opcode_table.json: a word `w` of the format selects it when `w AND mask = value`; a row with `last` takes
the words of its format that no other row takes (30_encoding.md, section 10). -/
structure Row where
  fmt : Format
  value : BitVec 16
  mask : BitVec 16
  last : Bool := false
deriving DecidableEq, Repr

/-- A row takes a word by its own match and mask, "last" or not. -/
def Row.hits (r : Row) (w : BitVec 16) : Bool := w &&& r.mask == r.value

/-- The 13 rows of format `TRACE`. -/
def rowsTrace : List Row :=
  [⟨.trace, 0x0000, 0xFC00, false⟩, ⟨.sampleCl, 0x0000, 0xFC00, false⟩, ⟨.sampleOl, 0x0000, 0xFC00, false⟩,
   ⟨.trace, 0x2000, 0xFF00, false⟩, ⟨.trace, 0x2100, 0xFF00, false⟩, ⟨.trace, 0x2200, 0xFF00, false⟩,
   ⟨.trace, 0x2300, 0xFF00, false⟩, ⟨.trace, 0x2400, 0xFF00, false⟩, ⟨.trace, 0x2500, 0xFF00, false⟩,
   ⟨.trace, 0x2600, 0xFE00, false⟩, ⟨.trace, 0x4000, 0xFFFF, false⟩, ⟨.trace, 0x6000, 0xFFFF, false⟩,
   ⟨.trace, 0xE000, 0xFFFF, false⟩]

/-- The 12 rows of format `EV`. -/
def rowsEv : List Row :=
  [⟨.ev, 0x100, 0xF00, false⟩, ⟨.ev, 0x200, 0xF00, false⟩, ⟨.ev, 0x300, 0xF00, false⟩, ⟨.ev, 0x400, 0xF00, false⟩,
   ⟨.ev, 0x500, 0xF00, false⟩, ⟨.ev, 0x600, 0xF00, false⟩, ⟨.ev, 0x700, 0xF00, false⟩, ⟨.ev, 0x800, 0xF00, false⟩,
   ⟨.ev, 0x000, 0xF00, false⟩, ⟨.ev, 0x900, 0xF00, false⟩, ⟨.ev, 0xA00, 0xE00, false⟩, ⟨.ev, 0xC00, 0xC00, false⟩]

/-- The 4 rows of format `CHAR`. -/
def rowsChar : List Row :=
  [⟨.char, 0x30, 0xF8, false⟩, ⟨.char, 0x38, 0xFE, false⟩, ⟨.char, 0x23, 0xFF, false⟩, ⟨.char, 0x00, 0x00, true⟩]

/-- The 16 rows of format `KEY`. -/
def rowsKey : List Row := (List.range 16).map fun k => ⟨.key, BitVec.ofNat 16 k, 0xF, false⟩

/-- The 3 rows of format `CSR`. -/
def rowsCsr : List Row :=
  [⟨.csrRead, 0x00, 0x80, false⟩, ⟨.csrWrite, 0x80, 0x80, false⟩, ⟨.csrWrite, 0x00, 0x80, false⟩]

/-- The 8 rows of format `DSTATE`. -/
def rowsDstate : List Row :=
  [⟨.dstate, 0x00, 0x7F, false⟩, ⟨.dstate, 0x01, 0x7F, false⟩, ⟨.dstate, 0x02, 0x7F, false⟩, ⟨.dstate, 0x03, 0x7F, false⟩,
   ⟨.dstate, 0x04, 0x7F, false⟩, ⟨.dstate, 0x05, 0x7F, false⟩, ⟨.dstate, 0x7F, 0x7F, false⟩, ⟨.dstate, 0x00, 0x00, true⟩]

/-- The 7 rows of format `BUSK`, the 4 of `MCMD`, the 4 of `KPSTATE` and the 2 of `QOP`. -/
def rowsCodes : List Row :=
  [⟨.busk, 0, 7, false⟩, ⟨.busk, 1, 7, false⟩, ⟨.busk, 2, 7, false⟩, ⟨.busk, 3, 7, false⟩, ⟨.busk, 4, 7, false⟩,
   ⟨.busk, 5, 7, false⟩, ⟨.busk, 6, 6, false⟩,
   ⟨.mcmd, 0, 3, false⟩, ⟨.mcmd, 1, 3, false⟩, ⟨.mcmd, 2, 3, false⟩, ⟨.mcmd, 3, 3, false⟩,
   ⟨.kpstate, 0, 3, false⟩, ⟨.kpstate, 1, 3, false⟩, ⟨.kpstate, 2, 3, false⟩, ⟨.kpstate, 3, 3, false⟩,
   ⟨.qop, 0x1000, 0x1000, false⟩, ⟨.qop, 0x0000, 0x1000, false⟩]

/-- The whole table, in the table's order. -/
def rows : List Row := rowsTrace ++ rowsEv ++ rowsChar ++ rowsKey ++ rowsCsr ++ rowsDstate ++ rowsCodes

/-- The table's row of an operation, counted from 0 in the table's order. -/
def rowOf (i : Instr) : Nat :=
  match i with
  | .tick _ _ _ _ => 0
  | .dbSampleCl _ => 1
  | .dbSampleOl _ => 2
  | .busAw _ => 3
  | .busRx _ => 4
  | .busAr _ => 5
  | .busRdnext _ => 6
  | .busStop _ => 7
  | .busErr _ => 8
  | .busRsvd _ _ => 9
  | .mainDispatch => 10
  | .mainEmit => 11
  | .reset => 12
  | .closedLimitPressed _ => 13
  | .closedLimitReleased _ => 14
  | .openLimitPressed _ => 15
  | .openLimitReleased _ => 16
  | .keypadNewKey _ => 17
  | .actuateDoor _ => 18
  | .startDoor _ => 19
  | .stopDoor _ => 20
  | .evReserved0 _ => 21
  | .evReserved9 _ => 22
  | .evReservedAB _ _ => 23
  | .evReservedCF _ _ => 24
  | .keyDigit0to7 _ => 25
  | .keyDigit8to9 _ => 26
  | .keyTerminator => 27
  | .keyOther _ => 28
  | .keymap0 => 29
  | .keymap1 => 30
  | .keymap2 => 31
  | .keymap3 => 32
  | .keymap4 => 33
  | .keymap5 => 34
  | .keymap6 => 35
  | .keymap7 => 36
  | .keymap8 => 37
  | .keymap9 => 38
  | .keymap10 => 39
  | .keymap11 => 40
  | .keymap12 => 41
  | .keymap13 => 42
  | .keymap14 => 43
  | .keymap15 => 44
  | .csrRdStatus _ => 45
  | .csrWrActuate _ => 46
  | .csrWrNop _ => 47
  | .dsClosed => 48
  | .dsClosingStopped => 49
  | .dsOpen => 50
  | .dsOpeningStopped => 51
  | .dsOpening => 52
  | .dsClosing => 53
  | .dsInvalid => 54
  | .dsReserved _ => 55
  | .kindAw => 56
  | .kindRx => 57
  | .kindAr => 58
  | .kindRdnext => 59
  | .kindStop => 60
  | .kindErr => 61
  | .kindRsvd _ => 62
  | .mStop => 63
  | .mStartOpen => 64
  | .mStartClose => 65
  | .mcmdReserved => 66
  | .kpIdle => 67
  | .kpWait => 68
  | .kpScan => 69
  | .kpRelease => 70
  | .qEnq _ => 71
  | .qDeq _ => 72

/-- A word of format `f`, within the format's width, selects row `n` of the table: the row is of that format and takes the
word, and where it is a "last" row no other row of the format takes it. -/
def selects (f : Format) (w : BitVec 16) (n : Nat) : Bool :=
  match rows[n]? with
  | none => false
  | some r =>
    r.fmt == f && r.hits w && decide (w.toNat < 2 ^ f.width) &&
      (!r.last || rows.all fun r' => r'.fmt != f || r'.last || !r'.hits w)

/-! ## Words given by the table's bit numbering -/

/-- The formats in which a word of the table's `nbits` bits may be read, in the order in which `tableFormat` tries them: the
bits alone do not name a format. DESIGN CHOICE, log 1: unsafe. -/
def formatsOfWidth (nbits : Nat) : List Format :=
  match nbits with
  | 16 => [.trace, .ev, .qop]
  | 13 => [.qop]
  | 12 => [.ev]
  | 8 => [.key, .char, .dstate, .csrWrite]
  | 7 => [.dstate]
  | 4 => [.key]
  | 3 => [.busk]
  | 2 => [.mcmd]
  | _ => []

/-- `decode`, without the two rows that take whatever their format's other rows leave. -/
def decodeListed (f : Format) (w : BitVec 16) : Option Instr :=
  match decode f w with
  | some (.keyOther _) => none
  | some (.dsReserved _) => none
  | r => r

/-- The format in which a table word is read: the first of `formatsOfWidth` in which a row takes it. -/
def tableFormat (nbits w : Nat) : Option Format :=
  if w < 2 ^ 16 then (formatsOfWidth nbits).find? fun f => (decodeListed f (BitVec.ofNat 16 w)).isSome else none

/-- The tagged word that a table word is placed as; one that no format takes becomes a malformed trace word (agent 0b100,
R90), which the step refuses. -/
def tableStim (nbits w : Nat) : Stim :=
  match tableFormat nbits w with
  | some f => ⟨f, BitVec.ofNat 16 w⟩
  | none => ⟨.trace, 0x8000⟩

/-- The operation that the decoder reads from a word numbered as spec/opcode_table.json numbers its bits. -/
def decodeTableWord (nbits w : Nat) : Option Instr :=
  (tableFormat nbits w).bind fun f => decode f (BitVec.ofNat 16 w)

end Sys2Proof
end

