-- ==== Sys2Proof/Machine/State.lean ====
section
/-! DEFINITION. The state of the core (10_state.md R20, the complete list), its configuration, the model's own fields, the
reasons a step can stop, and the state after reset (R40). -/

namespace Sys2Proof.Machine

open Sys2Proof.Config

/-- One debounce process (10_state.md R23): its four registers. Levels are raw pin levels, `false` is low, pressed. -/
structure Debounce where
  pending : Level
  confirmed : Level
  /-- `db_countdown`, an unsigned counter of 4 bits, or of the bits of a larger `N_LIMIT` (R125; `countdownWidth`). -/
  countdown : Nat
  armed : Bool
deriving DecidableEq, Repr

/-- The four values of `kp_state` (10_state.md R25; 2-bit codes 0 to 3 in this order, 30_encoding.md R94). -/
inductive KpState where
  | idle | wait | scan | release
deriving DecidableEq, Repr

/-- The two values of `kp_role` (10_state.md R26). -/
inductive KpRole where
  | normal | swapped
deriving DecidableEq, Repr

/-- The error causes (60_exceptions.md R230), each with the value it records. A cause is recorded and changes no control
flow; only `queueFull` changes a register. -/
inductive Cause where
  /-- Code 1, (a): an enqueue against a full queue, with the event that was dropped (R231). -/
  | queueFull (e : Ev)
  /-- Code 2, (b): a scan in which a side has no line low, with the two samples (R232). -/
  | scanUnresolved (sense scan : Lines)
  /-- Code 3, (c): a protocol error or unlisted phase, with its kind (R233). -/
  | busDesync (kind : BitVec 3)
  /-- Code 4, (d): never raised by the core (R234). -/
  | invalidDoorState
deriving DecidableEq, Repr

/-- The answers of the queue operations (10_state.md R35). -/
inductive QResult where
  | success | full | event (e : Ev) | empty
deriving DecidableEq, Repr

/-- What a reader of the status byte makes of a door-state code (30_encoding.md R86, R87): one of the six states, or a door
whose state is unknown. -/
inductive DoorView where
  | closed | closingStopped | opened | openingStopped | opening | closing | unknown
deriving DecidableEq, Repr

/-- The outputs of the latest step (the MODEL's own field; DESIGN CHOICE, log 6). Every meaning begins with nothing
recorded. -/
structure StepOut where
  /-- `bus_tx` (10_state.md R39): `none`, or the byte handed to the bus. -/
  busTx : Option Byte := none
  /-- The causes raised, in program order (60_exceptions.md R230, R235). -/
  causes : List Cause := []
  /-- The answer of a queue operation taken by itself (R111, R112). -/
  qResult : Option QResult := none
  /-- The character of a key-layout read taken by itself (R136). -/
  keyChar : Option Byte := none
  /-- The reading of a door-state code taken by itself (R86, R87). -/
  doorView : Option DoorView := none
deriving DecidableEq, Repr

/-- The state of the core. -/
structure State where
  /-- `q`, the event queue, oldest first (R21). -/
  q : List Ev
  /-- `drop_count` (R22). -/
  dropCount : BitVec 16
  /-- `db_*[CL]` (R23). -/
  dbCl : Debounce
  /-- `db_*[OL]` (R23). -/
  dbOl : Debounce
  /-- `kp_state` (R25). -/
  kpState : KpState
  /-- `kp_count` (R25), an unsigned counter of 3 bits, or of the bits of a larger `N_KP` (D25; `kpCountWidth`). -/
  kpCount : Nat
  /-- `kp_role` (R26). -/
  kpRole : KpRole
  /-- `duty_open` (R27). -/
  dutyOpen : Byte
  /-- `duty_close` (R27). -/
  dutyClose : Byte
  /-- `bus_phase` (R29). -/
  busPhase : BitVec 1
  /-- `bus_tx_done` (R29). -/
  busTxDone : Bool
  /-- `door_state` (R30). -/
  doorState : DoorCode
  /-- `acc_value` (R32). -/
  accValue : BitVec 16
  /-- `acc_count` (R32), an unsigned counter of 3 bits, or of the bits of a larger `PIN_LEN` (D25; `accCountWidth`). -/
  accCount : Nat
  /-- `m_pending` (R34). -/
  mPending : Option Ev
  /-- The configuration of the core (R5, R37): no step writes it (20_memory.md R75). DESIGN CHOICE (kept here), log 7. -/
  cfg : Params
  /-- The MODEL's own: the words the environment and the schedule have lined up, next first. DESIGN CHOICE, log 2. -/
  stim : List Stim
  /-- The MODEL's own: the position in the open schedule `Config.sched`. DESIGN CHOICE, log 3. -/
  schedIndex : Nat
  /-- The MODEL's own: how many operations have taken an input from `Config.freeInput`. DESIGN CHOICE, log 9. -/
  inputIndex : Nat
  /-- The MODEL's own: the outputs of the latest step (R39). DESIGN CHOICE, log 6. -/
  out : StepOut
deriving DecidableEq, Repr

/-- Reasons for which the machine stops with a fault: there are none. "Nothing in the core is `fault` or `stuck`"
(93_implementation_defined.md, part 1): no definition raises one, and none can. -/
inductive Fault where
deriving DecidableEq, Repr

/-- Reasons for which a step is no step of the core. -/
inductive Refusal where
  /-- Raised by an arm of `exec` whose operation has no meaning yet; no arm raises it. Safe. -/
  | notModelled (mnemonic : String)
  /-- Raised by `step`: the word is none of its format's rows (30_encoding.md R90, R99: a trace reader refuses it). DEDUCED,
  log 5: safe. -/
  | malformedWord
  /-- Raised by `MAIN_DISPATCH` when an event is pending or the queue is empty: the step is not enabled (48_agents_and_steps.md
  R210, R217; 30_encoding.md R96, "legal only when it is enabled"). DEDUCED, log 4: safe. -/
  | mainDispatchNotEnabled
  /-- Raised by `MAIN_EMIT` when nothing is pending: the step is not enabled (R210, R215, R96). DEDUCED, log 4:
  safe. -/
  | mainEmitNotEnabled
deriving DecidableEq, Repr

/-- A debounce process at reset: released, nothing timed (R40). -/
def Debounce.reset : Debounce := { pending := true, confirmed := true, countdown := 0, armed := false }

/-- The state after reset (R40), with the reference configuration (R5) and no stimulus lined up (log 2, log 3, log 6, log 9:
the model's own fields; log 8: the reset values). -/
def State.reset : State where
  q := []
  dropCount := 0#16
  dbCl := Debounce.reset
  dbOl := Debounce.reset
  kpState := .idle
  kpCount := 0
  kpRole := .normal
  dutyOpen := 0#8
  dutyClose := 0#8
  busPhase := 0#1
  busTxDone := false
  doorState := 0#7
  accValue := 0#16
  accCount := 0
  mPending := none
  cfg := Config.reference
  stim := []
  schedIndex := 0
  inputIndex := 0
  out := {}

end Sys2Proof.Machine
end

