-- ==== Sys2Proof/Machine/Flags.lean ====
section
/-! DEFINITION. The core has no condition-code register; what plays the part of flags is computed here (10_state.md R35), with
the conditions under which the steps of `MAIN` are enabled (48_agents_and_steps.md R210). -/

namespace Sys2Proof.Machine

/-- `q_empty`: `|q| = 0` (R35). -/
def State.qEmpty (s : State) : Bool := s.q.length == 0

/-- `q_full`: `|q| = Q_CAP` (R35, R116). -/
def State.qFull (s : State) : Bool := s.q.length == s.cfg.qCap

/-- The valid bit of `m_pending` (R34, R35). -/
def State.pendingValid (s : State) : Bool := s.mPending.isSome

/-- `MAIN_DISPATCH` is enabled when `m_pending = none` and `q` is not empty (R210, R214). -/
def State.dispatchEnabled (s : State) : Bool := !s.pendingValid && !s.qEmpty

/-- `MAIN_EMIT` is enabled when `m_pending` is not `none` (R210, R215). -/
def State.emitEnabled (s : State) : Bool := s.pendingValid

/-- The main loop sleeps: neither of its steps is enabled (R217, R244). -/
def State.asleep (s : State) : Bool := !s.dispatchEnabled && !s.emitEnabled

end Sys2Proof.Machine
end

