-- ==== Sys2Proof/Machine/Codes.lean ====
section
/-! DEFINITION. The numeric codes of 30_encoding.md: event types (R83), door states (R86), characters (R88), bus kinds (R91),
keypad states (R94) and error causes (60_exceptions.md R230). -/

namespace Sys2Proof.Machine

/-! ## Event records (R82, R83) -/

/-- The event record with type `type` and data `data` (R82): type in bits 11:8, data in bits 7:0. -/
def mkEv (type : BitVec 4) (data : Byte) : Ev := type ++ data

/-- `type`, bits 11:8 of a record. -/
def evType (e : Ev) : BitVec 4 := e.extractLsb' 8 4

/-- `data`, bits 7:0 of a record. -/
def evData (e : Ev) : Byte := e.extractLsb' 0 8

def tyClosedLimitPressed : BitVec 4 := 0x1#4
def tyClosedLimitReleased : BitVec 4 := 0x2#4
def tyOpenLimitPressed : BitVec 4 := 0x3#4
def tyOpenLimitReleased : BitVec 4 := 0x4#4
def tyKeypadNewKey : BitVec 4 := 0x5#4
def tyActuateDoor : BitVec 4 := 0x6#4
def tyStartDoor : BitVec 4 := 0x7#4
def tyStopDoor : BitVec 4 := 0x8#4

/-- `Ev(T)` is `Ev(T, 0x00)` (00_scope.md R8; R82: a producer writes 0x00 where there is no payload). -/
def evOf (type : BitVec 4) : Ev := mkEv type 0x00#8

/-! ## Door states (R86) -/

def dsClosed : DoorCode := 0x00#7
def dsClosingStopped : DoorCode := 0x01#7
def dsOpen : DoorCode := 0x02#7
def dsOpeningStopped : DoorCode := 0x03#7
def dsOpening : DoorCode := 0x04#7
def dsClosing : DoorCode := 0x05#7
def dsInvalid : DoorCode := 0x7F#7

/-- What a reader of the status byte makes of a code: the six states of R86, and for `DS_INVALID` and the reserved codes a
door that is unknown (R87, R234). -/
def doorView (c : DoorCode) : DoorView :=
  if c = dsClosed then .closed
  else if c = dsClosingStopped then .closingStopped
  else if c = dsOpen then .opened
  else if c = dsOpeningStopped then .openingStopped
  else if c = dsOpening then .opening
  else if c = dsClosing then .closing
  else .unknown

/-! ## Keypad states (R94), keypad roles (R26) and error causes (R230) -/

/-- The 2-bit code of `kp_state`. -/
def KpState.code (k : KpState) : BitVec 2 :=
  match k with
  | .idle => 0
  | .wait => 1
  | .scan => 2
  | .release => 3

/-- The 1-bit code of `kp_role` (10_state.md R20). -/
def KpRole.code (r : KpRole) : BitVec 1 :=
  match r with
  | .normal => 0
  | .swapped => 1

/-- The number of an error cause. -/
def Cause.code (c : Cause) : Nat :=
  match c with
  | .queueFull _ => 1
  | .scanUnresolved _ _ => 2
  | .busDesync _ => 3
  | .invalidDoorState => 4

/-! ## Bus phase kinds (R91) -/

def kindAw : BitVec 3 := 0#3
def kindRx : BitVec 3 := 1#3
def kindAr : BitVec 3 := 2#3
def kindRdnext : BitVec 3 := 3#3
def kindStop : BitVec 3 := 4#3
def kindErr : BitVec 3 := 5#3

end Sys2Proof.Machine
end

