-- ==== Sys2Proof/Machine/Operands.lean ====
section
/-! DEFINITION. How each computed operand is put together (30_encoding.md R98), and the pin outputs (10_state.md R39). -/

namespace Sys2Proof.Machine

open Sys2Proof.Config

/-! ## The command/status byte (R85, R98) -/

/-- The status byte of a read: bit 7 zero, the door state in bits 6:0 (R85). -/
def statusByte (door : DoorCode) : Byte := 0#1 ++ door

/-- The command bit of a command byte: bit 7 (R85). -/
def commandBit (b : Byte) : Bool := b.getLsbD 7

/-! ## The counters (42_debounce.md R125; 92_eei_decisions.md D25)

A counter is kept as a number below `2 ^ width`, because its width follows the configuration (log 7); it counts in that width, as
00_scope.md R8 has every value take the width of its register (DEDUCED, log 23). -/

/-- The width of a counter that is loaded with or compared with `n`: `least` bits, or the number of bits of a larger `n`
(R125, D25). -/
def counterWidth (least n : Nat) : Nat := max least (n.log2 + 1)

/-- The width of `db_countdown` (R125). -/
def countdownWidth (nLimit : Nat) : Nat := counterWidth 4 nLimit

/-- The width of `kp_count` (R25, D25). -/
def kpCountWidth (nKp : Nat) : Nat := counterWidth 3 nKp

/-- The width of `acc_count` (R32, D25). -/
def accCountWidth (pinLen : Nat) : Nat := counterWidth 3 pinLen

/-- A counter less one. -/
def counterPred (width n : Nat) : Nat := if n = 0 then 2 ^ width - 1 else n - 1

/-- A counter plus one. -/
def counterSucc (width n : Nat) : Nat := if n + 1 = 2 ^ width then 0 else n + 1

/-! ## The keypad (R89, R131, R136, R137) -/

/-- `KP_PRESENT`: at least one sense line reads low (43_keypad_scanner.md R131). -/
def kpPresent (sense : Lines) : Bool := sense != 0b1111#4

/-- `LOWIDX`, the index of the lowest line that reads low, 0 where none does (R137). -/
def lowIdx (v : Lines) : BitVec 2 :=
  if v.getLsbD 0 = false then 0#2
  else if v.getLsbD 1 = false then 1#2
  else if v.getLsbD 2 = false then 2#2
  else if v.getLsbD 3 = false then 3#2
  else 0#2

/-- `key_index = column + 4*row`, in 4 bits (R89, R136). -/
def keyIndex (column row : BitVec 2) : BitVec 4 := column.setWidth 4 + 4#4 * row.setWidth 4

/-- `MemRead(KEYMAP, k, 1)` (00_scope.md R8, R63) in the layout `m`: every 4-bit index is legal (R65). -/
def keymapRead (m : Vector Byte 16) (k : BitVec 4) : Byte := m[k.toNat]'k.isLt

/-- `KP_RESOLVE(column, row)` (R136) in the layout `m`. -/
def kpResolve (m : Vector Byte 16) (column row : BitVec 2) : Byte := keymapRead m (keyIndex column row)

/-! ## The access code (R98, R200 to R202) -/

/-- A character is a decimal digit when its code is 0x30 to 0x39 (R88, R200). -/
def isDigit (ch : Byte) : Bool := 0x30#8 ≤ ch && ch ≤ 0x39#8

/-- The digit value `ch - 0x30`, zero-extended to 16 bits (R98). -/
def digitValue (ch : Byte) : BitVec 16 := (ch - 0x30#8).setWidth 16

/-- The new accumulator value `acc_value*10 + digit`, in 16-bit unsigned arithmetic (R98, R205). -/
def accAppend (acc digit : BitVec 16) : BitVec 16 := acc * 10#16 + digit

/-! ## The edge events (42_debounce.md R122) -/

/-- The two limit switches, the instances of the debounce filter (R120). -/
inductive Switch where
  | cl | ol
deriving DecidableEq, Repr

/-- `EDGE(i, s)`, the event type of a confirmed change to level `s` (R122). -/
def edgeType (i : Switch) (s : Level) : BitVec 4 :=
  match i, s with
  | .cl, false => tyClosedLimitPressed
  | .cl, true => tyClosedLimitReleased
  | .ol, false => tyOpenLimitPressed
  | .ol, true => tyOpenLimitReleased

/-! ## The toggle decision (46_door_fsm.md R188) -/

/-- `TOGGLE(s)`: `STOP_DOOR` at or above `DS_OPENING`, else `START_DOOR`, on the 7-bit codes (R9, R188). -/
def toggle (door : DoorCode) : BitVec 4 := if dsOpening ≤ door then tyStopDoor else tyStartDoor

/-! ## The pin outputs (10_state.md R39) -/

/-- `scan_oe`: the scan lines are driven in role `NORMAL` only. -/
def State.scanOe (s : State) : Bool := s.kpRole == .normal

/-- `scan_out`: all four low where driven. -/
def State.scanOut (s : State) : Option Lines := if s.kpRole = .normal then some 0b0000 else none

/-- `sense_oe`: the sense lines are driven in role `SWAPPED` only. -/
def State.senseOe (s : State) : Bool := s.kpRole == .swapped

/-- `sense_out`: all four low at once where driven. -/
def State.senseOut (s : State) : Option Lines := if s.kpRole = .swapped then some 0b0000 else none

end Sys2Proof.Machine
end

