-- ==== Sys2Proof/Machine/Ops.lean ====
section
/-! DEFINITION. The named operations over the registers and the storage spaces (20_memory.md R60): the queue operations, the
bus register, raising an error cause, and the writes of each register. -/

namespace Sys2Proof.Machine

open Sys2Proof.Config

/-! ## Register writes (00_scope.md R8: `name <- v`) -/

/-- A meaning begins with no output recorded (log 6). -/
def State.begin (s : State) : State := { s with out := {} }

/-- `bus_tx <- v` (R39). -/
def State.setBusTx (v : Option Byte) (s : State) : State := { s with out := { s.out with busTx := v } }

/-- Record the answer of a queue operation (R35). -/
def State.setQResult (r : QResult) (s : State) : State := { s with out := { s.out with qResult := some r } }

/-- Record the character of a key-layout read (R136). -/
def State.setKeyChar (c : Byte) (s : State) : State := { s with out := { s.out with keyChar := some c } }

/-- Record the reading of a door-state code (R87). -/
def State.setDoorView (v : DoorView) (s : State) : State := { s with out := { s.out with doorView := some v } }

/-- The registers of debounce process `i` (R23). -/
def State.db (s : State) (i : Switch) : Debounce :=
  match i with
  | .cl => s.dbCl
  | .ol => s.dbOl

/-- Write the registers of debounce process `i` (R23): the other process is not touched (R126). -/
def State.setDb (i : Switch) (d : Debounce) (s : State) : State :=
  match i with
  | .cl => { s with dbCl := d }
  | .ol => { s with dbOl := d }

/-- `kp_state <- k`. -/
def State.setKpState (k : KpState) (s : State) : State := { s with kpState := k }

/-- `kp_count <- n`. -/
def State.setKpCount (n : Nat) (s : State) : State := { s with kpCount := n }

/-- `kp_role <- r`. -/
def State.setKpRole (r : KpRole) (s : State) : State := { s with kpRole := r }

/-- `duty_open <- d`. -/
def State.setDutyOpen (d : Byte) (s : State) : State := { s with dutyOpen := d }

/-- `duty_close <- d`. -/
def State.setDutyClose (d : Byte) (s : State) : State := { s with dutyClose := d }

/-- `bus_phase <- p`. -/
def State.setBusPhase (p : BitVec 1) (s : State) : State := { s with busPhase := p }

/-- `bus_tx_done <- b`. -/
def State.setBusTxDone (b : Bool) (s : State) : State := { s with busTxDone := b }

/-- `door_state <- d`, one indivisible update (R30). -/
def State.setDoor (d : DoorCode) (s : State) : State := { s with doorState := d }

/-- `acc_value <- v`, `acc_count <- n`. -/
def State.setAcc (v : BitVec 16) (n : Nat) (s : State) : State := { s with accValue := v, accCount := n }

/-- `m_pending <- p`. -/
def State.setPending (p : Option Ev) (s : State) : State := { s with mPending := p }

/-! ## Inputs that a word does not hold (R38) -/

/-- The inputs of an operation whose word holds none (log 9). -/
def State.input (s : State) : Inputs := freeInput s.inputIndex

/-- An operation takes its inputs: the next one gets others (log 9). -/
def State.takeInput (s : State) : State := { s with inputIndex := s.inputIndex + 1 }

/-! ## Raising an error cause (60_exceptions.md R230) -/

/-- Increment, stopping at the top (10_state.md R22). -/
def saturatingSucc (n : BitVec 16) : BitVec 16 := if n = 0xFFFF#16 then 0xFFFF#16 else n + 1#16

/-- `raise <Cause>(info)` (R8, R230): the cause is recorded among the step's outputs and the step goes on; only `QueueFull`
changes a register, `drop_count`, by one and saturating (R22, R231). There is no entry and no return: nothing is saved and
control does not move (R238). -/
def State.raise (c : Cause) (s : State) : State :=
  { s with
    out := { s.out with causes := s.out.causes ++ [c] }
    dropCount :=
      match c with
      | .queueFull _ => saturatingSucc s.dropCount
      | .scanUnresolved _ _ => s.dropCount
      | .busDesync _ => s.dropCount
      | .invalidDoorState => s.dropCount }

/-! ## The queue (41_event_queue.md R111, R112) -/

/-- `Q_ENQ(e)` (R111): the answer and the state after it. On a full queue the new event is the one lost (R114). -/
def State.qEnq (e : Ev) (s : State) : QResult × State :=
  if s.qFull then (.full, s.raise (.queueFull e)) else (.success, { s with q := s.q ++ [e] })

/-- `Q_ENQ(e)` by a caller that does not look at the answer (R111: no caller of the core does). -/
def State.enqueue (e : Ev) (s : State) : State := (s.qEnq e).2

/-- `Q_DEQ()` (R112): the oldest event, which is destroyed, or `empty`. -/
def State.qDeq (s : State) : QResult × State :=
  match s.q with
  | [] => (.empty, s)
  | e :: rest => (.event e, { s with q := rest })

/-- The canonical form of the one writable storage space `QS` (20_memory.md R60, R61): capacity is never exceeded (R21, R115).
The sequence has no other redundancy: equal queues are equal lists. -/
abbrev Memory.wf (s : State) : Prop := s.q.length ≤ s.cfg.qCap

/-! ## The bus register `CSR` (10_state.md R31) -/

/-- `MemRead(CSR, 0, 1)` (R8, R164): the status byte; no storage is read but `door_state` (R31). -/
def State.csrRead (s : State) : Byte := statusByte s.doorState

/-- `MemWrite(CSR, 0, 1, b)` (R8, R163): with bit 7 set one `ACTUATE_DOOR` is enqueued; bits 6:0 are ignored and nothing is
stored (R31). -/
def State.csrWrite (b : Byte) (s : State) : State := if commandBit b then s.enqueue (evOf tyActuateDoor) else s

/-! ## Reset (70_reset_and_hazards.md R260) -/

/-- Every register of R20 at its reset value (R40), from any state. What is no register stays: the configuration (R37), the
stimuli and the schedule (log 2, log 3), the count of inputs taken (log 9). -/
def State.resetRegisters (s : State) : State :=
  { State.reset with cfg := s.cfg, stim := s.stim, schedIndex := s.schedIndex, inputIndex := s.inputIndex }

end Sys2Proof.Machine
end

