-- ==== Sys2Proof/Machine/Bus.lean ====
section
/-! DEFINITION. bus_slave_register_handler (45_bus_slave.md): one operation per phase kind, the `BUS` trace words, the rows of
format `BUSK` and the rows of format `CSR`. -/

namespace Sys2Proof.Machine

/-! ## One operation per phase kind (R162 to R167) -/

/-- `BUS_AW()` (R162). -/
def busAw (s : State) : State := ((s.setBusPhase 0#1).setBusTxDone false).setBusTx none

/-- `BUS_RX(b)` (R163): the first byte of a write is ignored, every later one is a command byte. -/
def busRx (b : Byte) (s : State) : State :=
  let s := s.setBusTx none
  if s.busPhase = 0#1 then s.setBusPhase 1#1 else s.csrWrite b

/-- `BUS_AR()` (R164): `bus_phase` is left alone. -/
def busAr (s : State) : State := (s.setBusTx (some s.csrRead)).setBusTxDone true

/-- `BUS_RDNEXT()` (R165): a second read byte is not produced. -/
def busRdnext (s : State) : State := s.setBusTx none

/-- `BUS_STOP()` (R166). -/
def busStop (s : State) : State := ((s.setBusPhase 0#1).setBusTxDone false).setBusTx none

/-- `BUS_ERR()` (R167), for kind 5 and the reserved kinds 6 and 7. -/
def busErr (kind : BitVec 3) (s : State) : State :=
  (((s.raise (.busDesync kind)).setBusPhase 0#1).setBusTxDone false).setBusTx none

/-! ## The `BUS` trace words (R90, R212) -/

/-- `BUS_AW`; `bus_data` is ignored. -/
def execBusAw (_data : Byte) (s : State) : Host.Outcome State Fault Refusal := .next (busAw s.begin)

/-- `BUS_RX` with its byte. -/
def execBusRx (data : Byte) (s : State) : Host.Outcome State Fault Refusal := .next (busRx data s.begin)

/-- `BUS_AR`; `bus_data` is ignored. -/
def execBusAr (_data : Byte) (s : State) : Host.Outcome State Fault Refusal := .next (busAr s.begin)

/-- `BUS_RDNEXT`; `bus_data` is ignored. -/
def execBusRdnext (_data : Byte) (s : State) : Host.Outcome State Fault Refusal := .next (busRdnext s.begin)

/-- `BUS_STOP`; `bus_data` is ignored. -/
def execBusStop (_data : Byte) (s : State) : Host.Outcome State Fault Refusal := .next (busStop s.begin)

/-- `BUS_ERR`; `bus_data` is ignored. -/
def execBusErr (_data : Byte) (s : State) : Host.Outcome State Fault Refusal := .next (busErr kindErr s.begin)

/-- `BUS_RSVD`, kinds 6 and 7 (R91): handled as `BUS_ERR`; `bus_data` is ignored. -/
def execBusRsvd (kind0 : BitVec 1) (_data : Byte) (s : State) : Host.Outcome State Fault Refusal :=
  .next (busErr (0b11#2 ++ kind0) s.begin)

/-! ## Format `BUSK` (R91): a phase kind by itself

A kind is handed to the core with `bus_data` beside it (R160), which the 3-bit code does not hold: the byte of an `RX` is
whatever the environment supplies (log 9). DESIGN CHOICE, log 15. -/

/-- `AW` (R162). -/
def execKindAw (s : State) : Host.Outcome State Fault Refusal := .next (busAw s.begin)

/-- `RX` (R163). -/
def execKindRx (s : State) : Host.Outcome State Fault Refusal := .next (busRx s.input.busData s.begin.takeInput)

/-- `AR` (R164). -/
def execKindAr (s : State) : Host.Outcome State Fault Refusal := .next (busAr s.begin)

/-- `RDNEXT` (R165). -/
def execKindRdnext (s : State) : Host.Outcome State Fault Refusal := .next (busRdnext s.begin)

/-- `STOP` (R166). -/
def execKindStop (s : State) : Host.Outcome State Fault Refusal := .next (busStop s.begin)

/-- `ERR` (R167). -/
def execKindErr (s : State) : Host.Outcome State Fault Refusal := .next (busErr kindErr s.begin)

/-- `BUS_RSVD`, kinds 6 and 7 (R167). -/
def execKindRsvd (kind0 : BitVec 1) (s : State) : Host.Outcome State Fault Refusal :=
  .next (busErr (0b11#2 ++ kind0) s.begin)

/-! ## Format `CSR` (R85): an access to the bus register by itself (log 13) -/

/-- `CSR_RD_STATUS`, the read view (R164): the status byte is answered and `bus_tx_done` set (20_memory.md R68). Bits 6:0 of
the word are what is read, not an operand (R85). -/
def execCsrRdStatus (_state : BitVec 7) (s : State) : Host.Outcome State Fault Refusal :=
  .next ((s.begin.setBusTx (some s.csrRead)).setBusTxDone true)

/-- `CSR_WR_ACTUATE`, a command byte with bit 7 set (R163). -/
def execCsrWrActuate (ignored : BitVec 7) (s : State) : Host.Outcome State Fault Refusal :=
  .next (s.begin.csrWrite (1#1 ++ ignored))

/-- `CSR_WR_NOP`, a command byte with bit 7 clear: nothing happens (R163). -/
def execCsrWrNop (ignored : BitVec 7) (s : State) : Host.Outcome State Fault Refusal :=
  .next (s.begin.csrWrite (0#1 ++ ignored))

end Sys2Proof.Machine
end

