-- ==== Sys2Proof/Machine/Debounce.lean ====
section
/-! DEFINITION. debounce_filter for the limit switches (42_debounce.md): `DB_SAMPLE`. -/

namespace Sys2Proof.Machine

open Sys2Proof.Config

/-- The first part of the second branch of R121: the first sample of a new window loads the pending level and the countdown. -/
def debounceArm (nLimit : Nat) (l : Level) (d : Debounce) : Debounce :=
  if d.armed then d else { d with pending := l, armed := true, countdown := nLimit }

/-- The registers of one process after a sample, and whether the sample confirms a change (R121). -/
def debounceNext (nLimit : Nat) (l : Level) (d : Debounce) : Debounce × Bool :=
  if l = d.confirmed then
    ({ d with armed := false, pending := d.confirmed, countdown := 0 }, false)
  else
    let d := debounceArm nLimit l d
    let d := { d with countdown := counterPred (countdownWidth nLimit) d.countdown }
    if d.countdown = 0 then ({ d with confirmed := l, armed := false }, true) else (d, false)

/-- `DB_SAMPLE(i, l)` (R121): the process's registers, and on a confirmation the edge event, whose enqueue is not looked at
(R124). -/
def dbSample (i : Switch) (l : Level) (s : State) : State :=
  let r := debounceNext s.cfg.nLimit l (s.db i)
  let s := s.setDb i r.1
  if r.2 then s.enqueue (evOf (edgeType i l)) else s

/-- `DB_SAMPLE[CL]` taken by itself: bit 9 of a `TICK` word (log 18). -/
def execDbSampleCl (l : Level) (s : State) : Host.Outcome State Fault Refusal :=
  .next (dbSample .cl l s.begin)

/-- `DB_SAMPLE[OL]` taken by itself: bit 8 of a `TICK` word (log 18). -/
def execDbSampleOl (l : Level) (s : State) : Host.Outcome State Fault Refusal :=
  .next (dbSample .ol l s.begin)

end Sys2Proof.Machine
end

