-- ==== Sys2Proof/Machine/Motor.lean ====
section
/-! DEFINITION. motor_pwm_direction_controller (44_motor_controller.md): the three operations and the rows of format `MCMD`. -/

namespace Sys2Proof.Machine

open Sys2Proof.Config

/-! ## The writes of a command, in their order (R155) -/

/-- The two PWM channels (R150). -/
inductive Channel where
  | opening | closing
deriving DecidableEq, Repr

/-- One write of a duty register. -/
structure DutyWrite where
  channel : Channel
  duty : Byte
deriving DecidableEq, Repr

/-- The writes of `M_STOP()` (R151): both duties to zero, never only one. -/
def motorStopWrites : List DutyWrite := [⟨.opening, 0#8⟩, ⟨.closing, 0#8⟩]

/-- The writes of `M_START_OPEN()` (R152): the opposing channel first. -/
def motorStartOpenWrites (full : Byte) : List DutyWrite := [⟨.closing, 0#8⟩, ⟨.opening, full⟩]

/-- The writes of `M_START_CLOSE()` (R153): the opposing channel first. -/
def motorStartCloseWrites (full : Byte) : List DutyWrite := [⟨.opening, 0#8⟩, ⟨.closing, full⟩]

/-- One write of a duty register. -/
def State.writeDuty (s : State) (w : DutyWrite) : State :=
  match w.channel with
  | .opening => s.setDutyOpen w.duty
  | .closing => s.setDutyClose w.duty

/-- Writes of the duty registers, one after another. -/
def State.writeDuties (ws : List DutyWrite) (s : State) : State := ws.foldl State.writeDuty s

/-! ## The operations -/

/-- `M_STOP()` (R151). -/
def motorStop (s : State) : State := s.writeDuties motorStopWrites

/-- `M_START_OPEN()` (R152). -/
def motorStartOpen (s : State) : State := s.writeDuties (motorStartOpenWrites s.cfg.dutyFull)

/-- `M_START_CLOSE()` (R153). -/
def motorStartClose (s : State) : State := s.writeDuties (motorStartCloseWrites s.cfg.dutyFull)

/-- `M_STOP` (R151) as a command by itself (log 16). -/
def execMStop (s : State) : Host.Outcome State Fault Refusal := .next (motorStop s.begin)

/-- `M_START_OPEN` (R152) as a command by itself (log 16). -/
def execMStartOpen (s : State) : Host.Outcome State Fault Refusal := .next (motorStartOpen s.begin)

/-- `M_START_CLOSE` (R153) as a command by itself (log 16). -/
def execMStartClose (s : State) : Host.Outcome State Fault Refusal := .next (motorStartClose s.begin)

/-- The reserved command code acts as `M_STOP` (R154). -/
def execMcmdReserved (s : State) : Host.Outcome State Fault Refusal := .next (motorStop s.begin)

end Sys2Proof.Machine
end

