-- ==== Sys2Proof/Machine/Validator.lean ====
section
/-! DEFINITION. access_code_validator (47_access_code_validator.md): one operation per class of key, and the rows of format
`CHAR`. -/

namespace Sys2Proof.Machine

open Sys2Proof.Config

/-- `KEY_DIGIT(d)` (R201): with `PIN_LEN` digits held, four in R201, a digit starts a new code (that the rule's 4 follows `PIN_LEN`:
log 7). -/
def keyDigit (d : BitVec 16) (s : State) : State :=
  let s := if s.accCount = s.cfg.pinLen then s.setAcc 0#16 0 else s
  s.setAcc (accAppend s.accValue d) (counterSucc (accCountWidth s.cfg.pinLen) s.accCount)

/-- `KEY_TERMINATOR()` (R202): `PIN_LEN` digits, four in R202, that equal `PIN` make a toggle request; the
accumulator is emptied either way (log 7). -/
def keyTerminator (s : State) : State :=
  let s :=
    if s.accCount = s.cfg.pinLen ∧ s.accValue = s.cfg.pin then s.setPending (some (evOf (toggle s.doorState))) else s
  s.setAcc 0#16 0

/-- `KEY_OTHER()` (R203): ignored without resetting. -/
def keyOther (s : State) : State := s

/-- `VALIDATE(ch)` (R200); `TERMINATOR` is '#' in R200 and in the reference configuration (log 7). -/
def validate (ch : Byte) (s : State) : State :=
  if isDigit ch then keyDigit (digitValue ch) s
  else if ch = s.cfg.terminator then keyTerminator s
  else keyOther s

/-! ## Format `CHAR` (R88): a key character by itself (log 11) -/

/-- `KEY_DIGIT`, codes 0x30 to 0x37: the digit is the code less 0x30. -/
def execKeyDigit0to7 (low : BitVec 3) (s : State) : Host.Outcome State Fault Refusal :=
  .next (keyDigit (digitValue (0b00110#5 ++ low)) s.begin)

/-- `KEY_DIGIT`, codes 0x38 and 0x39. -/
def execKeyDigit8to9 (low : BitVec 1) (s : State) : Host.Outcome State Fault Refusal :=
  .next (keyDigit (digitValue (0b0011100#7 ++ low)) s.begin)

/-- `KEY_TERMINATOR`, code 0x23. -/
def execKeyTerminator (s : State) : Host.Outcome State Fault Refusal := .next (keyTerminator s.begin)

/-- `KEY_OTHER`, every other code. -/
def execKeyOther (_ch : Byte) (s : State) : Host.Outcome State Fault Refusal := .next (keyOther s.begin)

end Sys2Proof.Machine
end

