-- ==== Sys2Proof/Machine/Door.lean ====
section
/-! DEFINITION. door_state_machine_fsm (46_door_fsm.md): one operation per event type, `DISPATCH`, and the rows of formats
`EV` and `DSTATE`. -/

namespace Sys2Proof.Machine

/-! ## One operation per event type (R181 to R190) -/

/-- `CLOSED_LIMIT_PRESSED` (R181): from every state. -/
def onClosedLimitPressed (s : State) : State := motorStop (s.setDoor dsClosed)

/-- `CLOSED_LIMIT_RELEASED` (R182): informational only. -/
def onClosedLimitReleased (s : State) : State := s

/-- `OPEN_LIMIT_PRESSED` (R183): from every state. -/
def onOpenLimitPressed (s : State) : State := motorStop (s.setDoor dsOpen)

/-- `OPEN_LIMIT_RELEASED` (R184): informational only. -/
def onOpenLimitReleased (s : State) : State := s

/-- `START_DOOR` (R185): the direction is chosen by the side the door is on. -/
def onStartDoor (s : State) : State :=
  if s.doorState < dsOpen then motorStartOpen (s.setDoor dsOpening) else motorStartClose (s.setDoor dsClosing)

/-- `STOP_DOOR` (R186): in a standing state neither the state nor the motor is touched. -/
def onStopDoor (s : State) : State :=
  if s.doorState = dsOpening then motorStop (s.setDoor dsOpeningStopped)
  else if s.doorState = dsClosing then motorStop (s.setDoor dsClosingStopped)
  else s

/-- `ACTUATE_DOOR` (R187): the decision is taken on `door_state` now; the derived event is enqueued by `MAIN_EMIT`. -/
def onActuateDoor (s : State) : State := s.setPending (some (evOf (toggle s.doorState)))

/-- `KEYPAD_NEW_KEY` (R189): the data byte goes to the validator. -/
def onKeypadNewKey (data : Byte) (s : State) : State := validate data s

/-- A reserved event type (R190): discarded. -/
def onReserved (s : State) : State := s

/-- `DISPATCH(e)` (R180): exactly one rule, by the type of the event. -/
def dispatch (e : Ev) (s : State) : State :=
  match (evType e).toNat with
  | 0x1 => onClosedLimitPressed s
  | 0x2 => onClosedLimitReleased s
  | 0x3 => onOpenLimitPressed s
  | 0x4 => onOpenLimitReleased s
  | 0x5 => onKeypadNewKey (evData e) s
  | 0x6 => onActuateDoor s
  | 0x7 => onStartDoor s
  | 0x8 => onStopDoor s
  | _ => onReserved s

/-! ## Format `EV` (R82): the dispatch of an event by itself, which takes nothing from the queue (log 10) -/

/-- `CLOSED_LIMIT_PRESSED` (R181); the data byte is not read (R82). -/
def execClosedLimitPressed (_data : Byte) (s : State) : Host.Outcome State Fault Refusal :=
  .next (onClosedLimitPressed s.begin)

/-- `CLOSED_LIMIT_RELEASED` (R182). -/
def execClosedLimitReleased (_data : Byte) (s : State) : Host.Outcome State Fault Refusal :=
  .next (onClosedLimitReleased s.begin)

/-- `OPEN_LIMIT_PRESSED` (R183). -/
def execOpenLimitPressed (_data : Byte) (s : State) : Host.Outcome State Fault Refusal :=
  .next (onOpenLimitPressed s.begin)

/-- `OPEN_LIMIT_RELEASED` (R184). -/
def execOpenLimitReleased (_data : Byte) (s : State) : Host.Outcome State Fault Refusal :=
  .next (onOpenLimitReleased s.begin)

/-- `KEYPAD_NEW_KEY` (R189): the data byte is the key's character. -/
def execKeypadNewKey (data : Byte) (s : State) : Host.Outcome State Fault Refusal := .next (onKeypadNewKey data s.begin)

/-- `ACTUATE_DOOR` (R187). -/
def execActuateDoor (_data : Byte) (s : State) : Host.Outcome State Fault Refusal := .next (onActuateDoor s.begin)

/-- `START_DOOR` (R185). -/
def execStartDoor (_data : Byte) (s : State) : Host.Outcome State Fault Refusal := .next (onStartDoor s.begin)

/-- `STOP_DOOR` (R186). -/
def execStopDoor (_data : Byte) (s : State) : Host.Outcome State Fault Refusal := .next (onStopDoor s.begin)

/-- Reserved type 0x0 (R190). -/
def execEvReserved0 (_data : Byte) (s : State) : Host.Outcome State Fault Refusal := .next (onReserved s.begin)

/-- Reserved type 0x9 (R190). -/
def execEvReserved9 (_data : Byte) (s : State) : Host.Outcome State Fault Refusal := .next (onReserved s.begin)

/-- Reserved types 0xA and 0xB (R190). -/
def execEvReservedAB (_low : BitVec 1) (_data : Byte) (s : State) : Host.Outcome State Fault Refusal :=
  .next (onReserved s.begin)

/-- Reserved types 0xC to 0xF (R190). -/
def execEvReservedCF (_low : BitVec 2) (_data : Byte) (s : State) : Host.Outcome State Fault Refusal :=
  .next (onReserved s.begin)

/-! ## Format `DSTATE` (R86, R87): a door-state code by itself

A code is data: the core changes no register for it, and what a reader of the status byte makes of it is among the step's
outputs. DESIGN CHOICE, log 14. -/

/-- The reading of a code by itself. -/
def doorCodeStep (c : DoorCode) (s : State) : State := s.begin.setDoorView (doorView c)

/-- `DS_CLOSED` (R86). -/
def execDsClosed (s : State) : Host.Outcome State Fault Refusal := .next (doorCodeStep dsClosed s)

/-- `DS_CLOSING_STOPPED` (R86). -/
def execDsClosingStopped (s : State) : Host.Outcome State Fault Refusal := .next (doorCodeStep dsClosingStopped s)

/-- `DS_OPEN` (R86). -/
def execDsOpen (s : State) : Host.Outcome State Fault Refusal := .next (doorCodeStep dsOpen s)

/-- `DS_OPENING_STOPPED` (R86). -/
def execDsOpeningStopped (s : State) : Host.Outcome State Fault Refusal := .next (doorCodeStep dsOpeningStopped s)

/-- `DS_OPENING` (R86). -/
def execDsOpening (s : State) : Host.Outcome State Fault Refusal := .next (doorCodeStep dsOpening s)

/-- `DS_CLOSING` (R86). -/
def execDsClosing (s : State) : Host.Outcome State Fault Refusal := .next (doorCodeStep dsClosing s)

/-- `DS_INVALID` (R86, R87): a reader treats the door as unknown. -/
def execDsInvalid (s : State) : Host.Outcome State Fault Refusal := .next (doorCodeStep dsInvalid s)

/-- A reserved code (R87): a reader treats the door as unknown. -/
def execDsReserved (code : DoorCode) (s : State) : Host.Outcome State Fault Refusal := .next (doorCodeStep code s)

end Sys2Proof.Machine
end

