-- ==== Sys2Proof/Machine/Keypad.lean ====
section
/-! DEFINITION. keypad_matrix_scanner (43_keypad_scanner.md): the four rules of the sequencer and the rows of formats
`KPSTATE` and `KEY`. -/

namespace Sys2Proof.Machine

/-! ## One rule per state (R132 to R135) -/

/-- `KP_IDLE(sense)` (R132). -/
def kpIdleRule (sense : Lines) (s : State) : State :=
  if kpPresent sense then (s.setKpCount s.cfg.nKp).setKpState .wait else s

/-- `KP_WAIT(sense)` (R133): the samples are looked at only on the tick where `kp_count` reaches 0. -/
def kpWaitRule (sense : Lines) (s : State) : State :=
  let s := s.setKpCount (counterPred (kpCountWidth s.cfg.nKp) s.kpCount)
  if s.kpCount = 0 then (if kpPresent sense then s.setKpState .scan else s.setKpState .idle) else s

/-- The cause of a scan in which a side has no line low (R134, R232). -/
def raiseUnresolved (sense scan : Lines) (s : State) : State :=
  if sense = 0b1111#4 ∨ scan = 0b1111#4 then s.raise (.scanUnresolved sense scan) else s

/-- `KP_SCAN(sense, scan)` (R134): `sense` is read in role `NORMAL`, `scan` in role `SWAPPED`, which ends with the step. -/
def kpScanRule (sense scan : Lines) (s : State) : State :=
  let layout := s.cfg.keymap
  let column := lowIdx sense
  let s := s.setKpRole .swapped
  let row := lowIdx scan
  let s := s.setKpRole .normal
  let s := raiseUnresolved sense scan s
  let ch := kpResolve layout column row
  (s.enqueue (mkEv tyKeypadNewKey ch)).setKpState .release

/-- `KP_RELEASE(sense)` (R135). -/
def kpReleaseRule (sense : Lines) (s : State) : State :=
  if kpPresent sense then s else s.setKpState .idle

/-- The one rule that a tick applies, by the `kp_state` with which the step began (48_agents_and_steps.md R211). -/
def kpRule (k : KpState) (sense scan : Lines) (s : State) : State :=
  match k with
  | .idle => kpIdleRule sense s
  | .wait => kpWaitRule sense s
  | .scan => kpScanRule sense scan s
  | .release => kpReleaseRule sense s

/-! ## Format `KPSTATE` (R94): a rule by itself

The code is the value of `kp_state` for which its rule applies: the rule runs when `kp_state` has that value, on whatever
samples the environment supplies (log 9), and otherwise does not apply. DESIGN CHOICE, log 17. -/

/-- The rule of state `k` by itself. -/
def kpRuleWhen (k : KpState) (s : State) : State :=
  if s.kpState = k then kpRule k s.input.sense s.input.scan s.takeInput else s.takeInput

/-- `KP_IDLE` (R132). -/
def execKpIdle (s : State) : Host.Outcome State Fault Refusal := .next (kpRuleWhen .idle s.begin)

/-- `KP_WAIT` (R133). -/
def execKpWait (s : State) : Host.Outcome State Fault Refusal := .next (kpRuleWhen .wait s.begin)

/-- `KP_SCAN` (R134). -/
def execKpScan (s : State) : Host.Outcome State Fault Refusal := .next (kpRuleWhen .scan s.begin)

/-- `KP_RELEASE` (R135). -/
def execKpRelease (s : State) : Host.Outcome State Fault Refusal := .next (kpRuleWhen .release s.begin)

/-! ## Format `KEY` (R89): the key layout

`MemRead(KEYMAP, k, 1)` (R136) has no side effect (20_memory.md R68); the character is among the step's outputs (log 12). -/

/-- The read of key index `k` by itself. -/
def keymapStep (k : BitVec 4) (s : State) : State := s.begin.setKeyChar (keymapRead s.cfg.keymap k)

/-- `KEYMAP[0]` (R136). -/
def execKeymap0 (s : State) : Host.Outcome State Fault Refusal := .next (keymapStep 0 s)

/-- `KEYMAP[1]` (R136). -/
def execKeymap1 (s : State) : Host.Outcome State Fault Refusal := .next (keymapStep 1 s)

/-- `KEYMAP[2]` (R136). -/
def execKeymap2 (s : State) : Host.Outcome State Fault Refusal := .next (keymapStep 2 s)

/-- `KEYMAP[3]` (R136). -/
def execKeymap3 (s : State) : Host.Outcome State Fault Refusal := .next (keymapStep 3 s)

/-- `KEYMAP[4]` (R136). -/
def execKeymap4 (s : State) : Host.Outcome State Fault Refusal := .next (keymapStep 4 s)

/-- `KEYMAP[5]` (R136). -/
def execKeymap5 (s : State) : Host.Outcome State Fault Refusal := .next (keymapStep 5 s)

/-- `KEYMAP[6]` (R136). -/
def execKeymap6 (s : State) : Host.Outcome State Fault Refusal := .next (keymapStep 6 s)

/-- `KEYMAP[7]` (R136). -/
def execKeymap7 (s : State) : Host.Outcome State Fault Refusal := .next (keymapStep 7 s)

/-- `KEYMAP[8]` (R136). -/
def execKeymap8 (s : State) : Host.Outcome State Fault Refusal := .next (keymapStep 8 s)

/-- `KEYMAP[9]` (R136). -/
def execKeymap9 (s : State) : Host.Outcome State Fault Refusal := .next (keymapStep 9 s)

/-- `KEYMAP[10]` (R136). -/
def execKeymap10 (s : State) : Host.Outcome State Fault Refusal := .next (keymapStep 10 s)

/-- `KEYMAP[11]` (R136). -/
def execKeymap11 (s : State) : Host.Outcome State Fault Refusal := .next (keymapStep 11 s)

/-- `KEYMAP[12]` (R136). -/
def execKeymap12 (s : State) : Host.Outcome State Fault Refusal := .next (keymapStep 12 s)

/-- `KEYMAP[13]` (R136). -/
def execKeymap13 (s : State) : Host.Outcome State Fault Refusal := .next (keymapStep 13 s)

/-- `KEYMAP[14]` (R136). -/
def execKeymap14 (s : State) : Host.Outcome State Fault Refusal := .next (keymapStep 14 s)

/-- `KEYMAP[15]` (R136). -/
def execKeymap15 (s : State) : Host.Outcome State Fault Refusal := .next (keymapStep 15 s)

end Sys2Proof.Machine
end

