-- ==== Sys2Proof/Machine/Queue.lean ====
section
/-! DEFINITION. event_queue_fifo (41_event_queue.md): the two rows of format `QOP`. -/

namespace Sys2Proof.Machine

/-- `Q_ENQ(e)` taken by itself (R111): the answer is among the step's outputs (log 19). -/
def execQEnq (e : Ev) (s : State) : Host.Outcome State Fault Refusal :=
  let r := s.begin.qEnq e
  .next (r.2.setQResult r.1)

/-- `Q_DEQ()` taken by itself (R112); bits 11:0 of the word are ignored (R95). -/
def execQDeq (_ignored : BitVec 12) (s : State) : Host.Outcome State Fault Refusal :=
  let r := s.begin.qDeq
  .next (r.2.setQResult r.1)

end Sys2Proof.Machine
end

