-- ==== Sys2Proof/Machine/Agents.lean ====
section
/-! DEFINITION. The steps of the agents (48_agents_and_steps.md): `TICK`, `MAIN_DISPATCH`, `MAIN_EMIT` and `RESET`, and how the
next stimulus is found. -/

namespace Sys2Proof.Machine

open Sys2Proof.Config

/-! ## The steps -/

/-- The `TICK` step (R211): the two limit switches, closed first, then the one keypad rule of the `kp_state` with which the
step began. -/
def tick (cl ol : Level) (sense scan : Lines) (s : State) : State :=
  kpRule s.kpState sense scan (dbSample .ol ol (dbSample .cl cl s))

/-- `TICK` (R211). -/
def execTick (cl ol : Level) (sense scan : Lines) (s : State) : Host.Outcome State Fault Refusal :=
  .next (tick cl ol sense scan s.begin)

/-- The `MAIN_DISPATCH` step (R214): the oldest event is dequeued and dispatched; on an empty queue there is nothing to
dispatch. -/
def mainDispatch (s : State) : State :=
  match s.qDeq with
  | (.event e, s') => dispatch e s'
  | (_, s') => s'

/-- `MAIN_DISPATCH` (R214): a step only when it is enabled (R210, R96). -/
def execMainDispatch (s : State) : Host.Outcome State Fault Refusal :=
  if s.dispatchEnabled then .next (mainDispatch s.begin) else .refused .mainDispatchNotEnabled

/-- The `MAIN_EMIT` step for a pending event (R215): the answer of the enqueue is not looked at. -/
def mainEmit (e : Ev) (s : State) : State := (s.enqueue e).setPending none

/-- `MAIN_EMIT` (R215): a step only when it is enabled (R210, R96). -/
def execMainEmit (s : State) : Host.Outcome State Fault Refusal :=
  match s.mPending with
  | some e => .next (mainEmit e s.begin)
  | none => .refused .mainEmitNotEnabled

/-- `RESET` (R216, R260). -/
def execReset (s : State) : Host.Outcome State Fault Refusal := .next s.begin.resetRegisters

/-! ## The next stimulus -/

/-- The first of the words lined up is taken (log 2). -/
def State.consume (s : State) : State := { s with stim := s.stim.tail }

/-- The open schedule moves on by one (log 3). -/
def State.advance (s : State) : State := { s with schedIndex := s.schedIndex + 1 }

/-- The step that a pick of the open schedule stands for (R210, R218): the main loop takes whichever of its steps is enabled,
and none where it sleeps (R217). -/
def choiceInstr (c : Choice) (s : State) : Option Instr :=
  match c with
  | .tick cl ol sense scan => some (.tick cl ol sense scan)
  | .bus kind data => some (busInstr kind data)
  | .main => if s.emitEnabled then some .mainEmit else if s.dispatchEnabled then some .mainDispatch else none
  | .reset => some .reset

/-- The operation the open schedule gives next, or none where the main loop sleeps (log 3). -/
def State.scheduled (s : State) : Option Instr := choiceInstr (sched s.schedIndex) s

/-- A word is lined up as the very next stimulus (log 2). -/
def State.present (w : Stim) (s : State) : State := { s with stim := w :: s.stim }

end Sys2Proof.Machine
end

