-- ==== Sys2Proof/Machine/Dispatch.lean ====
section
/-! DEFINITION. One arm per row of spec/opcode_table.json, each one direct call of the row's meaning. -/

namespace Sys2Proof.Machine

def exec (i : Instr) (s : State) : Host.Outcome State Fault Refusal :=
  match i with
  | .tick cl ol sense scan => Sys2Proof.Machine.execTick cl ol sense scan s
  | .dbSampleCl l => Sys2Proof.Machine.execDbSampleCl l s
  | .dbSampleOl l => Sys2Proof.Machine.execDbSampleOl l s
  | .busAw d => Sys2Proof.Machine.execBusAw d s
  | .busRx d => Sys2Proof.Machine.execBusRx d s
  | .busAr d => Sys2Proof.Machine.execBusAr d s
  | .busRdnext d => Sys2Proof.Machine.execBusRdnext d s
  | .busStop d => Sys2Proof.Machine.execBusStop d s
  | .busErr d => Sys2Proof.Machine.execBusErr d s
  | .busRsvd k d => Sys2Proof.Machine.execBusRsvd k d s
  | .mainDispatch => Sys2Proof.Machine.execMainDispatch s
  | .mainEmit => Sys2Proof.Machine.execMainEmit s
  | .reset => Sys2Proof.Machine.execReset s
  | .closedLimitPressed d => Sys2Proof.Machine.execClosedLimitPressed d s
  | .closedLimitReleased d => Sys2Proof.Machine.execClosedLimitReleased d s
  | .openLimitPressed d => Sys2Proof.Machine.execOpenLimitPressed d s
  | .openLimitReleased d => Sys2Proof.Machine.execOpenLimitReleased d s
  | .keypadNewKey d => Sys2Proof.Machine.execKeypadNewKey d s
  | .actuateDoor d => Sys2Proof.Machine.execActuateDoor d s
  | .startDoor d => Sys2Proof.Machine.execStartDoor d s
  | .stopDoor d => Sys2Proof.Machine.execStopDoor d s
  | .evReserved0 d => Sys2Proof.Machine.execEvReserved0 d s
  | .evReserved9 d => Sys2Proof.Machine.execEvReserved9 d s
  | .evReservedAB k d => Sys2Proof.Machine.execEvReservedAB k d s
  | .evReservedCF k d => Sys2Proof.Machine.execEvReservedCF k d s
  | .keyDigit0to7 k => Sys2Proof.Machine.execKeyDigit0to7 k s
  | .keyDigit8to9 k => Sys2Proof.Machine.execKeyDigit8to9 k s
  | .keyTerminator => Sys2Proof.Machine.execKeyTerminator s
  | .keyOther ch => Sys2Proof.Machine.execKeyOther ch s
  | .keymap0 => Sys2Proof.Machine.execKeymap0 s
  | .keymap1 => Sys2Proof.Machine.execKeymap1 s
  | .keymap2 => Sys2Proof.Machine.execKeymap2 s
  | .keymap3 => Sys2Proof.Machine.execKeymap3 s
  | .keymap4 => Sys2Proof.Machine.execKeymap4 s
  | .keymap5 => Sys2Proof.Machine.execKeymap5 s
  | .keymap6 => Sys2Proof.Machine.execKeymap6 s
  | .keymap7 => Sys2Proof.Machine.execKeymap7 s
  | .keymap8 => Sys2Proof.Machine.execKeymap8 s
  | .keymap9 => Sys2Proof.Machine.execKeymap9 s
  | .keymap10 => Sys2Proof.Machine.execKeymap10 s
  | .keymap11 => Sys2Proof.Machine.execKeymap11 s
  | .keymap12 => Sys2Proof.Machine.execKeymap12 s
  | .keymap13 => Sys2Proof.Machine.execKeymap13 s
  | .keymap14 => Sys2Proof.Machine.execKeymap14 s
  | .keymap15 => Sys2Proof.Machine.execKeymap15 s
  | .csrRdStatus x => Sys2Proof.Machine.execCsrRdStatus x s
  | .csrWrActuate x => Sys2Proof.Machine.execCsrWrActuate x s
  | .csrWrNop x => Sys2Proof.Machine.execCsrWrNop x s
  | .dsClosed => Sys2Proof.Machine.execDsClosed s
  | .dsClosingStopped => Sys2Proof.Machine.execDsClosingStopped s
  | .dsOpen => Sys2Proof.Machine.execDsOpen s
  | .dsOpeningStopped => Sys2Proof.Machine.execDsOpeningStopped s
  | .dsOpening => Sys2Proof.Machine.execDsOpening s
  | .dsClosing => Sys2Proof.Machine.execDsClosing s
  | .dsInvalid => Sys2Proof.Machine.execDsInvalid s
  | .dsReserved c => Sys2Proof.Machine.execDsReserved c s
  | .kindAw => Sys2Proof.Machine.execKindAw s
  | .kindRx => Sys2Proof.Machine.execKindRx s
  | .kindAr => Sys2Proof.Machine.execKindAr s
  | .kindRdnext => Sys2Proof.Machine.execKindRdnext s
  | .kindStop => Sys2Proof.Machine.execKindStop s
  | .kindErr => Sys2Proof.Machine.execKindErr s
  | .kindRsvd k => Sys2Proof.Machine.execKindRsvd k s
  | .mStop => Sys2Proof.Machine.execMStop s
  | .mStartOpen => Sys2Proof.Machine.execMStartOpen s
  | .mStartClose => Sys2Proof.Machine.execMStartClose s
  | .mcmdReserved => Sys2Proof.Machine.execMcmdReserved s
  | .kpIdle => Sys2Proof.Machine.execKpIdle s
  | .kpWait => Sys2Proof.Machine.execKpWait s
  | .kpScan => Sys2Proof.Machine.execKpScan s
  | .kpRelease => Sys2Proof.Machine.execKpRelease s
  | .qEnq e => Sys2Proof.Machine.execQEnq e s
  | .qDeq x => Sys2Proof.Machine.execQDeq x s

end Sys2Proof.Machine
end

