-- ==== Sys2Proof/Machine/Step.lean ====
section
/-! DEFINITION. One step of the machine: the word lined up next, or where none is, a pick of the open schedule. -/

namespace Sys2Proof.Machine

/-- One atomic step (00_scope.md R6; 48_agents_and_steps.md R210). The words lined up are the stimuli of a trace (R90) or
operations of the other formats; a word that its format has no row for is no stimulus and is refused (R90, R99; log 5). With no word
lined up the step is one of the open `sched` (R218): an operation whose step is enabled, or a main loop that sleeps on (R217).
DESIGN CHOICE (form), log 2, log 3. -/
def step (s : State) : Host.Outcome State Fault Refusal :=
  match s.stim with
  | w :: _ =>
    match decode w.fmt w.bits with
    | some i => exec i s.consume
    | none => .refused .malformedWord
  | [] =>
    match s.scheduled with
    | some i => exec i s.advance
    | none => .next s.advance.begin

/-- `s` with a table word lined up as the next stimulus, so that the very next step runs it. -/
def State.withFetchWord (s : State) (nbits w : Nat) : State := s.present (tableStim nbits w)

end Sys2Proof.Machine
end

