-- ==== Sys2Proof/Machine/Ring.lean ====
section
/-! DEFINITION. The queue as a ring with indices (41_event_queue.md R116; 10_state.md R21): one implementation of the sequence
`q`, no state of the core (log 25). -/

namespace Sys2Proof.Machine

/-- `q_buf`, `q_head`, `q_tail`, `q_count` (R21). -/
structure Ring where
  buf : List Ev
  head : Nat
  tail : Nat
  count : Nat
deriving DecidableEq, Repr

/-- The wrap of an index of a ring of `cap` slots: a compare and reset, not a dropped carry (R116). -/
def ringNext (cap i : Nat) : Nat := if i + 1 = cap then 0 else i + 1

/-- `Q_ENQ` of a ring (R116). -/
def Ring.enq (cap : Nat) (e : Ev) (r : Ring) : QResult × Ring :=
  if r.count = cap then (.full, r)
  else (.success, { r with buf := r.buf.set r.tail e, tail := ringNext cap r.tail, count := r.count + 1 })

/-- `Q_DEQ` of a ring (R116). -/
def Ring.deq (cap : Nat) (r : Ring) : QResult × Ring :=
  if r.count = 0 then (.empty, r)
  else (.event (r.buf.getD r.head 0), { r with head := ringNext cap r.head, count := r.count - 1 })

/-- The sequence a ring stands for: `e_k = q_buf[(q_head + k) mod Q_CAP]`, `n = q_count` (R21). -/
def Ring.toQueue (cap : Nat) (r : Ring) : List Ev :=
  (List.range r.count).map fun k => r.buf.getD ((r.head + k) % cap) 0

/-- A ring of `cap` slots: indices in range, and the write index where the live range ends (R21, R116). -/
abbrev Ring.wf (cap : Nat) (r : Ring) : Prop :=
  0 < cap ∧ r.buf.length = cap ∧ r.head < cap ∧ r.tail < cap ∧ r.count ≤ cap ∧ r.tail = (r.head + r.count) % cap

/-- The ring at reset (R40): both indices and the count 0, the slots at any content. -/
def Ring.atReset (buf : List Ev) : Ring := { buf := buf, head := 0, tail := 0, count := 0 }

end Sys2Proof.Machine
end

