-- ==== Sys2Proof/Machine/Trace.lean ====
section
/-! DEFINITION. Sequences of stimuli: the pseudo-stimuli of the trace notation and their expansions (30_encoding.md R97), and
running a list of operations one after another. None of it is hardware (R90, R96). -/

namespace Sys2Proof.Machine

/-- The operations one after another, stopping at the first that is refused. -/
def execAll (is : List Instr) (s : State) : Host.Outcome State Fault Refusal :=
  match is with
  | [] => .next s
  | i :: rest =>
    match exec i s with
    | .next s' => execAll rest s'
    | .fault r => .fault r
    | .refused r => .refused r

/-- `n` steps of the machine, stopping at the first that is refused. -/
def steps (n : Nat) (s : State) : Host.Outcome State Fault Refusal :=
  match n with
  | 0 => .next s
  | n + 1 =>
    match step s with
    | .next s' => steps n s'
    | .fault r => .fault r
    | .refused r => .refused r

/-- `TICKS n cl=a ol=b sense=s` (R97); `scan` is written 0b1111 where it is not given (R90). -/
def ticks (n : Nat) (cl ol : Level) (sense : Lines) : List Instr := List.replicate n (.tick cl ol sense 0b1111)

/-- `IDLE n` (R97). -/
def idle (n : Nat) : List Instr := ticks n true true 0b1111

/-- `WRITE b` (R97). -/
def write (b : Byte) : List Instr := [.busAw 0, .busRx 0x00, .busRx b, .busStop 0]

/-- `ACTUATE` (R97). -/
def actuate : List Instr := write 0x80

/-- `READ` (R97): its result is the `bus_tx` of the first step. -/
def read : List Instr := [.busAr 0, .busStop 0]

/-- The four lines with only line `k` reading low (R97). -/
def lineLow (k : BitVec 2) : Lines := 0b1111#4 ^^^ (1#4 <<< k.toNat)

/-- `KEY r c` with the limit pins at `cl`, `ol` (R97): the shortest press of the key in row `r`, column `c` (R138). -/
def keyPress (cl ol : Level) (r c : BitVec 2) : List Instr :=
  ticks 5 cl ol (lineLow c) ++ [.tick cl ol (lineLow c) (lineLow r), .tick cl ol 0b1111 0b1111]

/-- The next step of a `DRAIN` (R97): `EMIT` where an event is pending, else `MAIN` where the queue is not empty. -/
def drainInstr (s : State) : Option Instr :=
  if s.emitEnabled then some .mainEmit else if s.dispatchEnabled then some .mainDispatch else none

/-- `DRAIN` with at most `n` steps (R97): the state where it stops, and the number of steps left over. -/
def drain (n : Nat) (s : State) : State × Nat :=
  match n with
  | 0 => (s, 0)
  | n + 1 =>
    match drainInstr s with
    | none => (s, n + 1)
    | some i =>
      match exec i s with
      | .next s' => drain n s'
      | _ => (s, n + 1)

/-- A run of queue operations (R115), `some e` an enqueue of `e` and `none` a dequeue: the events dequeued, the events whose
enqueue answered success, both oldest first, and the state after it. -/
def queueRun (ops : List (Option Ev)) (s : State) : List Ev × List Ev × State :=
  match ops with
  | [] => ([], [], s)
  | some e :: rest =>
    match exec (.qEnq e) s with
    | .next s' =>
      let r := queueRun rest s'
      (r.1, (if s'.out.qResult = some .success then e :: r.2.1 else r.2.1), r.2.2)
    | _ => ([], [], s)
  | none :: rest =>
    match exec (.qDeq 0) s with
    | .next s' =>
      let r := queueRun rest s'
      match s'.out.qResult with
      | some (.event e) => (e :: r.1, r.2.1, r.2.2)
      | _ => r
    | _ => ([], [], s)

/-- The words of a list of operations, lined up as the next stimuli (R90). -/
def State.lineUp (is : List Instr) (s : State) : State := { s with stim := is.map encode }

end Sys2Proof.Machine
end

