-- ==== Sys2Proof/Safety.lean ====
section
/-! DEFINITION. What the spec promises of every state of a run: the invariants of 10_state.md R24, R25, R26, R28, R33, of
41_event_queue.md R115, 46_door_fsm.md R194 and R195, and of 30_encoding.md R84. -/

namespace Sys2Proof.Machine

/-- R24: a process that is not armed times nothing; an armed one times the level it does not report. -/
abbrev DebounceOk (nLimit : Nat) (d : Debounce) : Prop :=
  (d.armed = false → d.countdown = 0 ∧ d.pending = d.confirmed) ∧
  (d.armed = true → d.pending = !d.confirmed ∧ 1 ≤ d.countdown ∧ d.countdown ≤ nLimit - 1)

/-- R25, R133: the keypad countdown runs in `KP_WAIT` only, from at most `N_KP` and at least 1; R26: the role is `NORMAL`
between steps. -/
abbrev KeypadOk (s : State) : Prop :=
  (s.kpState = .wait → 1 ≤ s.kpCount ∧ s.kpCount ≤ s.cfg.nKp) ∧
  (s.kpState ≠ .wait → s.kpCount = 0) ∧ s.kpRole = .normal

/-- R28, R155: at most one channel is on. -/
abbrev MotorExclusive (s : State) : Prop := s.dutyOpen = 0#8 ∨ s.dutyClose = 0#8

/-- R155: the pairs of duties that can be observed. -/
abbrev MotorPair (s : State) : Prop :=
  (s.dutyOpen = 0#8 ∧ s.dutyClose = 0#8) ∨ (s.dutyOpen = s.cfg.dutyFull ∧ s.dutyClose = 0#8) ∨
  (s.dutyOpen = 0#8 ∧ s.dutyClose = s.cfg.dutyFull)

/-- R194: `door_state` holds one of the six codes 0x00 to 0x05. -/
abbrev DoorLegal (s : State) : Prop := s.doorState ≤ 0x05#7

/-- R33: `acc_count` is at most `PIN_LEN`, which is 4 there, and `acc_value < 10^acc_count`. A core with longer codes (log 7) has
this while the 16-bit value holds them, that is for up to four digits. -/
abbrev AccOk (s : State) : Prop :=
  s.accCount ≤ s.cfg.pinLen ∧ (s.accCount ≤ 4 → s.accValue.toNat < 10 ^ s.accCount)

/-- R23, R25, R32, R125: each counter fits its width, 4, 3 and 3 bits in the core of R5, or the bits of the larger number it is
configured to hold. -/
abbrev CountersFit (s : State) : Prop :=
  s.dbCl.countdown < 2 ^ countdownWidth s.cfg.nLimit ∧ s.dbOl.countdown < 2 ^ countdownWidth s.cfg.nLimit ∧
  s.kpCount < 2 ^ kpCountWidth s.cfg.nKp ∧ s.accCount < 2 ^ accCountWidth s.cfg.pinLen

/-- R34: nothing is pending, or a `START_DOOR` or `STOP_DOOR`. -/
abbrev PendingOk (s : State) : Prop := s.mPending = none ∨ s.mPending = some 0x700#12 ∨ s.mPending = some 0x800#12

/-- What holds after reset and is kept by every step, of whatever format its word is. -/
structure Inv (s : State) : Prop where
  cfg : s.cfg.wf
  queue : Memory.wf s
  closedLimit : DebounceOk s.cfg.nLimit s.dbCl
  openLimit : DebounceOk s.cfg.nLimit s.dbOl
  keypad : KeypadOk s
  motor : MotorPair s
  door : DoorLegal s
  acc : AccOk s
  counters : CountersFit s
  pending : PendingOk s

/-- R195: state and motor agree. -/
abbrev DoorMotorAgree (s : State) : Prop :=
  (s.doorState = 0x04#7 ↔ s.dutyOpen = s.cfg.dutyFull ∧ s.dutyClose = 0#8) ∧
  (s.doorState = 0x05#7 ↔ s.dutyOpen = 0#8 ∧ s.dutyClose = s.cfg.dutyFull) ∧
  (s.doorState ≤ 0x03#7 → s.dutyOpen = 0#8 ∧ s.dutyClose = 0#8)

/-- R83, R84, R99: an event that the core's own producers enqueue has one of the eight types, and a key event carries one of
the sixteen characters of the layout `m`. -/
abbrev EvProduced (m : Vector Byte 16) (e : Ev) : Prop :=
  1#4 ≤ evType e ∧ evType e ≤ 8#4 ∧ (evType e = 5#4 → evData e ∈ m.toList)

/-- No word lined up is a motor command or a queue operation taken by itself: in the hardware only the door FSM commands the
motor (R150) and only the agents' own steps use the queue (R110; D3: there is no port for another producer). -/
abbrev AgentWords (s : State) : Prop := ∀ w ∈ s.stim, w.fmt ≠ .mcmd ∧ w.fmt ≠ .qop

/-- What holds after reset and is kept by every step of the hardware: besides `Inv`, door and motor agree and the queue holds
only events of the core's own producers. A motor command or an enqueue taken by itself (formats `MCMD`, `QOP`) is outside it
(log 16, log 19). -/
structure CoreInv (s : State) : Prop where
  inv : Inv s
  agree : DoorMotorAgree s
  events : ∀ e ∈ s.q, EvProduced s.cfg.keymap e
  words : AgentWords s

/-- R221, weak fairness to the main loop, of an order of picks: the main loop has its turn again after every position. At its
turn it takes whichever of its steps is enabled, so a step of it that stays enabled is eventually taken. -/
abbrev WeaklyFair (order : Nat → Config.Choice) : Prop := ∀ n, ∃ m, n ≤ m ∧ order m = .main

end Sys2Proof.Machine
end

