-- ==== Sys2Proof/Certificates/Slice0/Obligations.lean ====
section
/-! DEFINITION. The statements about the model that the numbered rules of spec/ make. A next state is written out field by
field; what is not written is unchanged. -/

open Sys2Proof Sys2Proof.Machine

namespace Sys2Proof.Spec

/-- R111, R22 in the statements' own words: `e` becomes the newest event, or on a full queue is lost, recorded as the cause
`QueueFull`, and counted up to 0xFFFF. -/
def enqueued (e : Ev) (s : State) : State :=
  if s.q.length = s.cfg.qCap then
    { s with
      dropCount := BitVec.ofNat 16 (min (s.dropCount.toNat + 1) 65535)
      out := { s.out with causes := s.out.causes ++ [.queueFull e] } }
  else { s with q := s.q ++ [e] }

/-- R125, D25 in the statements' own words: the largest value of a counter that has `least` bits, or the bits of a larger number
`n` that it holds. -/
def counterTop (least n : Nat) : Nat := 2 ^ max least (n.log2 + 1) - 1

/-- R121 in the statements' own words: one process after the sample `l`, with the debounce length `n`, and whether the sample
confirms a change. The sample counts, so a countdown of one, or a length of one, confirms.
One of 0, which no run has, counts to its top, in the width of R125 (log 23). -/
def sampled (n : Nat) (l : Level) (d : Debounce) : Debounce × Bool :=
  let left := if d.armed then d.countdown else n
  let timed := if d.armed then d.pending else l
  if l = d.confirmed then
    ({ pending := d.confirmed, confirmed := d.confirmed, countdown := 0, armed := false }, false)
  else if left = 1 then ({ pending := timed, confirmed := l, countdown := 0, armed := false }, true)
  else
    ({ pending := timed, confirmed := d.confirmed, armed := true
       countdown := if left = 0 then counterTop 4 n else left - 1 }, false)

/-- R121, R122 for the closed-limit switch: 0x100 is its press, 0x200 its release. -/
def sampledCl (l : Level) (s : State) : State :=
  let r := sampled s.cfg.nLimit l s.dbCl
  let t : State := { s with dbCl := r.1 }
  if r.2 then enqueued (if l then 0x200#12 else 0x100#12) t else t

/-- R121, R122 for the open-limit switch: 0x300 is its press, 0x400 its release. -/
def sampledOl (l : Level) (s : State) : State :=
  let r := sampled s.cfg.nLimit l s.dbOl
  let t : State := { s with dbOl := r.1 }
  if r.2 then enqueued (if l then 0x400#12 else 0x300#12) t else t

/-- The operation that feeds one sample to one debounce process. -/
def sampleOf (i : Switch) (l : Level) : Instr :=
  match i with
  | .cl => .dbSampleCl l
  | .ol => .dbSampleOl l

/-- R122 in the statements' own words: the event of a confirmed change to a level. -/
def edgeOf (i : Switch) (l : Level) : Ev :=
  match i, l with
  | .cl, false => 0x100#12
  | .cl, true => 0x200#12
  | .ol, false => 0x300#12
  | .ol, true => 0x400#12

/-- R132 to R135 in the statements' own words: what the keypad rule of `k` does with the samples. A count of 0 in `KP_WAIT`, which
no run has, counts to its top (log 23). -/
def keypadTicked (k : KpState) (sense scan : Lines) (s : State) : State :=
  match k with
  | .idle => if sense = 0b1111#4 then s else { s with kpCount := s.cfg.nKp, kpState := .wait }
  | .wait =>
    if s.kpCount = 1 then { s with kpCount := 0, kpState := if sense = 0b1111#4 then .idle else .scan }
    else { s with kpCount := if s.kpCount = 0 then counterTop 3 s.cfg.nKp else s.kpCount - 1 }
  | .scan =>
    let cause : List Cause := if sense = 0b1111#4 ∨ scan = 0b1111#4 then [.scanUnresolved sense scan] else []
    enqueued (0x5#4 ++ kpResolve s.cfg.keymap (lowIdx sense) (lowIdx scan))
      { s with kpRole := .normal, kpState := .release, out := { s.out with causes := s.out.causes ++ cause } }
  | .release => if sense = 0b1111#4 then { s with kpState := .idle } else s

/-- The state with no output recorded, in which every step begins. -/
abbrev quiet (s : State) : State := { s with out := {} }

/-- R188 in the statements' own words: the derived event of a toggle request. -/
abbrev toggled (door : DoorCode) : Ev := if 4 ≤ door.toNat then 0x800#12 else 0x700#12

/-- The operations of the `BUS` agent, as trace words. -/
abbrev isBus (i : Instr) : Prop :=
  (∃ d, i = .busAw d ∨ i = .busRx d ∨ i = .busAr d ∨ i = .busRdnext d ∨ i = .busStop d ∨ i = .busErr d) ∨
  ∃ k d, i = .busRsvd k d

/-- The four motor commands. -/
abbrev isMotor (i : Instr) : Prop := i = .mStop ∨ i = .mStartOpen ∨ i = .mStartClose ∨ i = .mcmdReserved

end Sys2Proof.Spec

open Sys2Proof.Spec

/-! ## Encoding -/

/-- Decoding the word of a well-formed operation, in the tag that the encoder gives it, gives the operation back: no bit of an
encoding is dropped. The tag that says in which format a word is read is the model's (DESIGN CHOICE, log 1). -/
def Obligations.EncodedInstructionDecodesToItself : Prop :=
  ∀ i : Instr, i.wf = true → decode (encode i).fmt (encode i).bits = some i

/-- Within one tag the decoder is the opcode table: a word decodes to a well-formed operation whose row takes it, and a word that a
row takes decodes to an operation of that row, so no two rows of one tag take the same word. The tags are the model's (DESIGN
CHOICE, log 1): in section 10 a `TICK` word is also the word of `DB_SAMPLE[CL]` and `DB_SAMPLE[OL]`, and format `CSR` has a read
and a write view, which the model gives tags of their own. That a word with a bit above its format's width is no word of a row is
the model's reading (DEDUCED, log 5). -/
def Obligations.DecoderAgreesWithOpcodeTable : Prop :=
  (∀ (f : Format) (w : BitVec 16) (i : Instr), decode f w = some i →
    i.wf = true ∧ selects f w (rowOf i) = true) ∧
  (∀ (f : Format) (w : BitVec 16) (n : Nat), selects f w n = true → ∃ i, decode f w = some i ∧ rowOf i = n)

/-- R90: format `TRACE` bit by bit, the reserved agents, and the operands that are ignored. That a word is refused whose operand
bits listed as zero are not zero is the model's reading of R90 (DEDUCED, log 5). -/
def Obligations.TraceWordFormat : Prop :=
  (∀ w : BitVec 16,
    let agent := w.toNat / 8192
    let operand := w.toNat % 8192
    let data := BitVec.ofNat 8 operand
    decode .trace w =
      if agent = 0 then
        if operand < 1024 then
          some (.tick (decide (operand / 512 % 2 = 1)) (decide (operand / 256 % 2 = 1))
            (BitVec.ofNat 4 (operand / 16)) (BitVec.ofNat 4 operand))
        else none
      else if agent = 1 then
        if operand / 256 = 0 then some (.busAw data)
        else if operand / 256 = 1 then some (.busRx data)
        else if operand / 256 = 2 then some (.busAr data)
        else if operand / 256 = 3 then some (.busRdnext data)
        else if operand / 256 = 4 then some (.busStop data)
        else if operand / 256 = 5 then some (.busErr data)
        else if operand / 256 = 6 then some (.busRsvd 0 data)
        else if operand / 256 = 7 then some (.busRsvd 1 data)
        else none
      else if agent = 2 then if operand = 0 then some .mainDispatch else none
      else if agent = 3 then if operand = 0 then some .mainEmit else none
      else if agent = 7 then if operand = 0 then some .reset else none
      else none) ∧
  (∀ (s : State) (cl ol : Level) (sense scan scan' : Lines), s.kpState ≠ .scan →
    exec (.tick cl ol sense scan) s = exec (.tick cl ol sense scan') s) ∧
  (∀ (s : State) (d d' : Byte) (k : BitVec 1),
    exec (.busAw d) s = exec (.busAw d') s ∧ exec (.busAr d) s = exec (.busAr d') s ∧
    exec (.busRdnext d) s = exec (.busRdnext d') s ∧ exec (.busStop d) s = exec (.busStop d') s ∧
    exec (.busErr d) s = exec (.busErr d') s ∧ exec (.busRsvd k d) s = exec (.busRsvd k d') s)

/-- Words written out from the spec's own examples and tables decode to what they stand for, each read in its format, which the
model gives as a tag (DESIGN CHOICE, log 1). -/
def Obligations.SpecExampleWordsDecode : Prop :=
  decode .trace 0x03FF = some (.tick true true 0b1111 0b1111) ∧
  decode .trace 0x01FF = some (.tick false true 0b1111 0b1111) ∧
  decode .trace 0x2000 = some (.busAw 0) ∧ decode .trace 0x2180 = some (.busRx 0x80) ∧
  decode .trace 0x4000 = some .mainDispatch ∧ decode .trace 0x6000 = some .mainEmit ∧
  decode .trace 0xE000 = some .reset ∧ decode .ev 0x538 = some (.keypadNewKey 0x38) ∧
  decode .char 0x23 = some .keyTerminator ∧ decode .key 0b1110 = some .keymap14 ∧
  decode .csrWrite 0x80 = some (.csrWrActuate 0) ∧ decode .dstate 0x7F = some .dsInvalid ∧
  decode .busk 5 = some .kindErr ∧ decode .mcmd 0b10 = some .mStartClose ∧
  decode .kpstate 0b10 = some .kpScan ∧ decode .qop 0x1600 = some (.qEnq 0x600)

/-! ## The step -/

/-- The next word lined up is decoded and run, and is used up. The list of words to come and their tags are the model's (DESIGN
CHOICE, log 1, log 2). -/
def Obligations.StepRunsTheDecodedWord : Prop :=
  ∀ (s : State) (w : Stim) (rest : List Stim) (i : Instr), s.stim = w :: rest → decode w.fmt w.bits = some i →
    step s = exec i { s with stim := rest }

/-- R90, R99: a word that is none of its format's encodings is no stimulus and is refused. That this holds for words of the other
formats and for operand bits listed as zero too is the model's reading (DEDUCED, log 5). -/
def Obligations.StepRefusesAMalformedWord : Prop :=
  ∀ (s : State) (w : Stim) (rest : List Stim), s.stim = w :: rest → decode w.fmt w.bits = none →
    step s = .refused .malformedWord

/-- R210, R217, R218: with no word lined up, the step is whatever the open schedule picks, the main loop taking the one of its
steps that is enabled and sleeping where none is; such a step always completes (the form of the schedule is the model's: log 3). -/
def Obligations.OpenScheduleTakesEnabledSteps : Prop :=
  ∀ s : State, s.stim = [] →
    let a : State := { s with schedIndex := s.schedIndex + 1 }
    step s =
      (match Config.sched s.schedIndex, s.mPending, s.q with
       | .tick cl ol sense scan, _, _ => exec (.tick cl ol sense scan) a
       | .bus kind data, _, _ => exec (busInstr kind data) a
       | .main, some _, _ => exec .mainEmit a
       | .main, none, _ :: _ => exec .mainDispatch a
       | .main, none, [] => .next (quiet a)
       | .reset, _, _ => exec .reset a) ∧
    ∃ t, step s = .next t

/-- A step is refused for one of three reasons only, each with its ground in the state: no step stops on an operation that could
be executed (R99, R210). The refusals are the model's reading (DEDUCED, log 4, log 5). -/
def Obligations.StepStopsOnlyOutsideTheTrace : Prop :=
  ∀ (s : State) (r : Refusal), step s = .refused r →
    ∃ w rest, s.stim = w :: rest ∧
      ((r = .malformedWord ∧ decode w.fmt w.bits = none) ∨
       (r = .mainDispatchNotEnabled ∧ decode w.fmt w.bits = some .mainDispatch ∧ (s.mPending ≠ none ∨ s.q = [])) ∨
       (r = .mainEmitNotEnabled ∧ decode w.fmt w.bits = some .mainEmit ∧ s.mPending = none))

/-! ## Reset -/

/-- R40: the value of every register after reset. -/
def Obligations.ResetValues : Prop :=
  State.reset.doorState = 0x00#7 ∧ State.reset.q = [] ∧ State.reset.dropCount = 0#16 ∧
  State.reset.dbCl.confirmed = true ∧ State.reset.dbOl.confirmed = true ∧
  State.reset.dbCl.pending = true ∧ State.reset.dbOl.pending = true ∧
  State.reset.dbCl.countdown = 0 ∧ State.reset.dbOl.countdown = 0 ∧
  State.reset.dbCl.armed = false ∧ State.reset.dbOl.armed = false ∧
  State.reset.kpState = .idle ∧ State.reset.kpCount = 0 ∧ State.reset.kpRole = .normal ∧
  State.reset.dutyOpen = 0#8 ∧ State.reset.dutyClose = 0#8 ∧ State.reset.busPhase = 0#1 ∧
  State.reset.busTxDone = false ∧ State.reset.accValue = 0#16 ∧ State.reset.accCount = 0 ∧
  State.reset.mPending = none

/-- R216, R260: `RESET` puts every register at its reset value, from any state; the configuration is no register and stays
(R37). That the stimuli, the schedule position and the count of inputs taken, which are the model's own fields, stay too is the
model's choice (log 2, log 3, log 9). -/
def Obligations.ResetStepRestoresEveryRegister : Prop :=
  ∀ s : State, exec .reset s =
    .next
      { q := [], dropCount := 0#16
        dbCl := { pending := true, confirmed := true, countdown := 0, armed := false }
        dbOl := { pending := true, confirmed := true, countdown := 0, armed := false }
        kpState := .idle, kpCount := 0, kpRole := .normal, dutyOpen := 0#8, dutyClose := 0#8
        busPhase := 0#1, busTxDone := false, doorState := 0x00#7, accValue := 0#16, accCount := 0
        mPending := none, cfg := s.cfg, stim := s.stim, schedIndex := s.schedIndex, inputIndex := s.inputIndex
        out := {} }

/-! ## The event queue -/

/-- R111: an enqueue appends the event, or on a full queue loses it and counts it; the answer says which. -/
def Obligations.EnqueueAppendsOrDrops : Prop :=
  ∀ (e : Ev) (s : State),
    exec (.qEnq e) s =
      .next
        (if s.q.length = s.cfg.qCap then
          { s with
            dropCount := BitVec.ofNat 16 (min (s.dropCount.toNat + 1) 65535)
            out := { causes := [.queueFull e], qResult := some .full } }
        else { s with q := s.q ++ [e], out := { qResult := some .success } })

/-- R112: a dequeue answers and removes the oldest event; on an empty queue nothing changes. -/
def Obligations.DequeueTakesTheOldest : Prop :=
  ∀ (x : BitVec 12) (s : State),
    exec (.qDeq x) s =
      .next
        (match s.q with
         | [] => { s with out := { qResult := some .empty } }
         | e :: rest => { s with q := rest, out := { qResult := some (.event e) } })

/-- R115: over any sequence of enqueues and dequeues the events come out in the order in which they were accepted, none is
corrupted, capacity is never exceeded, and where it is not reached every event is accepted. -/
def Obligations.QueueIsFirstInFirstOut : Prop :=
  ∀ (ops : List (Option Ev)) (s : State), Memory.wf s →
    let r := queueRun ops s
    r.1 ++ r.2.2.q = s.q ++ r.2.1 ∧ Memory.wf r.2.2 ∧
    (s.q.length + (ops.filterMap id).length ≤ s.cfg.qCap → r.2.1 = ops.filterMap id)

/-- R116, R21: a ring with two indices and a count, whose wrap is a compare and reset, is the queue: it holds `Q_CAP` events, each
operation gives the answer of the sequence and the sequence's result, and keeps the ring's indices in range. That the ring stands
beside the state, and no step reads it, is the model's choice (log 25). -/
def Obligations.RingRefinesTheQueue : Prop :=
  ∀ (cap : Nat) (r : Ring) (e : Ev), r.wf cap →
    ((r.enq cap e).2.wf cap ∧ (r.deq cap).2.wf cap) ∧
    (r.count < cap → (r.enq cap e).1 = .success ∧ (r.enq cap e).2.toQueue cap = r.toQueue cap ++ [e]) ∧
    (r.count = cap → r.enq cap e = (.full, r)) ∧
    (∀ x rest, r.toQueue cap = x :: rest → (r.deq cap).1 = .event x ∧ (r.deq cap).2.toQueue cap = rest) ∧
    (r.toQueue cap = [] → r.deq cap = (.empty, r)) ∧
    (r.toQueue cap).length = r.count

/-- R71: apart from reset, whatever runs leaves the events that were in the queue in their order, at most the oldest removed (by
a dispatch or a dequeue, no other operation), and puts new ones, at most three, behind them. -/
def Obligations.QueueOrderIsKeptByEveryOperation : Prop :=
  ∀ (i : Instr) (s t : State), i ≠ .reset → exec i s = .next t →
    ∃ new : List Ev, new.length ≤ 3 ∧
      (t.q = s.q ++ new ∨ ((i = .mainDispatch ∨ ∃ x, i = .qDeq x) ∧ t.q = s.q.tail ++ new))

/-- R22: `drop_count` goes up by at most three in a step, stops at the top, and only `RESET` lowers it. -/
def Obligations.OnlyResetLowersTheDropCount : Prop :=
  ∀ (i : Instr) (s t : State), exec i s = .next t →
    (i ≠ .reset → s.dropCount.toNat ≤ t.dropCount.toNat ∧ t.dropCount.toNat ≤ s.dropCount.toNat + 3) ∧
    (i = .reset → t.dropCount = 0#16)

/-! ## The debounce filter -/

/-- R121, R122: one sample of a limit switch, for each of the two switches, with any `N_LIMIT` and a counter wide enough for it
(R125). What a counter of 0 does that is decremented, which no run reaches, is the model's reading (DEDUCED, log 23). -/
def Obligations.LimitSwitchSample : Prop :=
  ∀ (l : Level) (s : State),
    exec (.dbSampleCl l) s = .next (sampledCl l (quiet s)) ∧ exec (.dbSampleOl l) s = .next (sampledOl l (quiet s))

/-- R123: a line of either switch held at a new level is confirmed at the `N_LIMIT`-th consecutive sample, exactly once, and not
before. -/
def Obligations.HeldLevelIsConfirmedOnce : Prop :=
  ∀ (i : Switch) (s : State) (l : Level) (n : Nat), (s.db i).armed = false → l ≠ (s.db i).confirmed →
    1 ≤ s.cfg.nLimit → s.q.length < s.cfg.qCap →
    ∃ t, execAll (List.replicate n (sampleOf i l)) s = .next t ∧
      (n < s.cfg.nLimit →
        (t.db i).confirmed = (s.db i).confirmed ∧ t.q = s.q ∧
        (0 < n → (t.db i).countdown = s.cfg.nLimit - n)) ∧
      (s.cfg.nLimit ≤ n →
        (t.db i).confirmed = l ∧ (t.db i).armed = false ∧ t.q = s.q ++ [edgeOf i l])

/-- R123: a line of either switch that never shows `N_LIMIT` consecutive differing samples confirms nothing and emits nothing,
however long it bounces. -/
def Obligations.BouncingLineConfirmsNothing : Prop :=
  ∀ (i : Switch) (s : State) (ls : List Level), (s.db i).armed = false → 1 ≤ s.cfg.nLimit →
    ¬ List.replicate s.cfg.nLimit (!(s.db i).confirmed) <:+: ls →
    ∃ t, execAll (ls.map (sampleOf i)) s = .next t ∧ (t.db i).confirmed = (s.db i).confirmed ∧ t.q = s.q ∧
      t.dropCount = s.dropCount

/-- R124: a confirmation of either switch, a press or a release, whose event meets a full queue is still a confirmation: the event
is dropped and counted, and further samples at the level emit nothing. -/
def Obligations.DroppedLimitEventIsNotRetried : Prop :=
  ∀ (i : Switch) (s : State) (l : Level) (n : Nat), l ≠ (s.db i).confirmed →
    (if (s.db i).armed then (s.db i).countdown else s.cfg.nLimit) = 1 → s.q.length = s.cfg.qCap →
    ∃ t, execAll (List.replicate (n + 1) (sampleOf i l)) s = .next t ∧ (t.db i).confirmed = l ∧
      (t.db i).armed = false ∧ t.q = s.q ∧ t.dropCount.toNat = min (s.dropCount.toNat + 1) 65535 ∧
      t.doorState = s.doorState ∧ t.dutyOpen = s.dutyOpen ∧ t.dutyClose = s.dutyClose

/-! ## The keypad -/

/-- R137: the lowest line that reads low wins; with no line low the index is 0. -/
def Obligations.LowestLineWins : Prop :=
  ∀ v : Lines,
    (v = 0b1111#4 → lowIdx v = 0#2) ∧
    (v ≠ 0b1111#4 →
      v.getLsbD (lowIdx v).toNat = false ∧ ∀ j, j < (lowIdx v).toNat → v.getLsbD j = true)

/-- R136: the key of a column and a row is the character at `column + 4*row` of the layout, and in the layout of R63 the full map,
rows down, columns across. -/
def Obligations.KeyMapOfRowsAndColumns : Prop :=
  let key (column row : BitVec 2) (c : Byte) : Prop := kpResolve Config.reference.keymap column row = c
  (∀ (m : Vector Byte 16) (column row : BitVec 2),
    some (kpResolve m column row) = m[column.toNat + 4 * row.toNat]?) ∧
  key 0 0 0x31#8 ∧ key 1 0 0x32#8 ∧ key 2 0 0x33#8 ∧ key 3 0 0x41#8 ∧
  key 0 1 0x34#8 ∧ key 1 1 0x35#8 ∧ key 2 1 0x36#8 ∧ key 3 1 0x42#8 ∧
  key 0 2 0x37#8 ∧ key 1 2 0x38#8 ∧ key 2 2 0x39#8 ∧ key 3 2 0x43#8 ∧
  key 0 3 0x2A#8 ∧ key 1 3 0x30#8 ∧ key 2 3 0x23#8 ∧ key 3 3 0x44#8

/-- R63, R68: a read of the key layout answers the character of its index and changes no register; the layout of R5 (where the
answer stands is the model's choice: log 12). -/
def Obligations.KeyLayoutReadsItsCharacter : Prop :=
  (∀ s : State,
    let answers (i : Instr) (c : Byte) : Prop := exec i s = .next { s with out := { keyChar := some c } }
    answers .keymap0 s.cfg.keymap[0] ∧ answers .keymap1 s.cfg.keymap[1] ∧
    answers .keymap2 s.cfg.keymap[2] ∧ answers .keymap3 s.cfg.keymap[3] ∧
    answers .keymap4 s.cfg.keymap[4] ∧ answers .keymap5 s.cfg.keymap[5] ∧
    answers .keymap6 s.cfg.keymap[6] ∧ answers .keymap7 s.cfg.keymap[7] ∧
    answers .keymap8 s.cfg.keymap[8] ∧ answers .keymap9 s.cfg.keymap[9] ∧
    answers .keymap10 s.cfg.keymap[10] ∧ answers .keymap11 s.cfg.keymap[11] ∧
    answers .keymap12 s.cfg.keymap[12] ∧ answers .keymap13 s.cfg.keymap[13] ∧
    answers .keymap14 s.cfg.keymap[14] ∧ answers .keymap15 s.cfg.keymap[15]) ∧
  Config.reference.keymap.toList =
    [0x31#8, 0x32#8, 0x33#8, 0x41#8, 0x34#8, 0x35#8, 0x36#8, 0x42#8,
      0x37#8, 0x38#8, 0x39#8, 0x43#8, 0x2A#8, 0x30#8, 0x23#8, 0x44#8]

/-- R132 to R135: a keypad code taken by itself runs its rule, on the samples that the environment supplies for it, where
`kp_state` has that code, and elsewhere changes nothing (the codes as operations, the free samples and the second case are the
model's choice: log 9, log 17; a count of 0 that is decremented: log 23). -/
def Obligations.KeypadCodesRunTheirRules : Prop :=
  ∀ s : State,
    let input := Config.freeInput s.inputIndex
    let s0 : State := { s with inputIndex := s.inputIndex + 1, out := {} }
    let runs (i : Instr) (k : KpState) : Prop :=
      exec i s = .next (if s.kpState = k then keypadTicked k input.sense input.scan s0 else s0)
    runs .kpIdle .idle ∧ runs .kpWait .wait ∧ runs .kpScan .scan ∧ runs .kpRelease .release

/-- R138: a key held down for six ticks or more and then released gives exactly one `KEYPAD_NEW_KEY`, carrying the key's
character, in the sixth tick of the press (a press that ends sooner is `KeyGoneWhenTheWaitEndsGivesNothing`, R139). -/
def Obligations.OnePressGivesOneEvent : Prop :=
  ∀ (s : State) (r c : BitVec 2) (n : Nat), s.kpState = .idle → s.cfg.nKp = 4 →
    DebounceOk s.cfg.nLimit s.dbCl → DebounceOk s.cfg.nLimit s.dbOl →
    s.dbCl.armed = false → s.dbOl.armed = false → s.q.length < s.cfg.qCap →
    let cl := s.dbCl.confirmed
    let ol := s.dbOl.confirmed
    (∃ u, execAll (ticks 5 cl ol (lineLow c)) s = .next u ∧ u.q = s.q ∧ u.kpState = .scan) ∧
    ∃ t, execAll
        (ticks 5 cl ol (lineLow c) ++ [.tick cl ol (lineLow c) (lineLow r)] ++ ticks n cl ol (lineLow c) ++
          [.tick cl ol 0b1111 0b1111]) s = .next t ∧
      t = { s with
            q := s.q ++ [0x5#4 ++ kpResolve s.cfg.keymap c r], kpCount := 0, kpRole := .normal, kpState := .idle
            out := {} }

/-- R133, R139: a key that is gone when the wait ends gives no event, whatever the lines did in between. -/
def Obligations.KeyGoneWhenTheWaitEndsGivesNothing : Prop :=
  ∀ (s : State) (a b c d : Lines), s.kpState = .idle → s.cfg.nKp = 4 →
    DebounceOk s.cfg.nLimit s.dbCl → DebounceOk s.cfg.nLimit s.dbOl →
    s.dbCl.armed = false → s.dbOl.armed = false → a ≠ 0b1111#4 →
    let cl := s.dbCl.confirmed
    let ol := s.dbOl.confirmed
    ∃ t, execAll [.tick cl ol a 0b1111, .tick cl ol b 0b1111, .tick cl ol c 0b1111, .tick cl ol d 0b1111,
        .tick cl ol 0b1111 0b1111] s = .next t ∧ t.kpState = .idle ∧ t.kpCount = 0 ∧ t.q = s.q ∧
      t.dropCount = s.dropCount

/-- R26, R39: between steps the keypad pins are in the idle role, scan lines driven low and sense lines inputs. -/
def Obligations.KeypadPinsBetweenSteps : Prop :=
  ∀ s t : State, Inv s → step s = .next t →
    t.scanOe = true ∧ t.scanOut = some 0b0000#4 ∧ t.senseOe = false ∧ t.senseOut = none

/-! ## The motor -/

/-- R151 to R154: the motor commands, with `DUTY_FULL` of the configuration. -/
def Obligations.MotorCommands : Prop :=
  ∀ s : State,
    exec .mStop s = .next { s with dutyOpen := 0#8, dutyClose := 0#8, out := {} } ∧
    exec .mStartOpen s = .next { s with dutyOpen := s.cfg.dutyFull, dutyClose := 0#8, out := {} } ∧
    exec .mStartClose s = .next { s with dutyOpen := 0#8, dutyClose := s.cfg.dutyFull, out := {} } ∧
    exec .mcmdReserved s = .next { s with dutyOpen := 0#8, dutyClose := 0#8, out := {} }

/-- R155: after any sequence of motor commands at most one channel is on. A command is its list of writes taken in order; after
any number of its writes at most one channel is on, and the write that a start makes first switches the opposing channel off and
leaves the own one as it was (the list of writes is the model's view of the instants inside a step: log 24). -/
def Obligations.AtMostOneMotorChannelIsOn : Prop :=
  (∀ (is : List Instr) (s : State), (∀ i ∈ is, isMotor i) → MotorPair s →
    ∃ t, execAll is s = .next t ∧ MotorPair t ∧ MotorExclusive t) ∧
  (∀ s : State,
    let command (i : Instr) (ws : List DutyWrite) : Prop :=
      exec i s = .next ((quiet s).writeDuties ws) ∧
      (MotorPair s → ∀ k, MotorExclusive (s.writeDuties (ws.take k)))
    command .mStop motorStopWrites ∧ command .mcmdReserved motorStopWrites ∧
    command .mStartOpen (motorStartOpenWrites s.cfg.dutyFull) ∧
    command .mStartClose (motorStartCloseWrites s.cfg.dutyFull) ∧
    s.writeDuties ((motorStartOpenWrites s.cfg.dutyFull).take 1) = { s with dutyClose := 0#8 } ∧
    s.writeDuties ((motorStartCloseWrites s.cfg.dutyFull).take 1) = { s with dutyOpen := 0#8 })

/-! ## The bus handler -/

/-- R162, R165, R166, R167: the phases of a transaction that carry nothing. -/
def Obligations.BusPhasesWithoutData : Prop :=
  ∀ (s : State) (d : Byte) (k : BitVec 1),
    let listening (causes : List Cause) : Host.Outcome State Fault Refusal :=
      .next { s with busPhase := 0#1, busTxDone := false, out := { causes := causes } }
    exec (.busAw d) s = listening [] ∧ exec (.busRdnext d) s = .next (quiet s) ∧ exec (.busStop d) s = listening [] ∧
    exec (.busErr d) s = listening [.busDesync 5#3] ∧
    exec (.busRsvd k d) s = listening [.busDesync (if k = 0#1 then 6#3 else 7#3)]

/-- R163: the first byte of a write is ignored; every later byte is a command byte, which enqueues an `ACTUATE_DOOR` where its bit
7 is set and does nothing otherwise. -/
def Obligations.BusReceivedByte : Prop :=
  ∀ (s : State) (b : Byte),
    exec (.busRx b) s =
      .next
        (if s.busPhase = 0#1 then { s with busPhase := 1#1, out := {} }
        else if 0x80 ≤ b.toNat then enqueued 0x600#12 (quiet s)
        else quiet s)

/-- The phase kinds and the views of the command/status byte, taken by themselves, do what the trace words of the same rules do
(R162 to R167); `RX` does it with the byte that the environment supplies for it (the rows as operations and the free byte are the
model's choice: log 9, log 13, log 15). -/
def Obligations.BusCodesByThemselves : Prop :=
  ∀ (s : State) (d : Byte) (k : BitVec 1) (x : BitVec 7),
    (exec .kindAw s = exec (.busAw d) s ∧ exec .kindAr s = exec (.busAr d) s ∧ exec .kindRdnext s = exec (.busRdnext d) s ∧
      exec .kindStop s = exec (.busStop d) s ∧ exec .kindErr s = exec (.busErr d) s ∧
      exec (.kindRsvd k) s = exec (.busRsvd k d) s) ∧
    (∃ t, exec .kindAw s = .next t) ∧ (∃ t, exec .kindAr s = .next t) ∧ (∃ t, exec .kindRdnext s = .next t) ∧
    (∃ t, exec .kindStop s = .next t) ∧ (∃ t, exec .kindErr s = .next t) ∧ (∃ t, exec (.kindRsvd k) s = .next t) ∧
    exec .kindRx s = exec (.busRx (Config.freeInput s.inputIndex).busData) { s with inputIndex := s.inputIndex + 1 } ∧
    (∃ t, exec .kindRx s = .next t) ∧
    exec (.csrRdStatus x) s =
      .next { s with busTxDone := true, out := { busTx := some (BitVec.ofNat 8 s.doorState.toNat) } } ∧
    exec (.csrWrActuate x) s = .next (enqueued 0x600#12 (quiet s)) ∧
    exec (.csrWrNop x) s = .next (quiet s)

/-- R164: a read answers the status byte, the door state in bits 6..0 and bit 7 zero, and touches nothing but `bus_tx_done`. -/
def Obligations.BusReadAnswersTheStatus : Prop :=
  ∀ (s : State) (d : Byte),
    exec (.busAr d) s = .next { s with busTxDone := true, out := { busTx := some (BitVec.ofNat 8 s.doorState.toNat) } }

/-- R169, R171, R163: from any state, a write transaction enqueues one `ACTUATE_DOOR` for each command byte with bit 7 set and
none for the others, whatever the first byte is, and ends with the handler listening. -/
def Obligations.BusCommandRoundTrip : Prop :=
  ∀ (s : State) (first : Byte) (cmds : List Byte),
    s.q.length + (cmds.filter fun b => decide (0x80 ≤ b.toNat)).length ≤ s.cfg.qCap →
    ∃ t, execAll ([.busAw 0, .busRx first] ++ cmds.map .busRx ++ [.busStop 0]) s = .next t ∧
      t.q = s.q ++ List.replicate (cmds.filter fun b => decide (0x80 ≤ b.toNat)).length 0x600#12 ∧
      t.busPhase = 0#1 ∧ t.busTxDone = false ∧ t.doorState = s.doorState ∧ t.dropCount = s.dropCount

/-- R161: a bus step enqueues at most one event, an `ACTUATE_DOOR`, and writes no register but its own two bits, the queue and
`drop_count`. -/
def Obligations.BusStepTouchesOnlyItsOwnState : Prop :=
  ∀ (i : Instr) (s t : State), isBus i → exec i s = .next t →
    (t.q = s.q ∨ t.q = s.q ++ [0x600#12]) ∧
    t = { s with
          q := t.q, dropCount := t.dropCount, busPhase := t.busPhase, busTxDone := t.busTxDone, out := t.out }

/-! ## The door -/

/-- R181, R183: a limit press stops the motor and sets the end position, from every state. -/
def Obligations.LimitPressWins : Prop :=
  ∀ (s : State) (d : Byte),
    exec (.closedLimitPressed d) s =
      .next { s with doorState := 0x00#7, dutyOpen := 0#8, dutyClose := 0#8, out := {} } ∧
    exec (.openLimitPressed d) s =
      .next { s with doorState := 0x02#7, dutyOpen := 0#8, dutyClose := 0#8, out := {} }

/-- R182, R184, R190: the release events are informational only and a reserved event is discarded: no register changes. -/
def Obligations.InformationalAndReservedEventsChangeNothing : Prop :=
  ∀ (s : State) (d : Byte) (k : BitVec 1) (m : BitVec 2),
    exec (.closedLimitReleased d) s = .next (quiet s) ∧ exec (.openLimitReleased d) s = .next (quiet s) ∧
    exec (.evReserved0 d) s = .next (quiet s) ∧ exec (.evReserved9 d) s = .next (quiet s) ∧
    exec (.evReservedAB k d) s = .next (quiet s) ∧ exec (.evReservedCF m d) s = .next (quiet s)

/-- R185: a start opens from below `DS_OPEN` and closes from there up, reversing a running motor at once. -/
def Obligations.StartDoorPicksTheDirection : Prop :=
  ∀ (s : State) (d : Byte),
    exec (.startDoor d) s =
      .next
        (if s.doorState.toNat < 2 then { s with doorState := 0x04#7, dutyOpen := s.cfg.dutyFull, dutyClose := 0#8, out := {} }
        else { s with doorState := 0x05#7, dutyOpen := 0#8, dutyClose := s.cfg.dutyFull, out := {} })

/-- R186: a stop halts a moving door where it is and leaves a standing one alone. -/
def Obligations.StopDoorHaltsAMovingDoor : Prop :=
  ∀ (s : State) (d : Byte),
    exec (.stopDoor d) s =
      .next
        (if s.doorState = 0x04#7 then { s with doorState := 0x03#7, dutyOpen := 0#8, dutyClose := 0#8, out := {} }
        else if s.doorState = 0x05#7 then { s with doorState := 0x01#7, dutyOpen := 0#8, dutyClose := 0#8, out := {} }
        else quiet s)

/-- R187, R188: an actuate puts the derived start or stop, decided on the door state now, in `m_pending` and moves nothing. -/
def Obligations.ActuateDecidesTheToggle : Prop :=
  ∀ (s : State) (d : Byte), exec (.actuateDoor d) s = .next { s with mPending := some (toggled s.doorState), out := {} }

/-- R86, R87: a door-state code is read as its state, and the sentinel and the reserved codes as a door that is unknown; no
register changes (the codes as operations are the model's: log 14). -/
def Obligations.DoorCodesAreReadAndChangeNothing : Prop :=
  ∀ s : State,
    let reads (i : Instr) (v : DoorView) : Prop := exec i s = .next { s with out := { doorView := some v } }
    reads .dsClosed .closed ∧ reads .dsClosingStopped .closingStopped ∧ reads .dsOpen .opened ∧
    reads .dsOpeningStopped .openingStopped ∧ reads .dsOpening .opening ∧ reads .dsClosing .closing ∧
    reads .dsInvalid .unknown ∧ ∀ c : DoorCode, 0x06 ≤ c.toNat → c.toNat ≤ 0x7E → reads (.dsReserved c) .unknown

/-! ## The access code -/

/-- R201, R5, R37: a digit key appends its digit; one that comes with `PIN_LEN` digits held starts a new code. That the rule's 4
follows `PIN_LEN` is the model's choice (DESIGN CHOICE, log 7); with the `PIN_LEN` of R5 it is the rule's 4. A count at the top of
its register, which no run reaches, goes to 0 (DEDUCED, log 23). -/
def Obligations.DigitKeyAppends : Prop :=
  ∀ (s : State) (low : BitVec 3) (high : BitVec 1),
    let appended (d : Nat) : Host.Outcome State Fault Refusal :=
      .next
        { s with
          accValue := if s.accCount = s.cfg.pinLen then BitVec.ofNat 16 d else BitVec.ofNat 16 (s.accValue.toNat * 10 + d)
          accCount := 
            if s.accCount = s.cfg.pinLen then 1
            else if s.accCount = counterTop 3 s.cfg.pinLen then 0
            else s.accCount + 1
          out := {} }
    exec (.keyDigit0to7 low) s = appended low.toNat ∧ exec (.keyDigit8to9 high) s = appended (8 + high.toNat)

/-- R202, R5, R37: the terminator makes a toggle request of `PIN_LEN` digits that equal the PIN, and empties the accumulator either
way. That the rule's 4 follows `PIN_LEN` is the model's choice (DESIGN CHOICE, log 7); with the `PIN_LEN` of R5 it is the rule's
4. -/
def Obligations.TerminatorChecksTheCode : Prop :=
  ∀ s : State,
    exec .keyTerminator s =
      .next
        { s with
          mPending := if s.accCount = s.cfg.pinLen ∧ s.accValue = s.cfg.pin then some (toggled s.doorState) else s.mPending
          accValue := 0#16, accCount := 0, out := {} }

/-- R203: any other key is ignored without resetting. -/
def Obligations.OtherKeysAreIgnored : Prop := ∀ (s : State) (ch : Byte), exec (.keyOther ch) s = .next (quiet s)

/-- R189, R200, R5, R37: a key event completes, and does what the rule of its character does: a digit's, the terminator's of the
configuration, or that of any other key. That the rule's 0x23 follows `TERMINATOR` is the model's choice (DESIGN CHOICE, log 7).
Where the terminator is '#', as in R200 and R5, that is the operation to which format `CHAR` decodes the character. -/
def Obligations.KeyEventRunsTheRuleOfItsCharacter : Prop :=
  ∀ (s : State) (ch : Byte),
    exec (.keypadNewKey ch) s =
      (if 0x30 ≤ ch.toNat ∧ ch.toNat ≤ 0x37 then exec (.keyDigit0to7 (BitVec.ofNat 3 (ch.toNat - 0x30))) s
      else if 0x38 ≤ ch.toNat ∧ ch.toNat ≤ 0x39 then exec (.keyDigit8to9 (BitVec.ofNat 1 (ch.toNat - 0x38))) s
      else if ch = s.cfg.terminator then exec .keyTerminator s
      else exec (.keyOther ch) s) ∧
    (s.cfg.terminator = 0x23#8 → ∀ i, decode .char (ch.setWidth 16) = some i → exec (.keypadNewKey ch) s = exec i s) ∧
    (∃ i, decode .char (ch.setWidth 16) = some i) ∧ ∃ t, exec (.keypadNewKey ch) s = .next t

/-- R204, R201, R202, R5, R37: four digits and the terminator, typed on an accumulator that is empty or full, make the toggle
request exactly where the digits are the PIN, and leave the accumulator empty and everything else as it was; for every core whose
codes have four digits and whose terminator is no digit. That a core can have another terminator than the '#' of R202 and R204 is
the model's choice (DESIGN CHOICE, log 7). -/
def Obligations.AccessCodeRoundTrip : Prop :=
  ∀ (s : State) (a b c d : Nat), a ≤ 9 → b ≤ 9 → c ≤ 9 → d ≤ 9 → s.cfg.pinLen = 4 →
    (s.cfg.terminator.toNat < 0x30 ∨ 0x39 < s.cfg.terminator.toNat) →
    (s.accCount = 4 ∨ (s.accCount = 0 ∧ s.accValue = 0#16)) →
    let key (k : Nat) : Instr := .keypadNewKey (BitVec.ofNat 8 (0x30 + k))
    execAll [key a, key b, key c, key d, .keypadNewKey s.cfg.terminator] s =
      .next
        { s with
          mPending :=
            if s.cfg.pin.toNat = 1000 * a + 100 * b + 10 * c + d then some (toggled s.doorState) else s.mPending
          accValue := 0#16, accCount := 0, out := {} }

/-! ## The agents -/

/-- R211: a tick completes: the closed-limit sample, the open-limit sample, then the one rule of the `kp_state` with which the
tick began. What a counter of 0 does that is decremented, which no run reaches, is the model's reading (DEDUCED, log 23). -/
def Obligations.TickRunsTheThreeProcessesInOrder : Prop :=
  ∀ (s : State) (cl ol : Level) (sense scan : Lines),
    exec (.tick cl ol sense scan) s =
      .next (keypadTicked s.kpState sense scan (sampledOl ol (sampledCl cl (quiet s))))

/-- R211, R126, R239: what a tick enqueues, with room for it, is the closed-limit edge, the open-limit edge and the key, those of
them that fall due, in this order. -/
def Obligations.TickEnqueuesInFixedOrder : Prop :=
  ∀ (s t : State) (cl ol : Level) (sense scan : Lines), s.q.length + 3 ≤ s.cfg.qCap →
    exec (.tick cl ol sense scan) s = .next t →
    let due (d : Debounce) (l : Level) : Prop :=
      l ≠ d.confirmed ∧ (if d.armed then d.countdown else s.cfg.nLimit) = 1
    t.q = s.q ++ (if due s.dbCl cl then [if cl then 0x200#12 else 0x100#12] else []) ++
        (if due s.dbOl ol then [if ol then 0x400#12 else 0x300#12] else []) ++
        (if s.kpState = .scan then [0x5#4 ++ kpResolve s.cfg.keymap (lowIdx sense) (lowIdx scan)] else []) ∧
    t.dropCount = s.dropCount

/-- R214: an enabled dispatch takes the oldest event from the queue and runs the rule of its type. -/
def Obligations.MainDispatchRunsTheOldestEvent : Prop :=
  ∀ (s : State) (e : Ev) (rest : List Ev), s.mPending = none → s.q = e :: rest →
    (∃ t, exec .mainDispatch s = .next t) ∧
    (∃ i, decode .ev (e.setWidth 16) = some i) ∧
    ∀ i, decode .ev (e.setWidth 16) = some i → exec .mainDispatch s = exec i { s with q := rest }

/-- R215: an enabled emit enqueues the pending event and clears it; on a full queue the event is lost. -/
def Obligations.MainEmitEnqueuesThePendingEvent : Prop :=
  ∀ (s : State) (e : Ev), s.mPending = some e →
    exec .mainEmit s = .next { enqueued e (quiet s) with mPending := none }

/-- R210, R214, R215: the main loop has no dispatch step while an event is pending or the queue is empty, and no emit step while
nothing is pending. That such a word is refused is the model's reading (DEDUCED, log 4). -/
def Obligations.MainStepsNeedToBeEnabled : Prop :=
  ∀ s : State,
    (s.mPending ≠ none ∨ s.q = [] → exec .mainDispatch s = .refused .mainDispatchNotEnabled) ∧
    (s.mPending = none → exec .mainEmit s = .refused .mainEmitNotEnabled)

/-- R41: which registers each agent may write. -/
def Obligations.AgentsWriteOnlyTheirRegisters : Prop :=
  ∀ s t : State,
    (∀ cl ol sense scan, exec (.tick cl ol sense scan) s = .next t →
      t = { s with
            q := t.q, dropCount := t.dropCount, dbCl := t.dbCl, dbOl := t.dbOl, kpState := t.kpState
            kpCount := t.kpCount, kpRole := t.kpRole, out := t.out }) ∧
    (∀ i, isBus i → exec i s = .next t →
      t = { s with
            q := t.q, dropCount := t.dropCount, busPhase := t.busPhase, busTxDone := t.busTxDone, out := t.out }) ∧
    (∀ i, i = .mainDispatch ∨ i = .mainEmit → exec i s = .next t →
      t = { s with
            q := t.q, dropCount := t.dropCount, doorState := t.doorState, dutyOpen := t.dutyOpen
            dutyClose := t.dutyClose, accValue := t.accValue, accCount := t.accCount, mPending := t.mPending
            out := t.out })

/-- R222: with nothing pending, a drain of `n` queued events ends after at most `3n` steps, with the queue empty and nothing
pending. -/
def Obligations.DrainEndsWithinThreeStepsAnEvent : Prop :=
  ∀ s : State, s.mPending = none →
    (drain (3 * s.q.length) s).1.q = [] ∧ (drain (3 * s.q.length) s).1.mPending = none

/-- R221, R218, R210: with no word lined up, a run comes, after some number of steps, to the main loop's turn, and there it takes
whichever of its steps is enabled: a step of the main loop that stays enabled is eventually taken (the form of the schedule is the
model's: log 3). -/
def Obligations.MainLoopHasItsTurnAgain : Prop :=
  ∀ s : State, s.stim = [] →
    ∃ n t, steps n s = .next t ∧ t.stim = [] ∧ Config.sched t.schedIndex = .main ∧
      let a : State := { t with schedIndex := t.schedIndex + 1 }
      step t =
        match t.mPending, t.q with
        | some _, _ => exec .mainEmit a
        | none, _ :: _ => exec .mainDispatch a
        | none, [] => .next (quiet a)

/-- R272: two actuate requests dispatched before the first derived event are both decided on the standing door, and together
drive a closed door to closing. -/
def Obligations.StackedTogglesReverseTheDoor : Prop :=
  ∀ s : State, s.q = [0x600#12, 0x600#12] → s.mPending = none → s.doorState.toNat < 2 → 2 ≤ s.cfg.qCap →
    ∃ t, execAll [.mainDispatch, .mainEmit, .mainDispatch, .mainEmit, .mainDispatch, .mainDispatch] s = .next t ∧
      t = { s with q := [], doorState := 0x05#7, dutyOpen := 0#8, dutyClose := s.cfg.dutyFull, out := {} }

/-- R278, R126: two limit presses confirmed in one tick are enqueued closed first, so the door ends at `DS_OPEN` with the motor
off. -/
def Obligations.BothLimitPressesInOneTickEndOpen : Prop :=
  ∀ (s : State) (sense scan : Lines), s.q = [] → s.mPending = none → 2 ≤ s.cfg.qCap → s.kpState ≠ .scan →
    s.dbCl = { pending := false, confirmed := true, countdown := 1, armed := true } →
    s.dbOl = { pending := false, confirmed := true, countdown := 1, armed := true } →
    ∃ u t, exec (.tick false false sense scan) s = .next u ∧ u.q = [0x100#12, 0x300#12] ∧
      execAll [.mainDispatch, .mainDispatch] u = .next t ∧ t.q = [] ∧ t.doorState = 0x02#7 ∧ t.dutyOpen = 0#8 ∧
      t.dutyClose = 0#8

/-! ## Invariants -/

/-- What the spec promises of every state holds after reset. -/
def Obligations.ResetMeetsTheInvariants : Prop := Inv State.reset ∧ CoreInv State.reset

/-- R24, R25, R26, R28, R33, R34, R115, R125, R194: every step, of whatever format its word is, keeps the invariants of the
debounce processes, the keypad, the motor, the door state, the accumulator, the pending event, the counters' widths and the
queue. -/
def Obligations.EveryStepKeepsTheInvariants : Prop := ∀ s t : State, Inv s → step s = .next t → Inv t

/-- R195, R84: every step of the hardware keeps door and motor in agreement, and puts only events of the core's own producers in
the queue. -/
def Obligations.EveryAgentStepKeepsDoorAndMotorInAgreement : Prop :=
  ∀ s t : State, CoreInv s → step s = .next t → CoreInv t

/-- R75, R37, R5: the configuration of the machine right after reset is that of R5, and it is constant: no step writes it. -/
def Obligations.ConfigurationIsNeverWritten : Prop :=
  (∀ s t : State, step s = .next t → t.cfg = s.cfg) ∧
  State.reset.cfg.qCap = 10 ∧ State.reset.cfg.tickPeriodMs = 4 ∧ State.reset.cfg.nLimit = 15 ∧
  State.reset.cfg.nKp = 4 ∧ State.reset.cfg.pinLen = 4 ∧ State.reset.cfg.pin.toNat = 1111 ∧
  State.reset.cfg.slaveAddr.toNat = 0x20 ∧ State.reset.cfg.keymap = Config.reference.keymap ∧
  State.reset.cfg.terminator.toNat = 0x23 ∧ State.reset.cfg.dutyFull.toNat = 0xFF
end

