-- ==== Sys2Proof/Laws/State.lean ====
section
/-! SUPPORT. One lemma per field per update of `State`: what each write does to each field. -/

namespace Sys2Proof.Machine

/-! ### `State.begin` -/

@[simp] theorem State.begin_q (s : State) : (s.begin).q = s.q := rfl
@[simp] theorem State.begin_dropCount (s : State) : (s.begin).dropCount = s.dropCount := rfl
@[simp] theorem State.begin_dbCl (s : State) : (s.begin).dbCl = s.dbCl := rfl
@[simp] theorem State.begin_dbOl (s : State) : (s.begin).dbOl = s.dbOl := rfl
@[simp] theorem State.begin_kpState (s : State) : (s.begin).kpState = s.kpState := rfl
@[simp] theorem State.begin_kpCount (s : State) : (s.begin).kpCount = s.kpCount := rfl
@[simp] theorem State.begin_kpRole (s : State) : (s.begin).kpRole = s.kpRole := rfl
@[simp] theorem State.begin_dutyOpen (s : State) : (s.begin).dutyOpen = s.dutyOpen := rfl
@[simp] theorem State.begin_dutyClose (s : State) : (s.begin).dutyClose = s.dutyClose := rfl
@[simp] theorem State.begin_busPhase (s : State) : (s.begin).busPhase = s.busPhase := rfl
@[simp] theorem State.begin_busTxDone (s : State) : (s.begin).busTxDone = s.busTxDone := rfl
@[simp] theorem State.begin_doorState (s : State) : (s.begin).doorState = s.doorState := rfl
@[simp] theorem State.begin_accValue (s : State) : (s.begin).accValue = s.accValue := rfl
@[simp] theorem State.begin_accCount (s : State) : (s.begin).accCount = s.accCount := rfl
@[simp] theorem State.begin_mPending (s : State) : (s.begin).mPending = s.mPending := rfl
@[simp] theorem State.begin_cfg (s : State) : (s.begin).cfg = s.cfg := rfl
@[simp] theorem State.begin_stim (s : State) : (s.begin).stim = s.stim := rfl
@[simp] theorem State.begin_schedIndex (s : State) : (s.begin).schedIndex = s.schedIndex := rfl
@[simp] theorem State.begin_inputIndex (s : State) : (s.begin).inputIndex = s.inputIndex := rfl
@[simp] theorem State.begin_out (s : State) : (s.begin).out = {} := rfl

/-! ### `State.setBusTx` -/

@[simp] theorem State.setBusTx_q (v : Option Byte) (s : State) : (s.setBusTx v).q = s.q := rfl
@[simp] theorem State.setBusTx_dropCount (v : Option Byte) (s : State) : (s.setBusTx v).dropCount = s.dropCount := rfl
@[simp] theorem State.setBusTx_dbCl (v : Option Byte) (s : State) : (s.setBusTx v).dbCl = s.dbCl := rfl
@[simp] theorem State.setBusTx_dbOl (v : Option Byte) (s : State) : (s.setBusTx v).dbOl = s.dbOl := rfl
@[simp] theorem State.setBusTx_kpState (v : Option Byte) (s : State) : (s.setBusTx v).kpState = s.kpState := rfl
@[simp] theorem State.setBusTx_kpCount (v : Option Byte) (s : State) : (s.setBusTx v).kpCount = s.kpCount := rfl
@[simp] theorem State.setBusTx_kpRole (v : Option Byte) (s : State) : (s.setBusTx v).kpRole = s.kpRole := rfl
@[simp] theorem State.setBusTx_dutyOpen (v : Option Byte) (s : State) : (s.setBusTx v).dutyOpen = s.dutyOpen := rfl
@[simp] theorem State.setBusTx_dutyClose (v : Option Byte) (s : State) : (s.setBusTx v).dutyClose = s.dutyClose := rfl
@[simp] theorem State.setBusTx_busPhase (v : Option Byte) (s : State) : (s.setBusTx v).busPhase = s.busPhase := rfl
@[simp] theorem State.setBusTx_busTxDone (v : Option Byte) (s : State) : (s.setBusTx v).busTxDone = s.busTxDone := rfl
@[simp] theorem State.setBusTx_doorState (v : Option Byte) (s : State) : (s.setBusTx v).doorState = s.doorState := rfl
@[simp] theorem State.setBusTx_accValue (v : Option Byte) (s : State) : (s.setBusTx v).accValue = s.accValue := rfl
@[simp] theorem State.setBusTx_accCount (v : Option Byte) (s : State) : (s.setBusTx v).accCount = s.accCount := rfl
@[simp] theorem State.setBusTx_mPending (v : Option Byte) (s : State) : (s.setBusTx v).mPending = s.mPending := rfl
@[simp] theorem State.setBusTx_cfg (v : Option Byte) (s : State) : (s.setBusTx v).cfg = s.cfg := rfl
@[simp] theorem State.setBusTx_stim (v : Option Byte) (s : State) : (s.setBusTx v).stim = s.stim := rfl
@[simp] theorem State.setBusTx_schedIndex (v : Option Byte) (s : State) : (s.setBusTx v).schedIndex = s.schedIndex := rfl
@[simp] theorem State.setBusTx_inputIndex (v : Option Byte) (s : State) : (s.setBusTx v).inputIndex = s.inputIndex := rfl
@[simp] theorem State.setBusTx_out (v : Option Byte) (s : State) : (s.setBusTx v).out = { s.out with busTx := v } := rfl

/-! ### `State.setQResult` -/

@[simp] theorem State.setQResult_q (r : QResult) (s : State) : (s.setQResult r).q = s.q := rfl
@[simp] theorem State.setQResult_dropCount (r : QResult) (s : State) : (s.setQResult r).dropCount = s.dropCount := rfl
@[simp] theorem State.setQResult_dbCl (r : QResult) (s : State) : (s.setQResult r).dbCl = s.dbCl := rfl
@[simp] theorem State.setQResult_dbOl (r : QResult) (s : State) : (s.setQResult r).dbOl = s.dbOl := rfl
@[simp] theorem State.setQResult_kpState (r : QResult) (s : State) : (s.setQResult r).kpState = s.kpState := rfl
@[simp] theorem State.setQResult_kpCount (r : QResult) (s : State) : (s.setQResult r).kpCount = s.kpCount := rfl
@[simp] theorem State.setQResult_kpRole (r : QResult) (s : State) : (s.setQResult r).kpRole = s.kpRole := rfl
@[simp] theorem State.setQResult_dutyOpen (r : QResult) (s : State) : (s.setQResult r).dutyOpen = s.dutyOpen := rfl
@[simp] theorem State.setQResult_dutyClose (r : QResult) (s : State) : (s.setQResult r).dutyClose = s.dutyClose := rfl
@[simp] theorem State.setQResult_busPhase (r : QResult) (s : State) : (s.setQResult r).busPhase = s.busPhase := rfl
@[simp] theorem State.setQResult_busTxDone (r : QResult) (s : State) : (s.setQResult r).busTxDone = s.busTxDone := rfl
@[simp] theorem State.setQResult_doorState (r : QResult) (s : State) : (s.setQResult r).doorState = s.doorState := rfl
@[simp] theorem State.setQResult_accValue (r : QResult) (s : State) : (s.setQResult r).accValue = s.accValue := rfl
@[simp] theorem State.setQResult_accCount (r : QResult) (s : State) : (s.setQResult r).accCount = s.accCount := rfl
@[simp] theorem State.setQResult_mPending (r : QResult) (s : State) : (s.setQResult r).mPending = s.mPending := rfl
@[simp] theorem State.setQResult_cfg (r : QResult) (s : State) : (s.setQResult r).cfg = s.cfg := rfl
@[simp] theorem State.setQResult_stim (r : QResult) (s : State) : (s.setQResult r).stim = s.stim := rfl
@[simp] theorem State.setQResult_schedIndex (r : QResult) (s : State) : (s.setQResult r).schedIndex = s.schedIndex := rfl
@[simp] theorem State.setQResult_inputIndex (r : QResult) (s : State) : (s.setQResult r).inputIndex = s.inputIndex := rfl
@[simp] theorem State.setQResult_out (r : QResult) (s : State) : (s.setQResult r).out = { s.out with qResult := some r } := rfl

/-! ### `State.setKeyChar` -/

@[simp] theorem State.setKeyChar_q (c : Byte) (s : State) : (s.setKeyChar c).q = s.q := rfl
@[simp] theorem State.setKeyChar_dropCount (c : Byte) (s : State) : (s.setKeyChar c).dropCount = s.dropCount := rfl
@[simp] theorem State.setKeyChar_dbCl (c : Byte) (s : State) : (s.setKeyChar c).dbCl = s.dbCl := rfl
@[simp] theorem State.setKeyChar_dbOl (c : Byte) (s : State) : (s.setKeyChar c).dbOl = s.dbOl := rfl
@[simp] theorem State.setKeyChar_kpState (c : Byte) (s : State) : (s.setKeyChar c).kpState = s.kpState := rfl
@[simp] theorem State.setKeyChar_kpCount (c : Byte) (s : State) : (s.setKeyChar c).kpCount = s.kpCount := rfl
@[simp] theorem State.setKeyChar_kpRole (c : Byte) (s : State) : (s.setKeyChar c).kpRole = s.kpRole := rfl
@[simp] theorem State.setKeyChar_dutyOpen (c : Byte) (s : State) : (s.setKeyChar c).dutyOpen = s.dutyOpen := rfl
@[simp] theorem State.setKeyChar_dutyClose (c : Byte) (s : State) : (s.setKeyChar c).dutyClose = s.dutyClose := rfl
@[simp] theorem State.setKeyChar_busPhase (c : Byte) (s : State) : (s.setKeyChar c).busPhase = s.busPhase := rfl
@[simp] theorem State.setKeyChar_busTxDone (c : Byte) (s : State) : (s.setKeyChar c).busTxDone = s.busTxDone := rfl
@[simp] theorem State.setKeyChar_doorState (c : Byte) (s : State) : (s.setKeyChar c).doorState = s.doorState := rfl
@[simp] theorem State.setKeyChar_accValue (c : Byte) (s : State) : (s.setKeyChar c).accValue = s.accValue := rfl
@[simp] theorem State.setKeyChar_accCount (c : Byte) (s : State) : (s.setKeyChar c).accCount = s.accCount := rfl
@[simp] theorem State.setKeyChar_mPending (c : Byte) (s : State) : (s.setKeyChar c).mPending = s.mPending := rfl
@[simp] theorem State.setKeyChar_cfg (c : Byte) (s : State) : (s.setKeyChar c).cfg = s.cfg := rfl
@[simp] theorem State.setKeyChar_stim (c : Byte) (s : State) : (s.setKeyChar c).stim = s.stim := rfl
@[simp] theorem State.setKeyChar_schedIndex (c : Byte) (s : State) : (s.setKeyChar c).schedIndex = s.schedIndex := rfl
@[simp] theorem State.setKeyChar_inputIndex (c : Byte) (s : State) : (s.setKeyChar c).inputIndex = s.inputIndex := rfl
@[simp] theorem State.setKeyChar_out (c : Byte) (s : State) : (s.setKeyChar c).out = { s.out with keyChar := some c } := rfl

/-! ### `State.setDoorView` -/

@[simp] theorem State.setDoorView_q (v : DoorView) (s : State) : (s.setDoorView v).q = s.q := rfl
@[simp] theorem State.setDoorView_dropCount (v : DoorView) (s : State) : (s.setDoorView v).dropCount = s.dropCount := rfl
@[simp] theorem State.setDoorView_dbCl (v : DoorView) (s : State) : (s.setDoorView v).dbCl = s.dbCl := rfl
@[simp] theorem State.setDoorView_dbOl (v : DoorView) (s : State) : (s.setDoorView v).dbOl = s.dbOl := rfl
@[simp] theorem State.setDoorView_kpState (v : DoorView) (s : State) : (s.setDoorView v).kpState = s.kpState := rfl
@[simp] theorem State.setDoorView_kpCount (v : DoorView) (s : State) : (s.setDoorView v).kpCount = s.kpCount := rfl
@[simp] theorem State.setDoorView_kpRole (v : DoorView) (s : State) : (s.setDoorView v).kpRole = s.kpRole := rfl
@[simp] theorem State.setDoorView_dutyOpen (v : DoorView) (s : State) : (s.setDoorView v).dutyOpen = s.dutyOpen := rfl
@[simp] theorem State.setDoorView_dutyClose (v : DoorView) (s : State) : (s.setDoorView v).dutyClose = s.dutyClose := rfl
@[simp] theorem State.setDoorView_busPhase (v : DoorView) (s : State) : (s.setDoorView v).busPhase = s.busPhase := rfl
@[simp] theorem State.setDoorView_busTxDone (v : DoorView) (s : State) : (s.setDoorView v).busTxDone = s.busTxDone := rfl
@[simp] theorem State.setDoorView_doorState (v : DoorView) (s : State) : (s.setDoorView v).doorState = s.doorState := rfl
@[simp] theorem State.setDoorView_accValue (v : DoorView) (s : State) : (s.setDoorView v).accValue = s.accValue := rfl
@[simp] theorem State.setDoorView_accCount (v : DoorView) (s : State) : (s.setDoorView v).accCount = s.accCount := rfl
@[simp] theorem State.setDoorView_mPending (v : DoorView) (s : State) : (s.setDoorView v).mPending = s.mPending := rfl
@[simp] theorem State.setDoorView_cfg (v : DoorView) (s : State) : (s.setDoorView v).cfg = s.cfg := rfl
@[simp] theorem State.setDoorView_stim (v : DoorView) (s : State) : (s.setDoorView v).stim = s.stim := rfl
@[simp] theorem State.setDoorView_schedIndex (v : DoorView) (s : State) : (s.setDoorView v).schedIndex = s.schedIndex := rfl
@[simp] theorem State.setDoorView_inputIndex (v : DoorView) (s : State) : (s.setDoorView v).inputIndex = s.inputIndex := rfl
@[simp] theorem State.setDoorView_out (v : DoorView) (s : State) : (s.setDoorView v).out = { s.out with doorView := some v } := rfl

/-! ### `State.setKpState` -/

@[simp] theorem State.setKpState_q (k : KpState) (s : State) : (s.setKpState k).q = s.q := rfl
@[simp] theorem State.setKpState_dropCount (k : KpState) (s : State) : (s.setKpState k).dropCount = s.dropCount := rfl
@[simp] theorem State.setKpState_dbCl (k : KpState) (s : State) : (s.setKpState k).dbCl = s.dbCl := rfl
@[simp] theorem State.setKpState_dbOl (k : KpState) (s : State) : (s.setKpState k).dbOl = s.dbOl := rfl
@[simp] theorem State.setKpState_kpState (k : KpState) (s : State) : (s.setKpState k).kpState = k := rfl
@[simp] theorem State.setKpState_kpCount (k : KpState) (s : State) : (s.setKpState k).kpCount = s.kpCount := rfl
@[simp] theorem State.setKpState_kpRole (k : KpState) (s : State) : (s.setKpState k).kpRole = s.kpRole := rfl
@[simp] theorem State.setKpState_dutyOpen (k : KpState) (s : State) : (s.setKpState k).dutyOpen = s.dutyOpen := rfl
@[simp] theorem State.setKpState_dutyClose (k : KpState) (s : State) : (s.setKpState k).dutyClose = s.dutyClose := rfl
@[simp] theorem State.setKpState_busPhase (k : KpState) (s : State) : (s.setKpState k).busPhase = s.busPhase := rfl
@[simp] theorem State.setKpState_busTxDone (k : KpState) (s : State) : (s.setKpState k).busTxDone = s.busTxDone := rfl
@[simp] theorem State.setKpState_doorState (k : KpState) (s : State) : (s.setKpState k).doorState = s.doorState := rfl
@[simp] theorem State.setKpState_accValue (k : KpState) (s : State) : (s.setKpState k).accValue = s.accValue := rfl
@[simp] theorem State.setKpState_accCount (k : KpState) (s : State) : (s.setKpState k).accCount = s.accCount := rfl
@[simp] theorem State.setKpState_mPending (k : KpState) (s : State) : (s.setKpState k).mPending = s.mPending := rfl
@[simp] theorem State.setKpState_cfg (k : KpState) (s : State) : (s.setKpState k).cfg = s.cfg := rfl
@[simp] theorem State.setKpState_stim (k : KpState) (s : State) : (s.setKpState k).stim = s.stim := rfl
@[simp] theorem State.setKpState_schedIndex (k : KpState) (s : State) : (s.setKpState k).schedIndex = s.schedIndex := rfl
@[simp] theorem State.setKpState_inputIndex (k : KpState) (s : State) : (s.setKpState k).inputIndex = s.inputIndex := rfl
@[simp] theorem State.setKpState_out (k : KpState) (s : State) : (s.setKpState k).out = s.out := rfl

/-! ### `State.setKpCount` -/

@[simp] theorem State.setKpCount_q (n : Nat) (s : State) : (s.setKpCount n).q = s.q := rfl
@[simp] theorem State.setKpCount_dropCount (n : Nat) (s : State) : (s.setKpCount n).dropCount = s.dropCount := rfl
@[simp] theorem State.setKpCount_dbCl (n : Nat) (s : State) : (s.setKpCount n).dbCl = s.dbCl := rfl
@[simp] theorem State.setKpCount_dbOl (n : Nat) (s : State) : (s.setKpCount n).dbOl = s.dbOl := rfl
@[simp] theorem State.setKpCount_kpState (n : Nat) (s : State) : (s.setKpCount n).kpState = s.kpState := rfl
@[simp] theorem State.setKpCount_kpCount (n : Nat) (s : State) : (s.setKpCount n).kpCount = n := rfl
@[simp] theorem State.setKpCount_kpRole (n : Nat) (s : State) : (s.setKpCount n).kpRole = s.kpRole := rfl
@[simp] theorem State.setKpCount_dutyOpen (n : Nat) (s : State) : (s.setKpCount n).dutyOpen = s.dutyOpen := rfl
@[simp] theorem State.setKpCount_dutyClose (n : Nat) (s : State) : (s.setKpCount n).dutyClose = s.dutyClose := rfl
@[simp] theorem State.setKpCount_busPhase (n : Nat) (s : State) : (s.setKpCount n).busPhase = s.busPhase := rfl
@[simp] theorem State.setKpCount_busTxDone (n : Nat) (s : State) : (s.setKpCount n).busTxDone = s.busTxDone := rfl
@[simp] theorem State.setKpCount_doorState (n : Nat) (s : State) : (s.setKpCount n).doorState = s.doorState := rfl
@[simp] theorem State.setKpCount_accValue (n : Nat) (s : State) : (s.setKpCount n).accValue = s.accValue := rfl
@[simp] theorem State.setKpCount_accCount (n : Nat) (s : State) : (s.setKpCount n).accCount = s.accCount := rfl
@[simp] theorem State.setKpCount_mPending (n : Nat) (s : State) : (s.setKpCount n).mPending = s.mPending := rfl
@[simp] theorem State.setKpCount_cfg (n : Nat) (s : State) : (s.setKpCount n).cfg = s.cfg := rfl
@[simp] theorem State.setKpCount_stim (n : Nat) (s : State) : (s.setKpCount n).stim = s.stim := rfl
@[simp] theorem State.setKpCount_schedIndex (n : Nat) (s : State) : (s.setKpCount n).schedIndex = s.schedIndex := rfl
@[simp] theorem State.setKpCount_inputIndex (n : Nat) (s : State) : (s.setKpCount n).inputIndex = s.inputIndex := rfl
@[simp] theorem State.setKpCount_out (n : Nat) (s : State) : (s.setKpCount n).out = s.out := rfl

/-! ### `State.setKpRole` -/

@[simp] theorem State.setKpRole_q (r : KpRole) (s : State) : (s.setKpRole r).q = s.q := rfl
@[simp] theorem State.setKpRole_dropCount (r : KpRole) (s : State) : (s.setKpRole r).dropCount = s.dropCount := rfl
@[simp] theorem State.setKpRole_dbCl (r : KpRole) (s : State) : (s.setKpRole r).dbCl = s.dbCl := rfl
@[simp] theorem State.setKpRole_dbOl (r : KpRole) (s : State) : (s.setKpRole r).dbOl = s.dbOl := rfl
@[simp] theorem State.setKpRole_kpState (r : KpRole) (s : State) : (s.setKpRole r).kpState = s.kpState := rfl
@[simp] theorem State.setKpRole_kpCount (r : KpRole) (s : State) : (s.setKpRole r).kpCount = s.kpCount := rfl
@[simp] theorem State.setKpRole_kpRole (r : KpRole) (s : State) : (s.setKpRole r).kpRole = r := rfl
@[simp] theorem State.setKpRole_dutyOpen (r : KpRole) (s : State) : (s.setKpRole r).dutyOpen = s.dutyOpen := rfl
@[simp] theorem State.setKpRole_dutyClose (r : KpRole) (s : State) : (s.setKpRole r).dutyClose = s.dutyClose := rfl
@[simp] theorem State.setKpRole_busPhase (r : KpRole) (s : State) : (s.setKpRole r).busPhase = s.busPhase := rfl
@[simp] theorem State.setKpRole_busTxDone (r : KpRole) (s : State) : (s.setKpRole r).busTxDone = s.busTxDone := rfl
@[simp] theorem State.setKpRole_doorState (r : KpRole) (s : State) : (s.setKpRole r).doorState = s.doorState := rfl
@[simp] theorem State.setKpRole_accValue (r : KpRole) (s : State) : (s.setKpRole r).accValue = s.accValue := rfl
@[simp] theorem State.setKpRole_accCount (r : KpRole) (s : State) : (s.setKpRole r).accCount = s.accCount := rfl
@[simp] theorem State.setKpRole_mPending (r : KpRole) (s : State) : (s.setKpRole r).mPending = s.mPending := rfl
@[simp] theorem State.setKpRole_cfg (r : KpRole) (s : State) : (s.setKpRole r).cfg = s.cfg := rfl
@[simp] theorem State.setKpRole_stim (r : KpRole) (s : State) : (s.setKpRole r).stim = s.stim := rfl
@[simp] theorem State.setKpRole_schedIndex (r : KpRole) (s : State) : (s.setKpRole r).schedIndex = s.schedIndex := rfl
@[simp] theorem State.setKpRole_inputIndex (r : KpRole) (s : State) : (s.setKpRole r).inputIndex = s.inputIndex := rfl
@[simp] theorem State.setKpRole_out (r : KpRole) (s : State) : (s.setKpRole r).out = s.out := rfl

/-! ### `State.setDutyOpen` -/

@[simp] theorem State.setDutyOpen_q (d : Byte) (s : State) : (s.setDutyOpen d).q = s.q := rfl
@[simp] theorem State.setDutyOpen_dropCount (d : Byte) (s : State) : (s.setDutyOpen d).dropCount = s.dropCount := rfl
@[simp] theorem State.setDutyOpen_dbCl (d : Byte) (s : State) : (s.setDutyOpen d).dbCl = s.dbCl := rfl
@[simp] theorem State.setDutyOpen_dbOl (d : Byte) (s : State) : (s.setDutyOpen d).dbOl = s.dbOl := rfl
@[simp] theorem State.setDutyOpen_kpState (d : Byte) (s : State) : (s.setDutyOpen d).kpState = s.kpState := rfl
@[simp] theorem State.setDutyOpen_kpCount (d : Byte) (s : State) : (s.setDutyOpen d).kpCount = s.kpCount := rfl
@[simp] theorem State.setDutyOpen_kpRole (d : Byte) (s : State) : (s.setDutyOpen d).kpRole = s.kpRole := rfl
@[simp] theorem State.setDutyOpen_dutyOpen (d : Byte) (s : State) : (s.setDutyOpen d).dutyOpen = d := rfl
@[simp] theorem State.setDutyOpen_dutyClose (d : Byte) (s : State) : (s.setDutyOpen d).dutyClose = s.dutyClose := rfl
@[simp] theorem State.setDutyOpen_busPhase (d : Byte) (s : State) : (s.setDutyOpen d).busPhase = s.busPhase := rfl
@[simp] theorem State.setDutyOpen_busTxDone (d : Byte) (s : State) : (s.setDutyOpen d).busTxDone = s.busTxDone := rfl
@[simp] theorem State.setDutyOpen_doorState (d : Byte) (s : State) : (s.setDutyOpen d).doorState = s.doorState := rfl
@[simp] theorem State.setDutyOpen_accValue (d : Byte) (s : State) : (s.setDutyOpen d).accValue = s.accValue := rfl
@[simp] theorem State.setDutyOpen_accCount (d : Byte) (s : State) : (s.setDutyOpen d).accCount = s.accCount := rfl
@[simp] theorem State.setDutyOpen_mPending (d : Byte) (s : State) : (s.setDutyOpen d).mPending = s.mPending := rfl
@[simp] theorem State.setDutyOpen_cfg (d : Byte) (s : State) : (s.setDutyOpen d).cfg = s.cfg := rfl
@[simp] theorem State.setDutyOpen_stim (d : Byte) (s : State) : (s.setDutyOpen d).stim = s.stim := rfl
@[simp] theorem State.setDutyOpen_schedIndex (d : Byte) (s : State) : (s.setDutyOpen d).schedIndex = s.schedIndex := rfl
@[simp] theorem State.setDutyOpen_inputIndex (d : Byte) (s : State) : (s.setDutyOpen d).inputIndex = s.inputIndex := rfl
@[simp] theorem State.setDutyOpen_out (d : Byte) (s : State) : (s.setDutyOpen d).out = s.out := rfl

/-! ### `State.setDutyClose` -/

@[simp] theorem State.setDutyClose_q (d : Byte) (s : State) : (s.setDutyClose d).q = s.q := rfl
@[simp] theorem State.setDutyClose_dropCount (d : Byte) (s : State) : (s.setDutyClose d).dropCount = s.dropCount := rfl
@[simp] theorem State.setDutyClose_dbCl (d : Byte) (s : State) : (s.setDutyClose d).dbCl = s.dbCl := rfl
@[simp] theorem State.setDutyClose_dbOl (d : Byte) (s : State) : (s.setDutyClose d).dbOl = s.dbOl := rfl
@[simp] theorem State.setDutyClose_kpState (d : Byte) (s : State) : (s.setDutyClose d).kpState = s.kpState := rfl
@[simp] theorem State.setDutyClose_kpCount (d : Byte) (s : State) : (s.setDutyClose d).kpCount = s.kpCount := rfl
@[simp] theorem State.setDutyClose_kpRole (d : Byte) (s : State) : (s.setDutyClose d).kpRole = s.kpRole := rfl
@[simp] theorem State.setDutyClose_dutyOpen (d : Byte) (s : State) : (s.setDutyClose d).dutyOpen = s.dutyOpen := rfl
@[simp] theorem State.setDutyClose_dutyClose (d : Byte) (s : State) : (s.setDutyClose d).dutyClose = d := rfl
@[simp] theorem State.setDutyClose_busPhase (d : Byte) (s : State) : (s.setDutyClose d).busPhase = s.busPhase := rfl
@[simp] theorem State.setDutyClose_busTxDone (d : Byte) (s : State) : (s.setDutyClose d).busTxDone = s.busTxDone := rfl
@[simp] theorem State.setDutyClose_doorState (d : Byte) (s : State) : (s.setDutyClose d).doorState = s.doorState := rfl
@[simp] theorem State.setDutyClose_accValue (d : Byte) (s : State) : (s.setDutyClose d).accValue = s.accValue := rfl
@[simp] theorem State.setDutyClose_accCount (d : Byte) (s : State) : (s.setDutyClose d).accCount = s.accCount := rfl
@[simp] theorem State.setDutyClose_mPending (d : Byte) (s : State) : (s.setDutyClose d).mPending = s.mPending := rfl
@[simp] theorem State.setDutyClose_cfg (d : Byte) (s : State) : (s.setDutyClose d).cfg = s.cfg := rfl
@[simp] theorem State.setDutyClose_stim (d : Byte) (s : State) : (s.setDutyClose d).stim = s.stim := rfl
@[simp] theorem State.setDutyClose_schedIndex (d : Byte) (s : State) : (s.setDutyClose d).schedIndex = s.schedIndex := rfl
@[simp] theorem State.setDutyClose_inputIndex (d : Byte) (s : State) : (s.setDutyClose d).inputIndex = s.inputIndex := rfl
@[simp] theorem State.setDutyClose_out (d : Byte) (s : State) : (s.setDutyClose d).out = s.out := rfl

/-! ### `State.setBusPhase` -/

@[simp] theorem State.setBusPhase_q (p : BitVec 1) (s : State) : (s.setBusPhase p).q = s.q := rfl
@[simp] theorem State.setBusPhase_dropCount (p : BitVec 1) (s : State) : (s.setBusPhase p).dropCount = s.dropCount := rfl
@[simp] theorem State.setBusPhase_dbCl (p : BitVec 1) (s : State) : (s.setBusPhase p).dbCl = s.dbCl := rfl
@[simp] theorem State.setBusPhase_dbOl (p : BitVec 1) (s : State) : (s.setBusPhase p).dbOl = s.dbOl := rfl
@[simp] theorem State.setBusPhase_kpState (p : BitVec 1) (s : State) : (s.setBusPhase p).kpState = s.kpState := rfl
@[simp] theorem State.setBusPhase_kpCount (p : BitVec 1) (s : State) : (s.setBusPhase p).kpCount = s.kpCount := rfl
@[simp] theorem State.setBusPhase_kpRole (p : BitVec 1) (s : State) : (s.setBusPhase p).kpRole = s.kpRole := rfl
@[simp] theorem State.setBusPhase_dutyOpen (p : BitVec 1) (s : State) : (s.setBusPhase p).dutyOpen = s.dutyOpen := rfl
@[simp] theorem State.setBusPhase_dutyClose (p : BitVec 1) (s : State) : (s.setBusPhase p).dutyClose = s.dutyClose := rfl
@[simp] theorem State.setBusPhase_busPhase (p : BitVec 1) (s : State) : (s.setBusPhase p).busPhase = p := rfl
@[simp] theorem State.setBusPhase_busTxDone (p : BitVec 1) (s : State) : (s.setBusPhase p).busTxDone = s.busTxDone := rfl
@[simp] theorem State.setBusPhase_doorState (p : BitVec 1) (s : State) : (s.setBusPhase p).doorState = s.doorState := rfl
@[simp] theorem State.setBusPhase_accValue (p : BitVec 1) (s : State) : (s.setBusPhase p).accValue = s.accValue := rfl
@[simp] theorem State.setBusPhase_accCount (p : BitVec 1) (s : State) : (s.setBusPhase p).accCount = s.accCount := rfl
@[simp] theorem State.setBusPhase_mPending (p : BitVec 1) (s : State) : (s.setBusPhase p).mPending = s.mPending := rfl
@[simp] theorem State.setBusPhase_cfg (p : BitVec 1) (s : State) : (s.setBusPhase p).cfg = s.cfg := rfl
@[simp] theorem State.setBusPhase_stim (p : BitVec 1) (s : State) : (s.setBusPhase p).stim = s.stim := rfl
@[simp] theorem State.setBusPhase_schedIndex (p : BitVec 1) (s : State) : (s.setBusPhase p).schedIndex = s.schedIndex := rfl
@[simp] theorem State.setBusPhase_inputIndex (p : BitVec 1) (s : State) : (s.setBusPhase p).inputIndex = s.inputIndex := rfl
@[simp] theorem State.setBusPhase_out (p : BitVec 1) (s : State) : (s.setBusPhase p).out = s.out := rfl

/-! ### `State.setBusTxDone` -/

@[simp] theorem State.setBusTxDone_q (b : Bool) (s : State) : (s.setBusTxDone b).q = s.q := rfl
@[simp] theorem State.setBusTxDone_dropCount (b : Bool) (s : State) : (s.setBusTxDone b).dropCount = s.dropCount := rfl
@[simp] theorem State.setBusTxDone_dbCl (b : Bool) (s : State) : (s.setBusTxDone b).dbCl = s.dbCl := rfl
@[simp] theorem State.setBusTxDone_dbOl (b : Bool) (s : State) : (s.setBusTxDone b).dbOl = s.dbOl := rfl
@[simp] theorem State.setBusTxDone_kpState (b : Bool) (s : State) : (s.setBusTxDone b).kpState = s.kpState := rfl
@[simp] theorem State.setBusTxDone_kpCount (b : Bool) (s : State) : (s.setBusTxDone b).kpCount = s.kpCount := rfl
@[simp] theorem State.setBusTxDone_kpRole (b : Bool) (s : State) : (s.setBusTxDone b).kpRole = s.kpRole := rfl
@[simp] theorem State.setBusTxDone_dutyOpen (b : Bool) (s : State) : (s.setBusTxDone b).dutyOpen = s.dutyOpen := rfl
@[simp] theorem State.setBusTxDone_dutyClose (b : Bool) (s : State) : (s.setBusTxDone b).dutyClose = s.dutyClose := rfl
@[simp] theorem State.setBusTxDone_busPhase (b : Bool) (s : State) : (s.setBusTxDone b).busPhase = s.busPhase := rfl
@[simp] theorem State.setBusTxDone_busTxDone (b : Bool) (s : State) : (s.setBusTxDone b).busTxDone = b := rfl
@[simp] theorem State.setBusTxDone_doorState (b : Bool) (s : State) : (s.setBusTxDone b).doorState = s.doorState := rfl
@[simp] theorem State.setBusTxDone_accValue (b : Bool) (s : State) : (s.setBusTxDone b).accValue = s.accValue := rfl
@[simp] theorem State.setBusTxDone_accCount (b : Bool) (s : State) : (s.setBusTxDone b).accCount = s.accCount := rfl
@[simp] theorem State.setBusTxDone_mPending (b : Bool) (s : State) : (s.setBusTxDone b).mPending = s.mPending := rfl
@[simp] theorem State.setBusTxDone_cfg (b : Bool) (s : State) : (s.setBusTxDone b).cfg = s.cfg := rfl
@[simp] theorem State.setBusTxDone_stim (b : Bool) (s : State) : (s.setBusTxDone b).stim = s.stim := rfl
@[simp] theorem State.setBusTxDone_schedIndex (b : Bool) (s : State) : (s.setBusTxDone b).schedIndex = s.schedIndex := rfl
@[simp] theorem State.setBusTxDone_inputIndex (b : Bool) (s : State) : (s.setBusTxDone b).inputIndex = s.inputIndex := rfl
@[simp] theorem State.setBusTxDone_out (b : Bool) (s : State) : (s.setBusTxDone b).out = s.out := rfl

/-! ### `State.setDoor` -/

@[simp] theorem State.setDoor_q (d : DoorCode) (s : State) : (s.setDoor d).q = s.q := rfl
@[simp] theorem State.setDoor_dropCount (d : DoorCode) (s : State) : (s.setDoor d).dropCount = s.dropCount := rfl
@[simp] theorem State.setDoor_dbCl (d : DoorCode) (s : State) : (s.setDoor d).dbCl = s.dbCl := rfl
@[simp] theorem State.setDoor_dbOl (d : DoorCode) (s : State) : (s.setDoor d).dbOl = s.dbOl := rfl
@[simp] theorem State.setDoor_kpState (d : DoorCode) (s : State) : (s.setDoor d).kpState = s.kpState := rfl
@[simp] theorem State.setDoor_kpCount (d : DoorCode) (s : State) : (s.setDoor d).kpCount = s.kpCount := rfl
@[simp] theorem State.setDoor_kpRole (d : DoorCode) (s : State) : (s.setDoor d).kpRole = s.kpRole := rfl
@[simp] theorem State.setDoor_dutyOpen (d : DoorCode) (s : State) : (s.setDoor d).dutyOpen = s.dutyOpen := rfl
@[simp] theorem State.setDoor_dutyClose (d : DoorCode) (s : State) : (s.setDoor d).dutyClose = s.dutyClose := rfl
@[simp] theorem State.setDoor_busPhase (d : DoorCode) (s : State) : (s.setDoor d).busPhase = s.busPhase := rfl
@[simp] theorem State.setDoor_busTxDone (d : DoorCode) (s : State) : (s.setDoor d).busTxDone = s.busTxDone := rfl
@[simp] theorem State.setDoor_doorState (d : DoorCode) (s : State) : (s.setDoor d).doorState = d := rfl
@[simp] theorem State.setDoor_accValue (d : DoorCode) (s : State) : (s.setDoor d).accValue = s.accValue := rfl
@[simp] theorem State.setDoor_accCount (d : DoorCode) (s : State) : (s.setDoor d).accCount = s.accCount := rfl
@[simp] theorem State.setDoor_mPending (d : DoorCode) (s : State) : (s.setDoor d).mPending = s.mPending := rfl
@[simp] theorem State.setDoor_cfg (d : DoorCode) (s : State) : (s.setDoor d).cfg = s.cfg := rfl
@[simp] theorem State.setDoor_stim (d : DoorCode) (s : State) : (s.setDoor d).stim = s.stim := rfl
@[simp] theorem State.setDoor_schedIndex (d : DoorCode) (s : State) : (s.setDoor d).schedIndex = s.schedIndex := rfl
@[simp] theorem State.setDoor_inputIndex (d : DoorCode) (s : State) : (s.setDoor d).inputIndex = s.inputIndex := rfl
@[simp] theorem State.setDoor_out (d : DoorCode) (s : State) : (s.setDoor d).out = s.out := rfl

/-! ### `State.setAcc` -/

@[simp] theorem State.setAcc_q (v : BitVec 16) (n : Nat) (s : State) : (s.setAcc v n).q = s.q := rfl
@[simp] theorem State.setAcc_dropCount (v : BitVec 16) (n : Nat) (s : State) : (s.setAcc v n).dropCount = s.dropCount := rfl
@[simp] theorem State.setAcc_dbCl (v : BitVec 16) (n : Nat) (s : State) : (s.setAcc v n).dbCl = s.dbCl := rfl
@[simp] theorem State.setAcc_dbOl (v : BitVec 16) (n : Nat) (s : State) : (s.setAcc v n).dbOl = s.dbOl := rfl
@[simp] theorem State.setAcc_kpState (v : BitVec 16) (n : Nat) (s : State) : (s.setAcc v n).kpState = s.kpState := rfl
@[simp] theorem State.setAcc_kpCount (v : BitVec 16) (n : Nat) (s : State) : (s.setAcc v n).kpCount = s.kpCount := rfl
@[simp] theorem State.setAcc_kpRole (v : BitVec 16) (n : Nat) (s : State) : (s.setAcc v n).kpRole = s.kpRole := rfl
@[simp] theorem State.setAcc_dutyOpen (v : BitVec 16) (n : Nat) (s : State) : (s.setAcc v n).dutyOpen = s.dutyOpen := rfl
@[simp] theorem State.setAcc_dutyClose (v : BitVec 16) (n : Nat) (s : State) : (s.setAcc v n).dutyClose = s.dutyClose := rfl
@[simp] theorem State.setAcc_busPhase (v : BitVec 16) (n : Nat) (s : State) : (s.setAcc v n).busPhase = s.busPhase := rfl
@[simp] theorem State.setAcc_busTxDone (v : BitVec 16) (n : Nat) (s : State) : (s.setAcc v n).busTxDone = s.busTxDone := rfl
@[simp] theorem State.setAcc_doorState (v : BitVec 16) (n : Nat) (s : State) : (s.setAcc v n).doorState = s.doorState := rfl
@[simp] theorem State.setAcc_accValue (v : BitVec 16) (n : Nat) (s : State) : (s.setAcc v n).accValue = v := rfl
@[simp] theorem State.setAcc_accCount (v : BitVec 16) (n : Nat) (s : State) : (s.setAcc v n).accCount = n := rfl
@[simp] theorem State.setAcc_mPending (v : BitVec 16) (n : Nat) (s : State) : (s.setAcc v n).mPending = s.mPending := rfl
@[simp] theorem State.setAcc_cfg (v : BitVec 16) (n : Nat) (s : State) : (s.setAcc v n).cfg = s.cfg := rfl
@[simp] theorem State.setAcc_stim (v : BitVec 16) (n : Nat) (s : State) : (s.setAcc v n).stim = s.stim := rfl
@[simp] theorem State.setAcc_schedIndex (v : BitVec 16) (n : Nat) (s : State) : (s.setAcc v n).schedIndex = s.schedIndex := rfl
@[simp] theorem State.setAcc_inputIndex (v : BitVec 16) (n : Nat) (s : State) : (s.setAcc v n).inputIndex = s.inputIndex := rfl
@[simp] theorem State.setAcc_out (v : BitVec 16) (n : Nat) (s : State) : (s.setAcc v n).out = s.out := rfl

/-! ### `State.setPending` -/

@[simp] theorem State.setPending_q (p : Option Ev) (s : State) : (s.setPending p).q = s.q := rfl
@[simp] theorem State.setPending_dropCount (p : Option Ev) (s : State) : (s.setPending p).dropCount = s.dropCount := rfl
@[simp] theorem State.setPending_dbCl (p : Option Ev) (s : State) : (s.setPending p).dbCl = s.dbCl := rfl
@[simp] theorem State.setPending_dbOl (p : Option Ev) (s : State) : (s.setPending p).dbOl = s.dbOl := rfl
@[simp] theorem State.setPending_kpState (p : Option Ev) (s : State) : (s.setPending p).kpState = s.kpState := rfl
@[simp] theorem State.setPending_kpCount (p : Option Ev) (s : State) : (s.setPending p).kpCount = s.kpCount := rfl
@[simp] theorem State.setPending_kpRole (p : Option Ev) (s : State) : (s.setPending p).kpRole = s.kpRole := rfl
@[simp] theorem State.setPending_dutyOpen (p : Option Ev) (s : State) : (s.setPending p).dutyOpen = s.dutyOpen := rfl
@[simp] theorem State.setPending_dutyClose (p : Option Ev) (s : State) : (s.setPending p).dutyClose = s.dutyClose := rfl
@[simp] theorem State.setPending_busPhase (p : Option Ev) (s : State) : (s.setPending p).busPhase = s.busPhase := rfl
@[simp] theorem State.setPending_busTxDone (p : Option Ev) (s : State) : (s.setPending p).busTxDone = s.busTxDone := rfl
@[simp] theorem State.setPending_doorState (p : Option Ev) (s : State) : (s.setPending p).doorState = s.doorState := rfl
@[simp] theorem State.setPending_accValue (p : Option Ev) (s : State) : (s.setPending p).accValue = s.accValue := rfl
@[simp] theorem State.setPending_accCount (p : Option Ev) (s : State) : (s.setPending p).accCount = s.accCount := rfl
@[simp] theorem State.setPending_mPending (p : Option Ev) (s : State) : (s.setPending p).mPending = p := rfl
@[simp] theorem State.setPending_cfg (p : Option Ev) (s : State) : (s.setPending p).cfg = s.cfg := rfl
@[simp] theorem State.setPending_stim (p : Option Ev) (s : State) : (s.setPending p).stim = s.stim := rfl
@[simp] theorem State.setPending_schedIndex (p : Option Ev) (s : State) : (s.setPending p).schedIndex = s.schedIndex := rfl
@[simp] theorem State.setPending_inputIndex (p : Option Ev) (s : State) : (s.setPending p).inputIndex = s.inputIndex := rfl
@[simp] theorem State.setPending_out (p : Option Ev) (s : State) : (s.setPending p).out = s.out := rfl

/-! ### `State.raise` -/

@[simp] theorem State.raise_q (c : Cause) (s : State) : (s.raise c).q = s.q := rfl
@[simp] theorem State.raise_dbCl (c : Cause) (s : State) : (s.raise c).dbCl = s.dbCl := rfl
@[simp] theorem State.raise_dbOl (c : Cause) (s : State) : (s.raise c).dbOl = s.dbOl := rfl
@[simp] theorem State.raise_kpState (c : Cause) (s : State) : (s.raise c).kpState = s.kpState := rfl
@[simp] theorem State.raise_kpCount (c : Cause) (s : State) : (s.raise c).kpCount = s.kpCount := rfl
@[simp] theorem State.raise_kpRole (c : Cause) (s : State) : (s.raise c).kpRole = s.kpRole := rfl
@[simp] theorem State.raise_dutyOpen (c : Cause) (s : State) : (s.raise c).dutyOpen = s.dutyOpen := rfl
@[simp] theorem State.raise_dutyClose (c : Cause) (s : State) : (s.raise c).dutyClose = s.dutyClose := rfl
@[simp] theorem State.raise_busPhase (c : Cause) (s : State) : (s.raise c).busPhase = s.busPhase := rfl
@[simp] theorem State.raise_busTxDone (c : Cause) (s : State) : (s.raise c).busTxDone = s.busTxDone := rfl
@[simp] theorem State.raise_doorState (c : Cause) (s : State) : (s.raise c).doorState = s.doorState := rfl
@[simp] theorem State.raise_accValue (c : Cause) (s : State) : (s.raise c).accValue = s.accValue := rfl
@[simp] theorem State.raise_accCount (c : Cause) (s : State) : (s.raise c).accCount = s.accCount := rfl
@[simp] theorem State.raise_mPending (c : Cause) (s : State) : (s.raise c).mPending = s.mPending := rfl
@[simp] theorem State.raise_cfg (c : Cause) (s : State) : (s.raise c).cfg = s.cfg := rfl
@[simp] theorem State.raise_stim (c : Cause) (s : State) : (s.raise c).stim = s.stim := rfl
@[simp] theorem State.raise_schedIndex (c : Cause) (s : State) : (s.raise c).schedIndex = s.schedIndex := rfl
@[simp] theorem State.raise_inputIndex (c : Cause) (s : State) : (s.raise c).inputIndex = s.inputIndex := rfl
@[simp] theorem State.raise_out (c : Cause) (s : State) : (s.raise c).out = { s.out with causes := s.out.causes ++ [c] } := rfl

/-! ### `State.consume` -/

@[simp] theorem State.consume_q (s : State) : (s.consume).q = s.q := rfl
@[simp] theorem State.consume_dropCount (s : State) : (s.consume).dropCount = s.dropCount := rfl
@[simp] theorem State.consume_dbCl (s : State) : (s.consume).dbCl = s.dbCl := rfl
@[simp] theorem State.consume_dbOl (s : State) : (s.consume).dbOl = s.dbOl := rfl
@[simp] theorem State.consume_kpState (s : State) : (s.consume).kpState = s.kpState := rfl
@[simp] theorem State.consume_kpCount (s : State) : (s.consume).kpCount = s.kpCount := rfl
@[simp] theorem State.consume_kpRole (s : State) : (s.consume).kpRole = s.kpRole := rfl
@[simp] theorem State.consume_dutyOpen (s : State) : (s.consume).dutyOpen = s.dutyOpen := rfl
@[simp] theorem State.consume_dutyClose (s : State) : (s.consume).dutyClose = s.dutyClose := rfl
@[simp] theorem State.consume_busPhase (s : State) : (s.consume).busPhase = s.busPhase := rfl
@[simp] theorem State.consume_busTxDone (s : State) : (s.consume).busTxDone = s.busTxDone := rfl
@[simp] theorem State.consume_doorState (s : State) : (s.consume).doorState = s.doorState := rfl
@[simp] theorem State.consume_accValue (s : State) : (s.consume).accValue = s.accValue := rfl
@[simp] theorem State.consume_accCount (s : State) : (s.consume).accCount = s.accCount := rfl
@[simp] theorem State.consume_mPending (s : State) : (s.consume).mPending = s.mPending := rfl
@[simp] theorem State.consume_cfg (s : State) : (s.consume).cfg = s.cfg := rfl
@[simp] theorem State.consume_stim (s : State) : (s.consume).stim = s.stim.tail := rfl
@[simp] theorem State.consume_schedIndex (s : State) : (s.consume).schedIndex = s.schedIndex := rfl
@[simp] theorem State.consume_inputIndex (s : State) : (s.consume).inputIndex = s.inputIndex := rfl
@[simp] theorem State.consume_out (s : State) : (s.consume).out = s.out := rfl

/-! ### `State.advance` -/

@[simp] theorem State.advance_q (s : State) : (s.advance).q = s.q := rfl
@[simp] theorem State.advance_dropCount (s : State) : (s.advance).dropCount = s.dropCount := rfl
@[simp] theorem State.advance_dbCl (s : State) : (s.advance).dbCl = s.dbCl := rfl
@[simp] theorem State.advance_dbOl (s : State) : (s.advance).dbOl = s.dbOl := rfl
@[simp] theorem State.advance_kpState (s : State) : (s.advance).kpState = s.kpState := rfl
@[simp] theorem State.advance_kpCount (s : State) : (s.advance).kpCount = s.kpCount := rfl
@[simp] theorem State.advance_kpRole (s : State) : (s.advance).kpRole = s.kpRole := rfl
@[simp] theorem State.advance_dutyOpen (s : State) : (s.advance).dutyOpen = s.dutyOpen := rfl
@[simp] theorem State.advance_dutyClose (s : State) : (s.advance).dutyClose = s.dutyClose := rfl
@[simp] theorem State.advance_busPhase (s : State) : (s.advance).busPhase = s.busPhase := rfl
@[simp] theorem State.advance_busTxDone (s : State) : (s.advance).busTxDone = s.busTxDone := rfl
@[simp] theorem State.advance_doorState (s : State) : (s.advance).doorState = s.doorState := rfl
@[simp] theorem State.advance_accValue (s : State) : (s.advance).accValue = s.accValue := rfl
@[simp] theorem State.advance_accCount (s : State) : (s.advance).accCount = s.accCount := rfl
@[simp] theorem State.advance_mPending (s : State) : (s.advance).mPending = s.mPending := rfl
@[simp] theorem State.advance_cfg (s : State) : (s.advance).cfg = s.cfg := rfl
@[simp] theorem State.advance_stim (s : State) : (s.advance).stim = s.stim := rfl
@[simp] theorem State.advance_schedIndex (s : State) : (s.advance).schedIndex = s.schedIndex + 1 := rfl
@[simp] theorem State.advance_inputIndex (s : State) : (s.advance).inputIndex = s.inputIndex := rfl
@[simp] theorem State.advance_out (s : State) : (s.advance).out = s.out := rfl

/-! ### `State.takeInput` -/

@[simp] theorem State.takeInput_q (s : State) : (s.takeInput).q = s.q := rfl
@[simp] theorem State.takeInput_dropCount (s : State) : (s.takeInput).dropCount = s.dropCount := rfl
@[simp] theorem State.takeInput_dbCl (s : State) : (s.takeInput).dbCl = s.dbCl := rfl
@[simp] theorem State.takeInput_dbOl (s : State) : (s.takeInput).dbOl = s.dbOl := rfl
@[simp] theorem State.takeInput_kpState (s : State) : (s.takeInput).kpState = s.kpState := rfl
@[simp] theorem State.takeInput_kpCount (s : State) : (s.takeInput).kpCount = s.kpCount := rfl
@[simp] theorem State.takeInput_kpRole (s : State) : (s.takeInput).kpRole = s.kpRole := rfl
@[simp] theorem State.takeInput_dutyOpen (s : State) : (s.takeInput).dutyOpen = s.dutyOpen := rfl
@[simp] theorem State.takeInput_dutyClose (s : State) : (s.takeInput).dutyClose = s.dutyClose := rfl
@[simp] theorem State.takeInput_busPhase (s : State) : (s.takeInput).busPhase = s.busPhase := rfl
@[simp] theorem State.takeInput_busTxDone (s : State) : (s.takeInput).busTxDone = s.busTxDone := rfl
@[simp] theorem State.takeInput_doorState (s : State) : (s.takeInput).doorState = s.doorState := rfl
@[simp] theorem State.takeInput_accValue (s : State) : (s.takeInput).accValue = s.accValue := rfl
@[simp] theorem State.takeInput_accCount (s : State) : (s.takeInput).accCount = s.accCount := rfl
@[simp] theorem State.takeInput_mPending (s : State) : (s.takeInput).mPending = s.mPending := rfl
@[simp] theorem State.takeInput_cfg (s : State) : (s.takeInput).cfg = s.cfg := rfl
@[simp] theorem State.takeInput_stim (s : State) : (s.takeInput).stim = s.stim := rfl
@[simp] theorem State.takeInput_schedIndex (s : State) : (s.takeInput).schedIndex = s.schedIndex := rfl
@[simp] theorem State.takeInput_inputIndex (s : State) : (s.takeInput).inputIndex = s.inputIndex + 1 := rfl
@[simp] theorem State.takeInput_out (s : State) : (s.takeInput).out = s.out := rfl

/-! ### `State.present` -/

@[simp] theorem State.present_q (w : Stim) (s : State) : (s.present w).q = s.q := rfl
@[simp] theorem State.present_dropCount (w : Stim) (s : State) : (s.present w).dropCount = s.dropCount := rfl
@[simp] theorem State.present_dbCl (w : Stim) (s : State) : (s.present w).dbCl = s.dbCl := rfl
@[simp] theorem State.present_dbOl (w : Stim) (s : State) : (s.present w).dbOl = s.dbOl := rfl
@[simp] theorem State.present_kpState (w : Stim) (s : State) : (s.present w).kpState = s.kpState := rfl
@[simp] theorem State.present_kpCount (w : Stim) (s : State) : (s.present w).kpCount = s.kpCount := rfl
@[simp] theorem State.present_kpRole (w : Stim) (s : State) : (s.present w).kpRole = s.kpRole := rfl
@[simp] theorem State.present_dutyOpen (w : Stim) (s : State) : (s.present w).dutyOpen = s.dutyOpen := rfl
@[simp] theorem State.present_dutyClose (w : Stim) (s : State) : (s.present w).dutyClose = s.dutyClose := rfl
@[simp] theorem State.present_busPhase (w : Stim) (s : State) : (s.present w).busPhase = s.busPhase := rfl
@[simp] theorem State.present_busTxDone (w : Stim) (s : State) : (s.present w).busTxDone = s.busTxDone := rfl
@[simp] theorem State.present_doorState (w : Stim) (s : State) : (s.present w).doorState = s.doorState := rfl
@[simp] theorem State.present_accValue (w : Stim) (s : State) : (s.present w).accValue = s.accValue := rfl
@[simp] theorem State.present_accCount (w : Stim) (s : State) : (s.present w).accCount = s.accCount := rfl
@[simp] theorem State.present_mPending (w : Stim) (s : State) : (s.present w).mPending = s.mPending := rfl
@[simp] theorem State.present_cfg (w : Stim) (s : State) : (s.present w).cfg = s.cfg := rfl
@[simp] theorem State.present_stim (w : Stim) (s : State) : (s.present w).stim = w :: s.stim := rfl
@[simp] theorem State.present_schedIndex (w : Stim) (s : State) : (s.present w).schedIndex = s.schedIndex := rfl
@[simp] theorem State.present_inputIndex (w : Stim) (s : State) : (s.present w).inputIndex = s.inputIndex := rfl
@[simp] theorem State.present_out (w : Stim) (s : State) : (s.present w).out = s.out := rfl

/-! ### `State.raise` on `drop_count`, by cause -/

@[simp] theorem State.raise_queueFull_dropCount (e : Ev) (s : State) :
    (s.raise (.queueFull e)).dropCount = saturatingSucc s.dropCount := rfl
@[simp] theorem State.raise_scanUnresolved_dropCount (x y : Lines) (s : State) :
    (s.raise (.scanUnresolved x y)).dropCount = s.dropCount := rfl
@[simp] theorem State.raise_busDesync_dropCount (k : BitVec 3) (s : State) :
    (s.raise (.busDesync k)).dropCount = s.dropCount := rfl
@[simp] theorem State.raise_invalidDoorState_dropCount (s : State) :
    (s.raise .invalidDoorState).dropCount = s.dropCount := rfl

/-! ### `State.setDb` -/

@[simp] theorem State.setDb_q (i : Switch) (d : Debounce) (s : State) : (s.setDb i d).q = s.q := by cases i <;> rfl
@[simp] theorem State.setDb_dropCount (i : Switch) (d : Debounce) (s : State) : (s.setDb i d).dropCount = s.dropCount := by cases i <;> rfl
@[simp] theorem State.setDb_kpState (i : Switch) (d : Debounce) (s : State) : (s.setDb i d).kpState = s.kpState := by cases i <;> rfl
@[simp] theorem State.setDb_kpCount (i : Switch) (d : Debounce) (s : State) : (s.setDb i d).kpCount = s.kpCount := by cases i <;> rfl
@[simp] theorem State.setDb_kpRole (i : Switch) (d : Debounce) (s : State) : (s.setDb i d).kpRole = s.kpRole := by cases i <;> rfl
@[simp] theorem State.setDb_dutyOpen (i : Switch) (d : Debounce) (s : State) : (s.setDb i d).dutyOpen = s.dutyOpen := by cases i <;> rfl
@[simp] theorem State.setDb_dutyClose (i : Switch) (d : Debounce) (s : State) : (s.setDb i d).dutyClose = s.dutyClose := by cases i <;> rfl
@[simp] theorem State.setDb_busPhase (i : Switch) (d : Debounce) (s : State) : (s.setDb i d).busPhase = s.busPhase := by cases i <;> rfl
@[simp] theorem State.setDb_busTxDone (i : Switch) (d : Debounce) (s : State) : (s.setDb i d).busTxDone = s.busTxDone := by cases i <;> rfl
@[simp] theorem State.setDb_doorState (i : Switch) (d : Debounce) (s : State) : (s.setDb i d).doorState = s.doorState := by cases i <;> rfl
@[simp] theorem State.setDb_accValue (i : Switch) (d : Debounce) (s : State) : (s.setDb i d).accValue = s.accValue := by cases i <;> rfl
@[simp] theorem State.setDb_accCount (i : Switch) (d : Debounce) (s : State) : (s.setDb i d).accCount = s.accCount := by cases i <;> rfl
@[simp] theorem State.setDb_mPending (i : Switch) (d : Debounce) (s : State) : (s.setDb i d).mPending = s.mPending := by cases i <;> rfl
@[simp] theorem State.setDb_cfg (i : Switch) (d : Debounce) (s : State) : (s.setDb i d).cfg = s.cfg := by cases i <;> rfl
@[simp] theorem State.setDb_stim (i : Switch) (d : Debounce) (s : State) : (s.setDb i d).stim = s.stim := by cases i <;> rfl
@[simp] theorem State.setDb_schedIndex (i : Switch) (d : Debounce) (s : State) : (s.setDb i d).schedIndex = s.schedIndex := by cases i <;> rfl
@[simp] theorem State.setDb_inputIndex (i : Switch) (d : Debounce) (s : State) : (s.setDb i d).inputIndex = s.inputIndex := by cases i <;> rfl
@[simp] theorem State.setDb_out (i : Switch) (d : Debounce) (s : State) : (s.setDb i d).out = s.out := by cases i <;> rfl

@[simp] theorem State.setDb_cl_dbCl (d : Debounce) (s : State) : (s.setDb .cl d).dbCl = d := rfl
@[simp] theorem State.setDb_cl_dbOl (d : Debounce) (s : State) : (s.setDb .cl d).dbOl = s.dbOl := rfl
@[simp] theorem State.setDb_ol_dbCl (d : Debounce) (s : State) : (s.setDb .ol d).dbCl = s.dbCl := rfl
@[simp] theorem State.setDb_ol_dbOl (d : Debounce) (s : State) : (s.setDb .ol d).dbOl = d := rfl
@[simp] theorem State.db_cl (s : State) : s.db .cl = s.dbCl := rfl
@[simp] theorem State.db_ol (s : State) : s.db .ol = s.dbOl := rfl
@[simp] theorem State.db_setDb (i : Switch) (d : Debounce) (s : State) : (s.setDb i d).db i = d := by cases i <;> rfl

/-! ### `State.resetRegisters` -/

@[simp] theorem State.resetRegisters_q (s : State) : s.resetRegisters.q = State.reset.q := rfl
@[simp] theorem State.resetRegisters_dropCount (s : State) : s.resetRegisters.dropCount = State.reset.dropCount := rfl
@[simp] theorem State.resetRegisters_dbCl (s : State) : s.resetRegisters.dbCl = State.reset.dbCl := rfl
@[simp] theorem State.resetRegisters_dbOl (s : State) : s.resetRegisters.dbOl = State.reset.dbOl := rfl
@[simp] theorem State.resetRegisters_kpState (s : State) : s.resetRegisters.kpState = State.reset.kpState := rfl
@[simp] theorem State.resetRegisters_kpCount (s : State) : s.resetRegisters.kpCount = State.reset.kpCount := rfl
@[simp] theorem State.resetRegisters_kpRole (s : State) : s.resetRegisters.kpRole = State.reset.kpRole := rfl
@[simp] theorem State.resetRegisters_dutyOpen (s : State) : s.resetRegisters.dutyOpen = State.reset.dutyOpen := rfl
@[simp] theorem State.resetRegisters_dutyClose (s : State) : s.resetRegisters.dutyClose = State.reset.dutyClose := rfl
@[simp] theorem State.resetRegisters_busPhase (s : State) : s.resetRegisters.busPhase = State.reset.busPhase := rfl
@[simp] theorem State.resetRegisters_busTxDone (s : State) : s.resetRegisters.busTxDone = State.reset.busTxDone := rfl
@[simp] theorem State.resetRegisters_doorState (s : State) : s.resetRegisters.doorState = State.reset.doorState := rfl
@[simp] theorem State.resetRegisters_accValue (s : State) : s.resetRegisters.accValue = State.reset.accValue := rfl
@[simp] theorem State.resetRegisters_accCount (s : State) : s.resetRegisters.accCount = State.reset.accCount := rfl
@[simp] theorem State.resetRegisters_mPending (s : State) : s.resetRegisters.mPending = State.reset.mPending := rfl
@[simp] theorem State.resetRegisters_cfg (s : State) : s.resetRegisters.cfg = s.cfg := rfl
@[simp] theorem State.resetRegisters_stim (s : State) : s.resetRegisters.stim = s.stim := rfl
@[simp] theorem State.resetRegisters_schedIndex (s : State) : s.resetRegisters.schedIndex = s.schedIndex := rfl
@[simp] theorem State.resetRegisters_inputIndex (s : State) : s.resetRegisters.inputIndex = s.inputIndex := rfl
@[simp] theorem State.resetRegisters_out (s : State) : s.resetRegisters.out = State.reset.out := rfl

end Sys2Proof.Machine
end

