-- ==== Sys2Proof/Laws/Ops.lean ====
section
/-! SUPPORT. For each shared operation, once: everything it can do. -/

namespace Sys2Proof.Machine

open Sys2Proof.Config

/-! ## The queue -/

/-- `Q_ENQ` on a full queue (R111): the event is lost and counted. -/
theorem qEnq_of_full {e : Ev} {s : State} (h : s.qFull = true) : s.qEnq e = (.full, s.raise (.queueFull e)) := by
  simp [State.qEnq, h]

/-- `Q_ENQ` on a queue with room (R111): the event becomes the newest element. -/
theorem qEnq_of_room {e : Ev} {s : State} (h : s.qFull = false) : s.qEnq e = (.success, { s with q := s.q ++ [e] }) := by
  simp [State.qEnq, h]

/-- An enqueue whose answer is not looked at does one of two things. -/
theorem enqueue_cases (e : Ev) (s : State) :
    (s.qFull = true ∧ s.enqueue e = s.raise (.queueFull e)) ∨
    (s.qFull = false ∧ s.enqueue e = { s with q := s.q ++ [e] }) := by
  cases h : s.qFull with
  | true => exact .inl ⟨rfl, by rw [State.enqueue, qEnq_of_full h]⟩
  | false => exact .inr ⟨rfl, by rw [State.enqueue, qEnq_of_room h]⟩

theorem enqueue_of_full {e : Ev} {s : State} (h : s.qFull = true) : s.enqueue e = s.raise (.queueFull e) := by
  rw [State.enqueue, qEnq_of_full h]

theorem enqueue_of_room {e : Ev} {s : State} (h : s.qFull = false) : s.enqueue e = { s with q := s.q ++ [e] } := by
  rw [State.enqueue, qEnq_of_room h]

@[simp] theorem enqueue_dbCl (e : Ev) (s : State) : (s.enqueue e).dbCl = s.dbCl := by
  rcases enqueue_cases e s with ⟨_, h⟩ | ⟨_, h⟩ <;> simp [h]
@[simp] theorem enqueue_dbOl (e : Ev) (s : State) : (s.enqueue e).dbOl = s.dbOl := by
  rcases enqueue_cases e s with ⟨_, h⟩ | ⟨_, h⟩ <;> simp [h]
@[simp] theorem enqueue_kpState (e : Ev) (s : State) : (s.enqueue e).kpState = s.kpState := by
  rcases enqueue_cases e s with ⟨_, h⟩ | ⟨_, h⟩ <;> simp [h]
@[simp] theorem enqueue_kpCount (e : Ev) (s : State) : (s.enqueue e).kpCount = s.kpCount := by
  rcases enqueue_cases e s with ⟨_, h⟩ | ⟨_, h⟩ <;> simp [h]
@[simp] theorem enqueue_kpRole (e : Ev) (s : State) : (s.enqueue e).kpRole = s.kpRole := by
  rcases enqueue_cases e s with ⟨_, h⟩ | ⟨_, h⟩ <;> simp [h]
@[simp] theorem enqueue_dutyOpen (e : Ev) (s : State) : (s.enqueue e).dutyOpen = s.dutyOpen := by
  rcases enqueue_cases e s with ⟨_, h⟩ | ⟨_, h⟩ <;> simp [h]
@[simp] theorem enqueue_dutyClose (e : Ev) (s : State) : (s.enqueue e).dutyClose = s.dutyClose := by
  rcases enqueue_cases e s with ⟨_, h⟩ | ⟨_, h⟩ <;> simp [h]
@[simp] theorem enqueue_busPhase (e : Ev) (s : State) : (s.enqueue e).busPhase = s.busPhase := by
  rcases enqueue_cases e s with ⟨_, h⟩ | ⟨_, h⟩ <;> simp [h]
@[simp] theorem enqueue_busTxDone (e : Ev) (s : State) : (s.enqueue e).busTxDone = s.busTxDone := by
  rcases enqueue_cases e s with ⟨_, h⟩ | ⟨_, h⟩ <;> simp [h]
@[simp] theorem enqueue_doorState (e : Ev) (s : State) : (s.enqueue e).doorState = s.doorState := by
  rcases enqueue_cases e s with ⟨_, h⟩ | ⟨_, h⟩ <;> simp [h]
@[simp] theorem enqueue_accValue (e : Ev) (s : State) : (s.enqueue e).accValue = s.accValue := by
  rcases enqueue_cases e s with ⟨_, h⟩ | ⟨_, h⟩ <;> simp [h]
@[simp] theorem enqueue_accCount (e : Ev) (s : State) : (s.enqueue e).accCount = s.accCount := by
  rcases enqueue_cases e s with ⟨_, h⟩ | ⟨_, h⟩ <;> simp [h]
@[simp] theorem enqueue_mPending (e : Ev) (s : State) : (s.enqueue e).mPending = s.mPending := by
  rcases enqueue_cases e s with ⟨_, h⟩ | ⟨_, h⟩ <;> simp [h]
@[simp] theorem enqueue_cfg (e : Ev) (s : State) : (s.enqueue e).cfg = s.cfg := by
  rcases enqueue_cases e s with ⟨_, h⟩ | ⟨_, h⟩ <;> simp [h]
@[simp] theorem enqueue_stim (e : Ev) (s : State) : (s.enqueue e).stim = s.stim := by
  rcases enqueue_cases e s with ⟨_, h⟩ | ⟨_, h⟩ <;> simp [h]
@[simp] theorem enqueue_schedIndex (e : Ev) (s : State) : (s.enqueue e).schedIndex = s.schedIndex := by
  rcases enqueue_cases e s with ⟨_, h⟩ | ⟨_, h⟩ <;> simp [h]
@[simp] theorem enqueue_inputIndex (e : Ev) (s : State) : (s.enqueue e).inputIndex = s.inputIndex := by
  rcases enqueue_cases e s with ⟨_, h⟩ | ⟨_, h⟩ <;> simp [h]

/-- `Q_DEQ` does one of two things (R112). -/
theorem qDeq_cases (s : State) :
    (s.q = [] ∧ s.qDeq = (.empty, s)) ∨ (∃ e rest, s.q = e :: rest ∧ s.qDeq = (.event e, { s with q := rest })) := by
  cases h : s.q with
  | nil => exact .inl ⟨rfl, by simp [State.qDeq, h]⟩
  | cons e rest => exact .inr ⟨e, rest, rfl, by simp [State.qDeq, h]⟩

/-- An enqueue keeps the canonical form of the queue storage. -/
theorem memory_wf_enqueue {e : Ev} {s : State} (h : Memory.wf s) : Memory.wf (s.enqueue e) := by
  rcases enqueue_cases e s with ⟨_, h'⟩ | ⟨hf, h'⟩
  · rw [h']; exact h
  · rw [h']
    have : s.q.length ≠ s.cfg.qCap := by simpa [State.qFull] using hf
    simp only [Memory.wf, List.length_append, List.length_singleton] at h ⊢
    omega

/-- A dequeue keeps the canonical form of the queue storage. -/
theorem memory_wf_qDeq {s : State} (h : Memory.wf s) : Memory.wf s.qDeq.2 := by
  rcases qDeq_cases s with ⟨_, h'⟩ | ⟨e, rest, hq, h'⟩
  · rw [h']; exact h
  · rw [h']; simp only [Memory.wf, hq, List.length_cons] at h ⊢; omega

/-- A write of the bus register keeps the canonical form of the queue storage. -/
theorem memory_wf_csrWrite {b : Byte} {s : State} (h : Memory.wf s) : Memory.wf (s.csrWrite b) := by
  unfold State.csrWrite; split
  · exact memory_wf_enqueue h
  · exact h

/-- Reset leaves the canonical form. -/
theorem memory_wf_reset : Memory.wf State.reset := by decide

/-! ## Saturating counter -/

theorem saturatingSucc_toNat (n : BitVec 16) : (saturatingSucc n).toNat = min (n.toNat + 1) 0xFFFF := by
  unfold saturatingSucc
  split
  · next h => subst h; rfl
  · next h =>
    have : n.toNat ≠ 0xFFFF := fun h' => h (BitVec.eq_of_toNat_eq h')
    have := n.isLt
    rw [BitVec.toNat_add]; simp; omega

/-! ## The bus register -/

/-- A command byte with bit 7 set enqueues one `ACTUATE_DOOR` (R163). -/
theorem csrWrite_of_command {b : Byte} {s : State} (h : commandBit b = true) :
    s.csrWrite b = s.enqueue (evOf tyActuateDoor) := by simp [State.csrWrite, h]

/-- A command byte with bit 7 clear does nothing (R163). -/
theorem csrWrite_of_nop {b : Byte} {s : State} (h : commandBit b = false) : s.csrWrite b = s := by
  simp [State.csrWrite, h]

@[simp] theorem csrWrite_dbCl (b : Byte) (s : State) : (s.csrWrite b).dbCl = s.dbCl := by
  unfold State.csrWrite; split <;> simp
@[simp] theorem csrWrite_dbOl (b : Byte) (s : State) : (s.csrWrite b).dbOl = s.dbOl := by
  unfold State.csrWrite; split <;> simp
@[simp] theorem csrWrite_kpState (b : Byte) (s : State) : (s.csrWrite b).kpState = s.kpState := by
  unfold State.csrWrite; split <;> simp
@[simp] theorem csrWrite_kpCount (b : Byte) (s : State) : (s.csrWrite b).kpCount = s.kpCount := by
  unfold State.csrWrite; split <;> simp
@[simp] theorem csrWrite_kpRole (b : Byte) (s : State) : (s.csrWrite b).kpRole = s.kpRole := by
  unfold State.csrWrite; split <;> simp
@[simp] theorem csrWrite_dutyOpen (b : Byte) (s : State) : (s.csrWrite b).dutyOpen = s.dutyOpen := by
  unfold State.csrWrite; split <;> simp
@[simp] theorem csrWrite_dutyClose (b : Byte) (s : State) : (s.csrWrite b).dutyClose = s.dutyClose := by
  unfold State.csrWrite; split <;> simp
@[simp] theorem csrWrite_busPhase (b : Byte) (s : State) : (s.csrWrite b).busPhase = s.busPhase := by
  unfold State.csrWrite; split <;> simp
@[simp] theorem csrWrite_busTxDone (b : Byte) (s : State) : (s.csrWrite b).busTxDone = s.busTxDone := by
  unfold State.csrWrite; split <;> simp
@[simp] theorem csrWrite_doorState (b : Byte) (s : State) : (s.csrWrite b).doorState = s.doorState := by
  unfold State.csrWrite; split <;> simp
@[simp] theorem csrWrite_accValue (b : Byte) (s : State) : (s.csrWrite b).accValue = s.accValue := by
  unfold State.csrWrite; split <;> simp
@[simp] theorem csrWrite_accCount (b : Byte) (s : State) : (s.csrWrite b).accCount = s.accCount := by
  unfold State.csrWrite; split <;> simp
@[simp] theorem csrWrite_mPending (b : Byte) (s : State) : (s.csrWrite b).mPending = s.mPending := by
  unfold State.csrWrite; split <;> simp
@[simp] theorem csrWrite_cfg (b : Byte) (s : State) : (s.csrWrite b).cfg = s.cfg := by
  unfold State.csrWrite; split <;> simp
@[simp] theorem csrWrite_stim (b : Byte) (s : State) : (s.csrWrite b).stim = s.stim := by
  unfold State.csrWrite; split <;> simp
@[simp] theorem csrWrite_schedIndex (b : Byte) (s : State) : (s.csrWrite b).schedIndex = s.schedIndex := by
  unfold State.csrWrite; split <;> simp
@[simp] theorem csrWrite_inputIndex (b : Byte) (s : State) : (s.csrWrite b).inputIndex = s.inputIndex := by
  unfold State.csrWrite; split <;> simp

/-! ## The counters -/

/-- A counter holds the number it is configured to hold (R125). -/
theorem lt_counterWidth (least n : Nat) : n < 2 ^ counterWidth least n :=
  Nat.lt_log2_self.trans_le (Nat.pow_le_pow_right (by decide) (Nat.le_max_right ..))

/-- Counting down from above 0 does not wrap (R125, R133). -/
theorem counterPred_of_pos {width n : Nat} (h : 0 < n) : counterPred width n = n - 1 := if_neg (by omega)

/-- Counting up to a number that the counter holds does not wrap (R205). -/
theorem counterSucc_of_lt {width n m : Nat} (h : n < m) (hm : m < 2 ^ width) : counterSucc width n = n + 1 :=
  if_neg (by omega)

/-- Counting down stays within the width. -/
theorem counterPred_lt {width n : Nat} (h : n < 2 ^ width) : counterPred width n < 2 ^ width := by
  unfold counterPred; split <;> omega

/-- Counting up stays within the width. -/
theorem counterSucc_lt {width n : Nat} (h : n < 2 ^ width) : counterSucc width n < 2 ^ width := by
  unfold counterSucc; split <;> omega

/-- A counter of more than 0 bits that counts down comes to 0 from 1 only (R121, R133). -/
theorem counterPred_eq_zero {least n m : Nat} (h : 0 < least) : counterPred (counterWidth least n) m = 0 ↔ m = 1 := by
  have : 2 ^ 1 ≤ 2 ^ counterWidth least n := Nat.pow_le_pow_right (by decide) (h.trans_le (Nat.le_max_left ..))
  unfold counterPred; split <;> omega

/-- The ranges of the counters (R24, R25, R33) lie within their widths. -/
theorem countersFit_of_ranges {s : State} (hw : s.cfg.wf) (hc : DebounceOk s.cfg.nLimit s.dbCl)
    (ho : DebounceOk s.cfg.nLimit s.dbOl) (hk : KeypadOk s) (ha : AccOk s) : CountersFit s := by
  have hdb (d : Debounce) (h : DebounceOk s.cfg.nLimit d) : d.countdown < 2 ^ countdownWidth s.cfg.nLimit := by
    have := lt_counterWidth 4 s.cfg.nLimit
    cases e : d.armed with
    | false => have := (h.1 e).1; unfold countdownWidth; omega
    | true => have := h.2 e; unfold countdownWidth; omega
  refine ⟨hdb _ hc, hdb _ ho, ?_, ha.1.trans_lt (lt_counterWidth 3 _)⟩
  have := lt_counterWidth 3 s.cfg.nKp
  unfold kpCountWidth
  by_cases h : s.kpState = .wait
  · have := hk.1 h; omega
  · have := hk.2.1 h; omega

/-! ## The debounce filter -/

/-- A sample at the confirmed level clears the window (R121). -/
theorem debounceNext_same {n : Nat} {l : Level} {d : Debounce} (h : l = d.confirmed) :
    debounceNext n l d = ({ pending := d.confirmed, confirmed := d.confirmed, countdown := 0, armed := false }, false) := by
  simp [debounceNext, h]

/-- A differing sample that is not the last one needed (R121). -/
theorem debounceNext_count {n : Nat} {l : Level} {d : Debounce} (h : l ≠ d.confirmed)
    (hc : (debounceArm n l d).countdown ≠ 1) :
    debounceNext n l d =
      ({ debounceArm n l d with countdown := counterPred (countdownWidth n) (debounceArm n l d).countdown }, false) := by
  have : counterPred (countdownWidth n) (debounceArm n l d).countdown ≠ 0 := mt (counterPred_eq_zero (by decide)).mp hc
  simp [debounceNext, h, this]

/-- A differing sample that ends the countdown confirms the level (R121). -/
theorem debounceNext_confirm {n : Nat} {l : Level} {d : Debounce} (h : l ≠ d.confirmed)
    (hc : (debounceArm n l d).countdown = 1) :
    debounceNext n l d =
      ({ debounceArm n l d with countdown := 0, confirmed := l, armed := false }, true) := by
  have : counterPred (countdownWidth n) (debounceArm n l d).countdown = 0 := (counterPred_eq_zero (by decide)).mpr hc
  simp [debounceNext, h, this]

/-- A sample of a switch writes its process and enqueues at most one event (R121, R126). -/
theorem dbSample_cases (i : Switch) (l : Level) (s : State) :
    let r := debounceNext s.cfg.nLimit l (s.db i)
    (r.2 = false ∧ dbSample i l s = s.setDb i r.1) ∨
    (r.2 = true ∧ dbSample i l s = (s.setDb i r.1).enqueue (evOf (edgeType i l))) := by
  intro r
  cases h : r.2 with
  | false => exact .inl ⟨rfl, by simp only [dbSample]; rw [if_neg]; simpa using h⟩
  | true => exact .inr ⟨rfl, by simp only [dbSample]; rw [if_pos h]⟩

@[simp] theorem dbSample_kpState (i : Switch) (l : Level) (s : State) : (dbSample i l s).kpState = s.kpState := by
  rcases dbSample_cases i l s with ⟨_, h⟩ | ⟨_, h⟩ <;> rw [h] <;> simp
@[simp] theorem dbSample_kpCount (i : Switch) (l : Level) (s : State) : (dbSample i l s).kpCount = s.kpCount := by
  rcases dbSample_cases i l s with ⟨_, h⟩ | ⟨_, h⟩ <;> rw [h] <;> simp
@[simp] theorem dbSample_kpRole (i : Switch) (l : Level) (s : State) : (dbSample i l s).kpRole = s.kpRole := by
  rcases dbSample_cases i l s with ⟨_, h⟩ | ⟨_, h⟩ <;> rw [h] <;> simp
@[simp] theorem dbSample_dutyOpen (i : Switch) (l : Level) (s : State) : (dbSample i l s).dutyOpen = s.dutyOpen := by
  rcases dbSample_cases i l s with ⟨_, h⟩ | ⟨_, h⟩ <;> rw [h] <;> simp
@[simp] theorem dbSample_dutyClose (i : Switch) (l : Level) (s : State) : (dbSample i l s).dutyClose = s.dutyClose := by
  rcases dbSample_cases i l s with ⟨_, h⟩ | ⟨_, h⟩ <;> rw [h] <;> simp
@[simp] theorem dbSample_busPhase (i : Switch) (l : Level) (s : State) : (dbSample i l s).busPhase = s.busPhase := by
  rcases dbSample_cases i l s with ⟨_, h⟩ | ⟨_, h⟩ <;> rw [h] <;> simp
@[simp] theorem dbSample_busTxDone (i : Switch) (l : Level) (s : State) : (dbSample i l s).busTxDone = s.busTxDone := by
  rcases dbSample_cases i l s with ⟨_, h⟩ | ⟨_, h⟩ <;> rw [h] <;> simp
@[simp] theorem dbSample_doorState (i : Switch) (l : Level) (s : State) : (dbSample i l s).doorState = s.doorState := by
  rcases dbSample_cases i l s with ⟨_, h⟩ | ⟨_, h⟩ <;> rw [h] <;> simp
@[simp] theorem dbSample_accValue (i : Switch) (l : Level) (s : State) : (dbSample i l s).accValue = s.accValue := by
  rcases dbSample_cases i l s with ⟨_, h⟩ | ⟨_, h⟩ <;> rw [h] <;> simp
@[simp] theorem dbSample_accCount (i : Switch) (l : Level) (s : State) : (dbSample i l s).accCount = s.accCount := by
  rcases dbSample_cases i l s with ⟨_, h⟩ | ⟨_, h⟩ <;> rw [h] <;> simp
@[simp] theorem dbSample_mPending (i : Switch) (l : Level) (s : State) : (dbSample i l s).mPending = s.mPending := by
  rcases dbSample_cases i l s with ⟨_, h⟩ | ⟨_, h⟩ <;> rw [h] <;> simp
@[simp] theorem dbSample_cfg (i : Switch) (l : Level) (s : State) : (dbSample i l s).cfg = s.cfg := by
  rcases dbSample_cases i l s with ⟨_, h⟩ | ⟨_, h⟩ <;> rw [h] <;> simp
@[simp] theorem dbSample_stim (i : Switch) (l : Level) (s : State) : (dbSample i l s).stim = s.stim := by
  rcases dbSample_cases i l s with ⟨_, h⟩ | ⟨_, h⟩ <;> rw [h] <;> simp
@[simp] theorem dbSample_schedIndex (i : Switch) (l : Level) (s : State) : (dbSample i l s).schedIndex = s.schedIndex := by
  rcases dbSample_cases i l s with ⟨_, h⟩ | ⟨_, h⟩ <;> rw [h] <;> simp
@[simp] theorem dbSample_inputIndex (i : Switch) (l : Level) (s : State) : (dbSample i l s).inputIndex = s.inputIndex := by
  rcases dbSample_cases i l s with ⟨_, h⟩ | ⟨_, h⟩ <;> rw [h] <;> simp

/-! ## The keypad sequencer -/

theorem kpPresent_eq_false {v : Lines} : kpPresent v = false ↔ v = 0b1111#4 := by simp [kpPresent]

theorem kpPresent_eq_true {v : Lines} : kpPresent v = true ↔ v ≠ 0b1111#4 := by simp [kpPresent]

/-- `KP_WAIT` ends in one of three states (R133). -/
theorem kpWaitRule_cases (sense : Lines) (s : State) :
    (s.kpCount ≠ 1 ∧ kpWaitRule sense s = s.setKpCount (counterPred (kpCountWidth s.cfg.nKp) s.kpCount)) ∨
    (s.kpCount = 1 ∧ kpPresent sense = true ∧ kpWaitRule sense s = (s.setKpCount 0).setKpState .scan) ∨
    (s.kpCount = 1 ∧ kpPresent sense = false ∧ kpWaitRule sense s = (s.setKpCount 0).setKpState .idle) := by
  have hz : counterPred (kpCountWidth s.cfg.nKp) s.kpCount = 0 ↔ s.kpCount = 1 := counterPred_eq_zero (by decide)
  by_cases h : s.kpCount = 1
  · have hz := hz.mpr h
    cases hp : kpPresent sense with
    | true => exact .inr (.inl ⟨h, rfl, by simp [kpWaitRule, hz, hp]⟩)
    | false => exact .inr (.inr ⟨h, rfl, by simp [kpWaitRule, hz, hp]⟩)
  · exact .inl ⟨h, by simp [kpWaitRule, mt hz.mp h]⟩

/-- `KP_SCAN` in one line: the cause, the key event and the wait for release; the role is `NORMAL` after it (R134). -/
theorem kpScanRule_eq (sense scan : Lines) (s : State) :
    kpScanRule sense scan s =
      ((raiseUnresolved sense scan ((s.setKpRole .swapped).setKpRole .normal)).enqueue
        (mkEv tyKeypadNewKey (kpResolve s.cfg.keymap (lowIdx sense) (lowIdx scan)))).setKpState .release := rfl

/-- The key index puts the row above the column (R89). -/
theorem keyIndex_eq_append : ∀ column row : BitVec 2, keyIndex column row = row ++ column := by decide

/-- A read of a key layout answers one of its characters (R63). -/
theorem keymapRead_mem (m : Vector Byte 16) (k : BitVec 4) : keymapRead m k ∈ m.toList := by
  simp [keymapRead]

/-! ## Dispatch -/

theorem evType_mkEv (t : BitVec 4) (d : Byte) : evType (mkEv t d) = t := by
  unfold evType mkEv; exact BitVec.extractLsb'_append_eq_left

theorem evData_mkEv (t : BitVec 4) (d : Byte) : evData (mkEv t d) = d := by
  unfold evData mkEv; exact BitVec.extractLsb'_append_eq_right

/-- The dispatch of a record by its two fields (R180). -/
theorem dispatch_mkEv (t : BitVec 4) (d : Byte) (s : State) :
    dispatch (mkEv t d) s =
      match t.toNat with
      | 0x1 => onClosedLimitPressed s
      | 0x2 => onClosedLimitReleased s
      | 0x3 => onOpenLimitPressed s
      | 0x4 => onOpenLimitReleased s
      | 0x5 => onKeypadNewKey d s
      | 0x6 => onActuateDoor s
      | 0x7 => onStartDoor s
      | 0x8 => onStopDoor s
      | _ => onReserved s := by
  simp only [dispatch, evType_mkEv, evData_mkEv] <;> rfl

/-- The toggle decision is one of two event types (R188). -/
theorem toggle_cases (d : DoorCode) :
    (4 ≤ d.toNat ∧ toggle d = tyStopDoor) ∨ (d.toNat < 4 ∧ toggle d = tyStartDoor) := by
  have h : (dsOpening ≤ d) ↔ 4 ≤ d.toNat := by rw [BitVec.le_def]; rfl
  by_cases hd : dsOpening ≤ d
  · exact .inl ⟨h.mp hd, by simp [toggle, hd]⟩
  · exact .inr ⟨by have := mt h.mpr hd; omega, by simp [toggle, hd]⟩

/-! ## The motor -/

/-- `M_STOP()` in one line (R151). -/
theorem motorStop_eq (s : State) : motorStop s = { s with dutyOpen := 0#8, dutyClose := 0#8 } := rfl

/-- `M_START_OPEN()` in one line (R152). -/
theorem motorStartOpen_eq (s : State) : motorStartOpen s = { s with dutyOpen := s.cfg.dutyFull, dutyClose := 0#8 } := rfl

/-- `M_START_CLOSE()` in one line (R153). -/
theorem motorStartClose_eq (s : State) : motorStartClose s = { s with dutyOpen := 0#8, dutyClose := s.cfg.dutyFull } := rfl

/-- Every motor operation ends in a pair of duties that may be observed (R155). -/
theorem motorStop_pair (s : State) : MotorPair (motorStop s) := .inl ⟨rfl, rfl⟩

theorem motorStartOpen_pair (s : State) : MotorPair (motorStartOpen s) := .inr (.inl ⟨rfl, rfl⟩)

theorem motorStartClose_pair (s : State) : MotorPair (motorStartClose s) := .inr (.inr ⟨rfl, rfl⟩)

end Sys2Proof.Machine
end

