-- ==== Sys2Proof/Laws/PerInstr.lean ====
section
/-! SUPPORT. Statements about every operation as syntax, one lemma per constructor of `Instr`. -/

namespace Sys2Proof.Laws.EncodeFits

/-- The word of an operation has no bit above the width of its format (30_encoding.md R80). -/
def Statement (i : Instr) : Prop := (encode i).bits.toNat < 2 ^ (encode i).fmt.width

/-- A word of a format whose field fills `n` bits has no bit above them. -/
theorem plainWord_fits {n : Nat} (f : Format) (w : BitVec n) (h : n ≤ f.width) :
    (plainWord f w).bits.toNat < 2 ^ (plainWord f w).fmt.width := by
  have h1 : (w.setWidth 16).toNat ≤ w.toNat := by rw [BitVec.toNat_setWidth]; exact Nat.mod_le _ _
  exact lt_of_le_of_lt h1 (lt_of_lt_of_le w.isLt (Nat.pow_le_pow_right (by decide) h))

/-- An event record fits 12 bits. -/
theorem evWord_fits (t : BitVec 4) (d : Byte) : (evWord t d).bits.toNat < 2 ^ (evWord t d).fmt.width :=
  plainWord_fits .ev (t ++ d) (le_refl 12)

theorem tick (cl ol : Level) (sense scan : Lines) : Statement (.tick cl ol sense scan) := BitVec.isLt _
theorem dbSampleCl (l : Level) : Statement (.dbSampleCl l) := BitVec.isLt _
theorem dbSampleOl (l : Level) : Statement (.dbSampleOl l) := BitVec.isLt _
theorem busAw (d : Byte) : Statement (.busAw d) := BitVec.isLt _
theorem busRx (d : Byte) : Statement (.busRx d) := BitVec.isLt _
theorem busAr (d : Byte) : Statement (.busAr d) := BitVec.isLt _
theorem busRdnext (d : Byte) : Statement (.busRdnext d) := BitVec.isLt _
theorem busStop (d : Byte) : Statement (.busStop d) := BitVec.isLt _
theorem busErr (d : Byte) : Statement (.busErr d) := BitVec.isLt _
theorem busRsvd (k : BitVec 1) (d : Byte) : Statement (.busRsvd k d) := BitVec.isLt _
theorem mainDispatch : Statement .mainDispatch := BitVec.isLt _
theorem mainEmit : Statement .mainEmit := BitVec.isLt _
theorem reset : Statement .reset := BitVec.isLt _
theorem closedLimitPressed (d : Byte) : Statement (.closedLimitPressed d) := evWord_fits _ _
theorem closedLimitReleased (d : Byte) : Statement (.closedLimitReleased d) := evWord_fits _ _
theorem openLimitPressed (d : Byte) : Statement (.openLimitPressed d) := evWord_fits _ _
theorem openLimitReleased (d : Byte) : Statement (.openLimitReleased d) := evWord_fits _ _
theorem keypadNewKey (d : Byte) : Statement (.keypadNewKey d) := evWord_fits _ _
theorem actuateDoor (d : Byte) : Statement (.actuateDoor d) := evWord_fits _ _
theorem startDoor (d : Byte) : Statement (.startDoor d) := evWord_fits _ _
theorem stopDoor (d : Byte) : Statement (.stopDoor d) := evWord_fits _ _
theorem evReserved0 (d : Byte) : Statement (.evReserved0 d) := evWord_fits _ _
theorem evReserved9 (d : Byte) : Statement (.evReserved9 d) := evWord_fits _ _
theorem evReservedAB (k : BitVec 1) (d : Byte) : Statement (.evReservedAB k d) := evWord_fits _ _
theorem evReservedCF (k : BitVec 2) (d : Byte) : Statement (.evReservedCF k d) := evWord_fits _ _
theorem keyDigit0to7 (k : BitVec 3) : Statement (.keyDigit0to7 k) := plainWord_fits _ _ (by decide)
theorem keyDigit8to9 (k : BitVec 1) : Statement (.keyDigit8to9 k) := plainWord_fits _ _ (by decide)
theorem keyTerminator : Statement .keyTerminator := plainWord_fits _ _ (by decide)
theorem keyOther (ch : Byte) : Statement (.keyOther ch) := plainWord_fits _ _ (by decide)
theorem keymap0 : Statement .keymap0 := plainWord_fits _ _ (by decide)
theorem keymap1 : Statement .keymap1 := plainWord_fits _ _ (by decide)
theorem keymap2 : Statement .keymap2 := plainWord_fits _ _ (by decide)
theorem keymap3 : Statement .keymap3 := plainWord_fits _ _ (by decide)
theorem keymap4 : Statement .keymap4 := plainWord_fits _ _ (by decide)
theorem keymap5 : Statement .keymap5 := plainWord_fits _ _ (by decide)
theorem keymap6 : Statement .keymap6 := plainWord_fits _ _ (by decide)
theorem keymap7 : Statement .keymap7 := plainWord_fits _ _ (by decide)
theorem keymap8 : Statement .keymap8 := plainWord_fits _ _ (by decide)
theorem keymap9 : Statement .keymap9 := plainWord_fits _ _ (by decide)
theorem keymap10 : Statement .keymap10 := plainWord_fits _ _ (by decide)
theorem keymap11 : Statement .keymap11 := plainWord_fits _ _ (by decide)
theorem keymap12 : Statement .keymap12 := plainWord_fits _ _ (by decide)
theorem keymap13 : Statement .keymap13 := plainWord_fits _ _ (by decide)
theorem keymap14 : Statement .keymap14 := plainWord_fits _ _ (by decide)
theorem keymap15 : Statement .keymap15 := plainWord_fits _ _ (by decide)
theorem csrRdStatus (x : BitVec 7) : Statement (.csrRdStatus x) := plainWord_fits _ _ (by decide)
theorem csrWrActuate (x : BitVec 7) : Statement (.csrWrActuate x) := plainWord_fits _ _ (by decide)
theorem csrWrNop (x : BitVec 7) : Statement (.csrWrNop x) := plainWord_fits _ _ (by decide)
theorem dsClosed : Statement .dsClosed := plainWord_fits _ _ (by decide)
theorem dsClosingStopped : Statement .dsClosingStopped := plainWord_fits _ _ (by decide)
theorem dsOpen : Statement .dsOpen := plainWord_fits _ _ (by decide)
theorem dsOpeningStopped : Statement .dsOpeningStopped := plainWord_fits _ _ (by decide)
theorem dsOpening : Statement .dsOpening := plainWord_fits _ _ (by decide)
theorem dsClosing : Statement .dsClosing := plainWord_fits _ _ (by decide)
theorem dsInvalid : Statement .dsInvalid := plainWord_fits _ _ (by decide)
theorem dsReserved (c : DoorCode) : Statement (.dsReserved c) := plainWord_fits _ _ (by decide)
theorem kindAw : Statement .kindAw := plainWord_fits _ _ (by decide)
theorem kindRx : Statement .kindRx := plainWord_fits _ _ (by decide)
theorem kindAr : Statement .kindAr := plainWord_fits _ _ (by decide)
theorem kindRdnext : Statement .kindRdnext := plainWord_fits _ _ (by decide)
theorem kindStop : Statement .kindStop := plainWord_fits _ _ (by decide)
theorem kindErr : Statement .kindErr := plainWord_fits _ _ (by decide)
theorem kindRsvd (k : BitVec 1) : Statement (.kindRsvd k) := plainWord_fits _ _ (by decide)
theorem mStop : Statement .mStop := plainWord_fits _ _ (by decide)
theorem mStartOpen : Statement .mStartOpen := plainWord_fits _ _ (by decide)
theorem mStartClose : Statement .mStartClose := plainWord_fits _ _ (by decide)
theorem mcmdReserved : Statement .mcmdReserved := plainWord_fits _ _ (by decide)
theorem kpIdle : Statement .kpIdle := plainWord_fits _ _ (by decide)
theorem kpWait : Statement .kpWait := plainWord_fits _ _ (by decide)
theorem kpScan : Statement .kpScan := plainWord_fits _ _ (by decide)
theorem kpRelease : Statement .kpRelease := plainWord_fits _ _ (by decide)
theorem qEnq (e : Ev) : Statement (.qEnq e) := plainWord_fits _ _ (by decide)
theorem qDeq (x : BitVec 12) : Statement (.qDeq x) := plainWord_fits _ _ (by decide)

end Sys2Proof.Laws.EncodeFits
end

