-- ==== Sys2Proof/Laws/Schedule.lean ====
section
/-! SUPPORT. The open schedule: it is weakly fair to the main loop (48_agents_and_steps.md R221), and its form leaves out no
weakly fair order. -/

namespace Sys2Proof.Config

open Sys2Proof.Machine

/-- The main loop's turn comes after the positions that are left before it. -/
theorem turn_add {gap : Nat → Nat} {k : Nat} (r : Nat) : ∀ {n : Nat}, turn gap n = (k, r) → turn gap (n + r) = (k, 0) := by
  induction r with
  | zero => exact fun h => h
  | succ r ih =>
    intro n h
    have h1 : turn gap (n + 1) = (k, r) := by rw [turn, h]
    rw [show n + (r + 1) = n + 1 + r by omega]
    exact ih h1

/-- Every interleaving with the main loop's turns is weakly fair (R221). -/
theorem interleave_weakly_fair (gap : Nat → Nat) (env : Nat → Choice) : WeaklyFair (interleave gap env) := by
  intro n
  refine ⟨n + (turn gap n).2, Nat.le_add_right _ _, ?_⟩
  rw [interleave, turn_add (turn gap n).2 rfl]

/-- The open schedule is weakly fair (R221). -/
theorem sched_weakly_fair : WeaklyFair sched := interleave_weakly_fair mainGap envChoice

/-- Every weakly fair order of picks is an interleaving: the form of the schedule leaves none out (R218). -/
theorem interleave_complete (order : Nat → Choice) (h : WeaklyFair order) :
    ∃ gap, ∀ n, interleave gap order n = order n := by
  choose next hle hmain using h
  let pos : Nat → Nat := fun k => Nat.rec (next 0) (fun _ p => next (p + 1)) k
  have hpos : ∀ k, order (pos k) = .main := fun k => by cases k <;> exact hmain _
  have hstep : ∀ k, pos k + 1 ≤ pos (k + 1) := fun k => hle _
  let gap : Nat → Nat := fun k => Nat.casesOn k (pos 0) fun k => pos (k + 1) - pos k - 1
  have hgap : ∀ k, gap (k + 1) = pos (k + 1) - pos k - 1 := fun _ => rfl
  have hturn : ∀ n, n + (turn gap n).2 = pos (turn gap n).1 := by
    intro n
    induction n with
    | zero => exact Nat.zero_add (pos 0)
    | succ n ih =>
      rw [turn]
      split
      · next k he =>
        rw [he] at ih
        have := hstep k
        simp only [hgap] at ih ⊢
        omega
      · next k r he =>
        rw [he] at ih
        simp only at ih ⊢
        omega
  refine ⟨gap, fun n => ?_⟩
  have hn := hturn n
  rw [interleave]
  split
  · next k he => rw [he] at hn; rw [← hpos k, ← hn]; rfl
  · rfl

end Sys2Proof.Config
end

