-- ==== Sys2Proof/Tests/Slice0.lean ====
section
/-! SUPPORT. The model's own tests: ill-formed terms, one written-out word for every constructor, single steps from
spec/95_test_vectors.md, and a witness for the hypotheses of every statement that has some. -/

namespace Sys2Proof.Tests

open Sys2Proof Sys2Proof.Machine

/-! ## Helpers -/

/-- What `f` sees of the state after a step, if there is one. -/
def after {α : Type} (o : Host.Outcome State Fault Refusal) (f : State → α) : Option α :=
  match o with
  | .next s => some (f s)
  | _ => none

/-- The reason for which a step was refused, if it was. -/
def refusal (o : Host.Outcome State Fault Refusal) : Option Refusal :=
  match o with
  | .refused r => some r
  | _ => none

/-- A full queue of the reference capacity (95_test_vectors.md, section 2.1). -/
def fullQueue : State := { State.reset with q := List.replicate 10 0x600#12 }

/-- A debounce process one sample short of confirming a press (95_test_vectors.md DB4). -/
def almostPressed : Debounce := { pending := false, confirmed := true, countdown := 1, armed := true }

/-- A door driving open, with a press waiting in the queue and a sample window open. -/
def moving : State :=
  { State.reset with
    doorState := 0x04#7, dutyOpen := 0xFF#8, q := [0x300#12, 0x538#12], dbCl := almostPressed
    kpState := .wait, kpCount := 4, accValue := 999#16, accCount := 3, dropCount := 0xFFFF#16 }

/-- The reset state in a state of the keypad sequencer. -/
def keypadAt (k : KpState) (n : Nat) : State := { State.reset with kpState := k, kpCount := n }

/-! ## Well-formedness: an ill-formed term for each check -/

theorem test_wf_refuses_digit_as_other : (Instr.keyOther 0x30).wf = false ∧ (Instr.keyOther 0x39).wf = false := by decide
theorem test_wf_refuses_terminator_as_other : (Instr.keyOther 0x23).wf = false := by decide
theorem test_wf_refuses_named_code_as_reserved :
    (Instr.dsReserved 0x00).wf = false ∧ (Instr.dsReserved 0x05).wf = false ∧ (Instr.dsReserved 0x7F).wf = false := by decide
theorem test_wf_accepts_the_rest : (Instr.keyOther 0x41).wf = true ∧ (Instr.dsReserved 0x06).wf = true := by decide

/-! ## Decoding: words written out from 30_encoding.md -/

/-- R90: agent, then the operand of `TICK`. -/
theorem test_decode_tick :
    decode .trace 0b000_000_1_0_1101_1011 = some (.tick true false 0b1101 0b1011) ∧
    decode .sampleCl 0b000_000_1_0_0000_0000 = some (.dbSampleCl true) ∧
    decode .sampleOl 0b000_000_0_1_1111_1111 = some (.dbSampleOl true) ∧
    decode .sampleOl 0b000_000_1_0_1111_1111 = some (.dbSampleOl false) := by decide

/-- R90, R91: agent 0b001, then kind and byte. -/
theorem test_decode_bus :
    decode .trace 0b001_00_000_00000000 = some (.busAw 0) ∧ decode .trace 0b001_00_001_10000001 = some (.busRx 0x81) ∧
    decode .trace 0b001_00_010_00000000 = some (.busAr 0) ∧ decode .trace 0b001_00_011_00000000 = some (.busRdnext 0) ∧
    decode .trace 0b001_00_100_00000000 = some (.busStop 0) ∧ decode .trace 0b001_00_101_00000000 = some (.busErr 0) ∧
    decode .trace 0b001_00_110_00000010 = some (.busRsvd 0 2) ∧
    decode .trace 0b001_00_111_00000000 = some (.busRsvd 1 0) := by decide

/-- R90: the main loop and reset. -/
theorem test_decode_main_and_reset :
    decode .trace 0b010_0000000000000 = some .mainDispatch ∧ decode .trace 0b011_0000000000000 = some .mainEmit ∧
    decode .trace 0b111_0000000000000 = some .reset := by decide

/-- R90: reserved agents, and operand bits that must be zero. -/
theorem test_decode_refuses_malformed :
    decode .trace 0x8000 = none ∧ decode .trace 0xA000 = none ∧ decode .trace 0xC000 = none ∧ decode .trace 0x0400 = none ∧
    decode .trace 0x2800 = none ∧ decode .trace 0x4001 = none ∧ decode .trace 0x6001 = none ∧
    decode .trace 0xF000 = none := by decide

/-- A word with a bit above its format's width is none of the format's words. -/
theorem test_decode_refuses_wide_words :
    decode .ev 0x1100 = none ∧ decode .char 0x131 = none ∧ decode .key 0x10 = none ∧ decode .csrRead 0x80 = none ∧
    decode .csrWrite 0x180 = none ∧ decode .dstate 0x80 = none ∧ decode .busk 8 = none ∧ decode .mcmd 4 = none ∧
    decode .kpstate 4 = none ∧ decode .qop 0x2000 = none ∧ decode .sampleCl 0x0400 = none := by decide

/-- R82, R83: type in bits 11:8, data in bits 7:0. -/
theorem test_decode_event :
    decode .ev 0b0001_00000000 = some (.closedLimitPressed 0) ∧ decode .ev 0b0010_00000000 = some (.closedLimitReleased 0) ∧
    decode .ev 0b0011_00000000 = some (.openLimitPressed 0) ∧ decode .ev 0b0100_00000000 = some (.openLimitReleased 0) ∧
    decode .ev 0b0101_00110101 = some (.keypadNewKey 0x35) ∧ decode .ev 0b0110_00000000 = some (.actuateDoor 0) ∧
    decode .ev 0b0111_00000000 = some (.startDoor 0) ∧ decode .ev 0b1000_11111111 = some (.stopDoor 0xFF) := by decide

/-- R84: the reserved types. -/
theorem test_decode_reserved_event :
    decode .ev 0b0000_00000001 = some (.evReserved0 1) ∧ decode .ev 0b1001_00000000 = some (.evReserved9 0) ∧
    decode .ev 0b1011_00000000 = some (.evReservedAB 1 0) ∧ decode .ev 0b1110_00000000 = some (.evReservedCF 2 0) := by decide

/-- R88, R200: digits, terminator, the rest. -/
theorem test_decode_char :
    decode .char 0x37 = some (.keyDigit0to7 7) ∧ decode .char 0x39 = some (.keyDigit8to9 1) ∧
    decode .char 0x23 = some .keyTerminator ∧ decode .char 0x2A = some (.keyOther 0x2A) ∧
    decode .char 0x3A = some (.keyOther 0x3A) := by decide

/-- R89: row in bits 3:2, column in bits 1:0. -/
theorem test_decode_key :
    decode .key 0b0000 = some .keymap0 ∧ decode .key 0b0001 = some .keymap1 ∧ decode .key 0b0010 = some .keymap2 ∧
    decode .key 0b0011 = some .keymap3 ∧ decode .key 0b0100 = some .keymap4 ∧ decode .key 0b0101 = some .keymap5 ∧
    decode .key 0b0110 = some .keymap6 ∧ decode .key 0b0111 = some .keymap7 ∧ decode .key 0b1000 = some .keymap8 ∧
    decode .key 0b1001 = some .keymap9 ∧ decode .key 0b1010 = some .keymap10 ∧ decode .key 0b1011 = some .keymap11 ∧
    decode .key 0b1100 = some .keymap12 ∧ decode .key 0b1101 = some .keymap13 ∧ decode .key 0b1110 = some .keymap14 ∧
    decode .key 0b1111 = some .keymap15 := by decide

/-- R85: bit 7 is the command bit, bits 6:0 the state of a read. -/
theorem test_decode_csr :
    decode .csrRead 0b0_0000010 = some (.csrRdStatus 2) ∧ decode .csrWrite 0b1_0000001 = some (.csrWrActuate 1) ∧
    decode .csrWrite 0b0_1111111 = some (.csrWrNop 0x7F) := by decide

/-- R86, R87. -/
theorem test_decode_door_state :
    decode .dstate 0x00 = some .dsClosed ∧ decode .dstate 0x01 = some .dsClosingStopped ∧
    decode .dstate 0x02 = some .dsOpen ∧ decode .dstate 0x03 = some .dsOpeningStopped ∧
    decode .dstate 0x04 = some .dsOpening ∧ decode .dstate 0x05 = some .dsClosing ∧
    decode .dstate 0x7F = some .dsInvalid ∧ decode .dstate 0x06 = some (.dsReserved 0x06) ∧
    decode .dstate 0x7E = some (.dsReserved 0x7E) := by decide

/-- R91, R93, R94. -/
theorem test_decode_codes :
    decode .busk 0 = some .kindAw ∧ decode .busk 1 = some .kindRx ∧ decode .busk 2 = some .kindAr ∧
    decode .busk 3 = some .kindRdnext ∧ decode .busk 4 = some .kindStop ∧ decode .busk 5 = some .kindErr ∧
    decode .busk 6 = some (.kindRsvd 0) ∧ decode .busk 7 = some (.kindRsvd 1) ∧
    decode .mcmd 0b00 = some .mStop ∧ decode .mcmd 0b01 = some .mStartOpen ∧ decode .mcmd 0b10 = some .mStartClose ∧
    decode .mcmd 0b11 = some .mcmdReserved ∧
    decode .kpstate 0b00 = some .kpIdle ∧ decode .kpstate 0b01 = some .kpWait ∧ decode .kpstate 0b10 = some .kpScan ∧
    decode .kpstate 0b11 = some .kpRelease := by decide

/-- R95: bit 12 is the operation. -/
theorem test_decode_queue_operation :
    decode .qop 0b1_0001_00000000 = some (.qEnq 0x100) ∧ decode .qop 0b0_0000_00000011 = some (.qDeq 3) := by decide

/-- The encoder writes the same words (95_test_vectors.md, programs P1, P2 and P4). -/
theorem test_encode_trace_words :
    (encode (.tick true true 0b1110 0b1110)).bits = 0x03EE ∧ (encode (.tick false true 0b1111 0b1111)).bits = 0x01FF ∧
    (encode (.busRx 0x80)).bits = 0x2180 ∧ (encode (.busStop 0)).bits = 0x2400 ∧ (encode .reset).bits = 0xE000 := by decide

/-- A table word is placed and read back in the first format that has a row for it (log 1). -/
theorem test_table_word :
    decodeTableWord 16 0x2180 = some (.busRx 0x80) ∧ decodeTableWord 16 0x0700 = some (.startDoor 0) ∧
    decodeTableWord 8 0x80 = some (.csrWrActuate 0) ∧ decodeTableWord 8 0x7F = some .dsInvalid := by decide

/-- The step runs the word placed for it. -/
theorem test_fetch_runs_the_table_word :
    after (step (State.reset.withFetchWord 16 0x0700)) (fun t => (t.doorState, t.dutyOpen, t.dutyClose, t.stim)) =
      some (0x04, 0xFF, 0x00, []) := by decide

/-! ## Single steps, from 95_test_vectors.md -/

/-- Q4, Q5: a full queue. -/
theorem test_enqueue_full :
    after (exec (.qEnq 0x100) fullQueue) (fun t => (t.q.length, t.dropCount, t.out.qResult)) = some (10, 1, some .full) ∧
    after (exec (.qEnq 0x100) { fullQueue with dropCount := 0xFFFF }) (fun t => t.dropCount) = some 0xFFFF := by decide

/-- R111, R112: the examples. -/
theorem test_enqueue_dequeue :
    after (exec (.qEnq 0x100) { State.reset with q := [0x600] }) (fun t => (t.q, t.out.qResult)) =
      some ([0x600, 0x100], some .success) ∧
    after (exec (.qDeq 0) { State.reset with q := [0x600, 0x100] }) (fun t => (t.q, t.out.qResult)) =
      some ([0x100], some (.event 0x600)) ∧
    after (exec (.qDeq 0) State.reset) (fun t => t.out.qResult) = some (some .empty) := by decide

/-- DB2 and DB4. -/
theorem test_debounce_starts_and_confirms :
    after (exec (.dbSampleCl false) State.reset) (fun t => (t.dbCl.armed, t.dbCl.countdown, t.q)) = some (true, 14, []) ∧
    after (exec (.dbSampleCl false) moving) (fun t => (t.dbCl.confirmed, t.dbCl.armed, t.q)) =
      some (false, false, [0x300, 0x538, 0x100]) := by decide

/-- R125: a core with a longer debounce has a wider counter. -/
theorem test_debounce_wide_counter :
    after (exec (.dbSampleCl false) { State.reset with cfg := { Config.reference with nLimit := 300 } })
      (fun t => (t.dbCl.armed, t.dbCl.countdown)) = some (true, 299) ∧
    countdownWidth 15 = 4 ∧ countdownWidth 16 = 5 ∧ countdownWidth 300 = 9 := by decide

/-- DB5: reversion at the fifteenth sample; and the other switch. -/
theorem test_debounce_reverts :
    after (exec (.dbSampleCl true) moving) (fun t => (t.dbCl, t.q.length)) = some (Debounce.reset, 2) ∧
    after (exec (.dbSampleOl false) { State.reset with dbOl := almostPressed }) (fun t => (t.dbOl.confirmed, t.q)) =
      some (false, [0x300]) := by decide

/-- DB11: both switches in one tick. -/
theorem test_tick_order :
    after (exec (.tick false false 0b1111 0b1111) { State.reset with dbCl := almostPressed, dbOl := almostPressed })
      (fun t => t.q) = some [0x100, 0x300] := by decide

/-- K13: with two lines low on each side the lowest wins. -/
theorem test_tick_scan :
    after (exec (.tick true true 0b1001 0b0011) (keypadAt .scan 0)) (fun t => (t.q, t.kpState, t.kpRole)) =
      some ([0x538], .release, .normal) := by decide

/-- K2, K4 and K5. -/
theorem test_tick_idle_and_wait :
    after (exec (.tick true true 0b1110 0b1111) (keypadAt .idle 0)) (fun t => (t.kpState, t.kpCount)) = some (.wait, 4) ∧
    after (exec (.tick true true 0b1110 0b1111) (keypadAt .wait 1)) (fun t => (t.kpState, t.kpCount)) = some (.scan, 0) ∧
    after (exec (.tick true true 0b1111 0b1111) (keypadAt .wait 1)) (fun t => t.kpState) = some .idle := by decide

/-- K11 and K17. -/
theorem test_tick_unresolved_and_release :
    after (exec (.tick true true 0b1101 0b1111) (keypadAt .scan 0)) (fun t => (t.q, t.out.causes)) =
      some ([0x532], [.scanUnresolved 0b1101 0b1111]) ∧
    after (exec (.tick true true 0b1111 0b1111) (keypadAt .release 0)) (fun t => t.kpState) = some .idle := by decide

/-- A keypad code by itself, whatever samples it is given: a wait with more than one tick left counts down (K3), and in another
state nothing happens. -/
theorem test_keypad_codes :
    after (exec .kpWait (keypadAt .wait 4)) (fun t => (t.kpState, t.kpCount, t.inputIndex)) = some (.wait, 3, 1) ∧
    after (exec .kpScan (keypadAt .wait 4)) (fun t => (t.kpState, t.kpCount, t.q)) = some (.wait, 4, []) ∧
    after (exec .kpIdle (keypadAt .scan 0)) (fun t => t.kpState) = some .scan ∧
    after (exec .kpRelease (keypadAt .idle 0)) (fun t => t.kpState) = some .idle := by decide

/-- The code `RX` by itself, whatever byte it is given, is the ignored first byte in phase 0 (B2). -/
theorem test_kind_rx : after (exec .kindRx State.reset) (fun t => (t.busPhase, t.q, t.inputIndex)) = some (1, [], 1) := by
  decide

/-- R136: index 14 is '#', index 9 is '8'. -/
theorem test_keymap :
    after (exec .keymap14 State.reset) (fun t => t.out.keyChar) = some (some 0x23) ∧
    after (exec .keymap9 State.reset) (fun t => t.out.keyChar) = some (some 0x38) := by decide

/-- M5, M8 and M9. -/
theorem test_motor :
    after (exec .mStartOpen { State.reset with dutyClose := 0xFF }) (fun t => (t.dutyOpen, t.dutyClose)) = some (0xFF, 0) ∧
    after (exec .mStartClose moving) (fun t => (t.dutyOpen, t.dutyClose)) = some (0, 0xFF) ∧
    after (exec .mcmdReserved moving) (fun t => (t.dutyOpen, t.dutyClose)) = some (0, 0) ∧
    after (exec .mStop moving) (fun t => (t.dutyOpen, t.dutyClose)) = some (0, 0) := by decide

/-- M8 between its two writes: both channels off (95_test_vectors.md, section 1.4). -/
theorem test_motor_between_the_writes :
    let s := ({ State.reset with dutyOpen := 0xFF } : State).writeDuties ((motorStartCloseWrites 0xFF).take 1)
    (s.dutyOpen, s.dutyClose) = (0, 0) := by decide

/-- A code with another configuration: two digits and '*' (R5, R37). -/
theorem test_validator_configuration :
    after (exec (.keypadNewKey 0x2A)
      { State.reset with
        cfg := { Config.reference with pinLen := 2, pin := 42, terminator := 0x2A }, accValue := 42, accCount := 2 })
      (fun t => (t.mPending, t.accCount)) = some (some 0x700, 0) := by decide

/-- B2, B4 and B5. -/
theorem test_bus_received_byte :
    after (exec (.busRx 0x80) State.reset) (fun t => (t.busPhase, t.q)) = some (1, []) ∧
    after (exec (.busRx 0xFF) { State.reset with busPhase := 1 }) (fun t => (t.busPhase, t.q)) = some (1, [0x600]) ∧
    after (exec (.busRx 0x7F) { State.reset with busPhase := 1 }) (fun t => t.q) = some [] := by decide

/-- B8, B10 and B12. -/
theorem test_bus_read_and_stop :
    after (exec (.busAr 0) { State.reset with doorState := 0x05 }) (fun t => (t.out.busTx, t.busTxDone)) =
      some (some 0x05, true) ∧
    after (exec (.busRdnext 0) { State.reset with busTxDone := true }) (fun t => (t.out.busTx, t.busTxDone)) =
      some (none, true) ∧
    after (exec (.busStop 0) { State.reset with busPhase := 1, busTxDone := true }) (fun t => (t.busPhase, t.busTxDone)) =
      some (0, false) := by decide

/-- B13 and B14. -/
theorem test_bus_error :
    after (exec (.busErr 0) { State.reset with busPhase := 1, q := [0x600] }) (fun t => (t.busPhase, t.q, t.out.causes)) =
      some (0, [0x600], [.busDesync 5]) ∧
    after (exec (.busRsvd 1 0) State.reset) (fun t => t.out.causes) = some [.busDesync 7] := by decide

/-- R181 and R183: from every state. -/
theorem test_limit_press :
    after (exec (.closedLimitPressed 0) moving) (fun t => (t.doorState, t.dutyOpen, t.dutyClose)) = some (0x00, 0, 0) ∧
    after (exec (.openLimitPressed 0) moving) (fun t => (t.doorState, t.dutyOpen, t.dutyClose)) = some (0x02, 0, 0) := by decide

/-- R191, the columns of `START_DOOR` and `STOP_DOOR`. -/
theorem test_start_and_stop :
    after (exec (.startDoor 0) State.reset) (fun t => (t.doorState, t.dutyOpen)) = some (0x04, 0xFF) ∧
    after (exec (.startDoor 0) moving) (fun t => (t.doorState, t.dutyOpen, t.dutyClose)) = some (0x05, 0, 0xFF) ∧
    after (exec (.stopDoor 0) moving) (fun t => (t.doorState, t.dutyOpen)) = some (0x03, 0) := by decide

/-- R187, R188: the toggle on a standing and on a moving door. -/
theorem test_actuate :
    after (exec (.actuateDoor 0) State.reset) (fun t => (t.mPending, t.doorState)) = some (some 0x700, 0x00) ∧
    after (exec (.actuateDoor 0) moving) (fun t => (t.mPending, t.doorState)) = some (some 0x800, 0x04) := by decide

/-- R201, R202: the examples. -/
theorem test_validator :
    after (exec (.keypadNewKey 0x37) { State.reset with accValue := 12, accCount := 2 }) (fun t => (t.accValue, t.accCount)) =
      some (127, 3) ∧
    after (exec .keyTerminator { State.reset with accValue := 1111, accCount := 4 })
      (fun t => (t.mPending, t.accValue, t.accCount)) = some (some 0x700, 0, 0) ∧
    after (exec (.keyDigit8to9 1) { State.reset with accValue := 1111, accCount := 4 }) (fun t => (t.accValue, t.accCount)) =
      some (9, 1) := by decide

/-- S1, S2: the main loop's steps where they are not enabled. -/
theorem test_main_not_enabled :
    refusal (exec .mainDispatch State.reset) = some .mainDispatchNotEnabled ∧
    refusal (exec .mainEmit State.reset) = some .mainEmitNotEnabled ∧
    refusal (exec .mainDispatch { moving with mPending := some 0x700 }) = some .mainDispatchNotEnabled := by decide

/-- R214, R215: the examples. -/
theorem test_main_steps :
    after (exec .mainDispatch { State.reset with q := [0x700] }) (fun t => (t.q, t.doorState, t.dutyOpen)) =
      some ([], 0x04, 0xFF) ∧
    after (exec .mainEmit { State.reset with mPending := some 0x700 }) (fun t => (t.q, t.mPending)) =
      some ([0x700], none) := by decide

/-- R216: reset from a moving door. -/
theorem test_reset : after (exec .reset moving) id = some State.reset := by decide

/-! ## Witnesses: concrete states and operands that meet the hypotheses of each statement that has some -/

/-- An invariant state that is not the reset state. -/
theorem test_moving_inv : Inv moving :=
  ⟨by decide, by decide, by decide, by decide, by decide, by decide, by decide, by decide, by decide, by decide⟩

/-- A state of the hardware's own runs that is not the reset state. -/
theorem test_moving_core_inv : CoreInv moving := ⟨test_moving_inv, by decide, by decide, by decide⟩

theorem test_witness_EncodedInstructionDecodesToItself :
    (Instr.keyOther 0x41).wf = true ∧ (Instr.dsReserved 0x7E).wf = true ∧ (Instr.qEnq 0xFFF).wf = true := by decide

theorem test_witness_DecoderAgreesWithOpcodeTable :
    decode .char 0x41 = some (.keyOther 0x41) ∧ selects .char 0x41 28 = true ∧ selects .qop 0x1FFF 71 = true := by decide

theorem test_witness_TraceWordFormat : moving.kpState ≠ .scan := by decide

theorem test_witness_StepRunsTheDecodedWord :
    ({ moving with stim := [⟨.trace, 0x2180⟩] } : State).stim = ⟨.trace, 0x2180⟩ :: [] ∧
    decode .trace 0x2180 = some (.busRx 0x80) := by decide

theorem test_witness_StepRefusesAMalformedWord :
    ({ moving with stim := [⟨.trace, 0x8000⟩] } : State).stim = ⟨.trace, 0x8000⟩ :: [] ∧
    decode .trace 0x8000 = none := by decide

theorem test_witness_OpenScheduleTakesEnabledSteps : moving.stim = [] := by decide

theorem test_witness_StepStopsOnlyOutsideTheTrace :
    step { moving with stim := [⟨.trace, 0x8000⟩] } = .refused .malformedWord ∧
    step { State.reset with stim := [⟨.trace, 0x4000⟩] } = .refused .mainDispatchNotEnabled ∧
    step { moving with stim := [⟨.trace, 0x6000⟩] } = .refused .mainEmitNotEnabled := ⟨rfl, rfl, rfl⟩

theorem test_witness_QueueIsFirstInFirstOut :
    Memory.wf moving ∧ moving.q.length + ([some 0x100#12, none, some 0x200#12].filterMap id).length ≤ moving.cfg.qCap := by
  decide

/-- A ring whose live range wraps, one that is full, one that is empty. -/
theorem test_witness_RingRefinesTheQueue :
    (⟨[0x100, 0x200, 0x300], 2, 1, 2⟩ : Ring).wf 3 ∧ (⟨[0x100, 0x200, 0x300], 2, 1, 2⟩ : Ring).count < 3 ∧
    (⟨[0x100, 0x200, 0x300], 2, 1, 2⟩ : Ring).toQueue 3 = 0x300 :: [0x100] ∧
    (⟨[0x100, 0x200, 0x300], 2, 2, 3⟩ : Ring).wf 3 ∧ (⟨[0x100, 0x200, 0x300], 2, 2, 3⟩ : Ring).count = 3 ∧
    (⟨[0x100, 0x200, 0x300], 2, 2, 0⟩ : Ring).wf 3 ∧ (⟨[0x100, 0x200, 0x300], 2, 2, 0⟩ : Ring).toQueue 3 = [] := by decide

theorem test_witness_QueueOrderIsKeptByEveryOperation :
    Instr.mainDispatch ≠ .reset ∧ ∃ t, exec .mainDispatch moving = .next t := ⟨by decide, _, rfl⟩

theorem test_witness_OnlyResetLowersTheDropCount :
    (Instr.qEnq 0x100 ≠ .reset ∧ ∃ t, exec (.qEnq 0x100) moving = .next t) ∧ ∃ t, exec .reset moving = .next t :=
  ⟨⟨by decide, _, rfl⟩, _, rfl⟩

theorem test_witness_HeldLevelIsConfirmedOnce :
    (State.reset.db .ol).armed = false ∧ false ≠ (State.reset.db .ol).confirmed ∧ 1 ≤ State.reset.cfg.nLimit ∧
    State.reset.q.length < State.reset.cfg.qCap ∧ 14 < State.reset.cfg.nLimit ∧
    State.reset.cfg.nLimit ≤ 15 := by decide

theorem test_witness_BouncingLineConfirmsNothing :
    (State.reset.db .cl).armed = false ∧ 1 ≤ State.reset.cfg.nLimit ∧
    ¬ List.replicate State.reset.cfg.nLimit (!(State.reset.db .cl).confirmed) <:+: [false, true, false, true] := by decide

/-- A full queue with both switches one sample short of a press. -/
def fullAndPressed : State := { fullQueue with dbCl := almostPressed, dbOl := almostPressed }

theorem test_witness_DroppedLimitEventIsNotRetried :
    false ≠ (fullAndPressed.db .ol).confirmed ∧
    (if (fullAndPressed.db .ol).armed then (fullAndPressed.db .ol).countdown else fullAndPressed.cfg.nLimit) = 1 ∧
    fullAndPressed.q.length = fullAndPressed.cfg.qCap := by decide

theorem test_witness_LowestLineWins : (0b1111#4 : Lines) = 0b1111#4 ∧ (0b0111#4 : Lines) ≠ 0b1111#4 := by decide

theorem test_witness_OnePressGivesOneEvent :
    State.reset.kpState = .idle ∧ State.reset.cfg.nKp = 4 ∧ DebounceOk State.reset.cfg.nLimit State.reset.dbCl ∧
    DebounceOk State.reset.cfg.nLimit State.reset.dbOl ∧ State.reset.dbCl.armed = false ∧
    State.reset.dbOl.armed = false ∧ State.reset.q.length < State.reset.cfg.qCap := by decide

theorem test_witness_KeyGoneWhenTheWaitEndsGivesNothing :
    State.reset.kpState = .idle ∧ State.reset.cfg.nKp = 4 ∧ DebounceOk State.reset.cfg.nLimit State.reset.dbCl ∧
    DebounceOk State.reset.cfg.nLimit State.reset.dbOl ∧ State.reset.dbCl.armed = false ∧
    State.reset.dbOl.armed = false ∧ (0b1110#4 : Lines) ≠ 0b1111#4 := by decide

/-- The step taken in the three witnesses below. -/
def tickWord : State := { moving with stim := [⟨.trace, 0x01EF⟩] }

theorem test_tickWord_inv : Inv tickWord :=
  ⟨by decide, by decide, by decide, by decide, by decide, by decide, by decide, by decide, by decide, by decide⟩

theorem test_witness_KeypadPinsBetweenSteps : Inv tickWord ∧ ∃ t, step tickWord = .next t := ⟨test_tickWord_inv, _, rfl⟩

theorem test_witness_EveryStepKeepsTheInvariants : Inv tickWord ∧ ∃ t, step tickWord = .next t :=
  ⟨test_tickWord_inv, _, rfl⟩

theorem test_witness_EveryAgentStepKeepsDoorAndMotorInAgreement : CoreInv tickWord ∧ ∃ t, step tickWord = .next t :=
  ⟨⟨test_tickWord_inv, by decide, by decide, by decide⟩, _, rfl⟩

theorem test_witness_ConfigurationIsNeverWritten : ∃ t, step tickWord = .next t := ⟨_, rfl⟩

theorem test_witness_AtMostOneMotorChannelIsOn :
    (∀ i ∈ [Instr.mStartOpen, .mStartClose, .mStop, .mcmdReserved], Spec.isMotor i) ∧ MotorPair moving := by decide

theorem test_witness_BusCommandRoundTrip :
    moving.q.length + (([0x80, 0x7F, 0xFF] : List Byte).filter fun b => decide (0x80 ≤ b.toNat)).length ≤ moving.cfg.qCap := by
  decide

theorem test_witness_BusStepTouchesOnlyItsOwnState :
    Spec.isBus (.busRx 0x80) ∧ Spec.isBus (.busRsvd 1 0) ∧ ∃ t, exec (.busRx 0x80) moving = .next t :=
  ⟨.inl ⟨0x80, by decide⟩, .inr ⟨1, 0, rfl⟩, _, rfl⟩

theorem test_witness_DoorCodesAreReadAndChangeNothing :
    0x06 ≤ (0x06#7 : DoorCode).toNat ∧ (0x06#7 : DoorCode).toNat ≤ 0x7E ∧ 0x06 ≤ (0x7E#7 : DoorCode).toNat ∧
    (0x7E#7 : DoorCode).toNat ≤ 0x7E := by decide

theorem test_witness_KeyEventRunsTheRuleOfItsCharacter :
    State.reset.cfg.terminator = 0x23#8 ∧ decode .char ((0x39#8 : Byte).setWidth 16) = some (.keyDigit8to9 1) := by decide

/-- A core whose codes end with another character. -/
def endsWith (terminator : Byte) : State := { State.reset with cfg := { Config.reference with terminator := terminator } }

theorem test_witness_AccessCodeRoundTrip :
    (0 ≤ 9 ∧ 9 ≤ 9) ∧ State.reset.cfg.pinLen = 4 ∧ State.reset.cfg.terminator.toNat < 0x30 ∧
    ({ State.reset with accValue := 9999, accCount := 4 } : State).accCount = 4 ∧
    (State.reset.accCount = 0 ∧ State.reset.accValue = 0#16) := by decide

theorem test_witness_AccessCodeRoundTrip_other_terminators :
    (endsWith 0x44).cfg.pinLen = 4 ∧ 0x39 < (endsWith 0x44).cfg.terminator.toNat ∧
    (endsWith 0x3A).cfg.pinLen = 4 ∧ 0x39 < (endsWith 0x3A).cfg.terminator.toNat ∧
    (endsWith 0x2F).cfg.pinLen = 4 ∧ (endsWith 0x2F).cfg.terminator.toNat < 0x30 ∧
    (endsWith 0x44).accCount = 0 ∧ (endsWith 0x44).accValue = 0#16 ∧ (endsWith 0x3A).accCount = 0 ∧
    (endsWith 0x3A).accValue = 0#16 ∧ (endsWith 0x2F).accCount = 0 ∧ (endsWith 0x2F).accValue = 0#16 := by decide

theorem test_witness_TickEnqueuesInFixedOrder :
    moving.q.length + 3 ≤ moving.cfg.qCap ∧ ∃ t, exec (.tick false true 0b1111 0b1111) moving = .next t :=
  ⟨by decide, _, rfl⟩

theorem test_witness_MainDispatchRunsTheOldestEvent :
    moving.mPending = none ∧ moving.q = 0x300#12 :: [0x538#12] ∧
    decode .ev ((0x300#12 : Ev).setWidth 16) = some (.openLimitPressed 0) := by decide

theorem test_witness_MainEmitEnqueuesThePendingEvent :
    ({ moving with mPending := some 0x800#12 } : State).mPending = some 0x800#12 := by decide

theorem test_witness_MainStepsNeedToBeEnabled :
    ({ moving with mPending := some 0x800#12 } : State).mPending ≠ none ∧ State.reset.q = [] ∧ moving.mPending = none := by
  decide

theorem test_witness_AgentsWriteOnlyTheirRegisters :
    (∃ t, exec (.tick false true 0b1111 0b1111) moving = .next t) ∧
    (Spec.isBus (.busRx 0x80) ∧ ∃ t, exec (.busRx 0x80) moving = .next t) ∧
    ∃ t, exec .mainDispatch moving = .next t :=
  ⟨⟨_, rfl⟩, ⟨.inl ⟨0x80, by decide⟩, _, rfl⟩, _, rfl⟩

theorem test_witness_DrainEndsWithinThreeStepsAnEvent : moving.mPending = none := by decide

theorem test_witness_MainLoopHasItsTurnAgain : moving.stim = [] ∧ moving.q ≠ [] := by decide

theorem test_witness_StackedTogglesReverseTheDoor :
    ({ State.reset with q := [0x600, 0x600], doorState := 0x01 } : State).q = [0x600#12, 0x600#12] ∧
    ({ State.reset with q := [0x600, 0x600], doorState := 0x01 } : State).mPending = none ∧
    ({ State.reset with q := [0x600, 0x600], doorState := 0x01 } : State).doorState.toNat < 2 ∧
    2 ≤ State.reset.cfg.qCap := by decide

/-- Both switches one sample short of a press. -/
def bothPressed : State := { State.reset with dbCl := almostPressed, dbOl := almostPressed }

theorem test_witness_BothLimitPressesInOneTickEndOpen :
    bothPressed.q = [] ∧ bothPressed.mPending = none ∧ 2 ≤ bothPressed.cfg.qCap ∧ bothPressed.kpState ≠ .scan ∧
    bothPressed.dbCl = { pending := false, confirmed := true, countdown := 1, armed := true } ∧
    bothPressed.dbOl = { pending := false, confirmed := true, countdown := 1, armed := true } := by decide

end Sys2Proof.Tests
end

