-- ==== Sys2Proof/Proofs/StepEffects.lean ====
section
/-! SUPPORT. What a step and a completed operation can have done: the one walk through the rows of the table, from which the
statements about every step are derived. -/

namespace Sys2Proof.Machine

/-! ## What a step and an operation can do -/

/-- What a completed operation can have done, by the model's own functions: one constructor for each kind of work, however many
rows of the table do it. A constructor that names no row stands for several, and does not say which. -/
inductive Effect : Instr → State → State → Prop
  /-- Nothing but the bus registers, the outputs and the count of inputs taken. -/
  | recorded {i s} (phase : BitVec 1) (done : Bool) (n : Nat) (o : StepOut) :
    Effect i s { s with busPhase := phase, busTxDone := done, inputIndex := n, out := o }
  /-- A command byte arrives (R163). -/
  | commanded {i s} (b : Byte) (n : Nat) (o : StepOut) :
    Effect i s (State.csrWrite b { s with inputIndex := n, out := o })
  | ticked {s} (cl ol : Level) (sense scan : Lines) : Effect (.tick cl ol sense scan) s (tick cl ol sense scan s.begin)
  | sampled {i s} (sw : Switch) (l : Level) : Effect i s (dbSample sw l s.begin)
  /-- The keypad rule of the present `kp_state` (log 17). -/
  | scanned {i s} (sense scan : Lines) (n : Nat) :
    Effect i s (kpRule s.kpState sense scan { s with inputIndex := n, out := {} })
  /-- An event is dispatched that was not in the queue (log 10). -/
  | dispatched {i s} (e : Ev) : Effect i s (dispatch e s.begin)
  | digit {i s} (d : BitVec 16) (hd : d.toNat ≤ 9) : Effect i s (keyDigit d s.begin)
  | terminator {s} : Effect .keyTerminator s (keyTerminator s.begin)
  | stopped {i s} (h : i = .mStop ∨ i = .mcmdReserved) : Effect i s (motorStop s.begin)
  | startedOpen {s} : Effect .mStartOpen s (motorStartOpen s.begin)
  | startedClose {s} : Effect .mStartClose s (motorStartClose s.begin)
  | enqueued {s} (e : Ev) (r : QResult) : Effect (.qEnq e) s ((s.begin.enqueue e).setQResult r)
  | dequeued {s} (x : BitVec 12) (r : QResult) : Effect (.qDeq x) s (s.begin.qDeq.2.setQResult r)
  | mainDispatched {s} (h : s.dispatchEnabled = true) : Effect .mainDispatch s (mainDispatch s.begin)
  | mainEmitted {s} (e : Ev) (h : s.mPending = some e) : Effect .mainEmit s (mainEmit e s.begin)
  | reset {s} : Effect .reset s s.begin.resetRegisters

/-- `BUS_AW()` in one line (R162). -/
theorem busAw_eq (s : State) :
    busAw s = { s with busPhase := 0#1, busTxDone := false, out := { s.out with busTx := none } } := rfl

/-- `BUS_AR()` in one line (R164). -/
theorem busAr_eq (s : State) : busAr s = { s with busTxDone := true, out := { s.out with busTx := some s.csrRead } } := rfl

/-- `BUS_STOP()` in one line (R166). -/
theorem busStop_eq (s : State) :
    busStop s = { s with busPhase := 0#1, busTxDone := false, out := { s.out with busTx := none } } := rfl

/-- `BUS_ERR()` in one line (R167): the cause changes no register. -/
theorem busErr_eq (kind : BitVec 3) (s : State) :
    busErr kind s =
      { s with
        busPhase := 0#1, busTxDone := false
        out := { s.out with busTx := none, causes := s.out.causes ++ [.busDesync kind] } } := rfl

/-- A received byte opens the write or is a command byte (R163). -/
theorem busRx_cases (b : Byte) (s : State) :
    busRx b s = (s.setBusTx none).setBusPhase 1#1 ∨ busRx b s = (s.setBusTx none).csrWrite b := by
  unfold busRx
  dsimp only
  split
  · exact .inl rfl
  · exact .inr rfl

theorem effect_busRx {i : Instr} {s : State} (b : Byte) (n : Nat) :
    Effect i s (busRx b { s with inputIndex := n, out := {} }) := by
  rcases busRx_cases b { s with inputIndex := n, out := {} } with h | h <;> rw [h]
  · exact .recorded ..
  · exact .commanded ..

theorem effect_kpRuleWhen {i : Instr} {s : State} (k : KpState) : Effect i s (kpRuleWhen k s.begin) := by
  unfold kpRuleWhen
  split
  · next h => subst h; exact .scanned ..
  · exact .recorded ..

theorem effect_of_event {i : Instr} {s t : State} {type : BitVec 4} {d : Byte} (h : dispatch (mkEv type d) s.begin = t) :
    Effect i s t := h ▸ .dispatched _

theorem digitValue_0to7_le : ∀ low : BitVec 3, (digitValue (0b00110#5 ++ low)).toNat ≤ 9 := by decide

theorem digitValue_8to9_le : ∀ low : BitVec 1, (digitValue (0b0011100#7 ++ low)).toNat ≤ 9 := by decide

/-- `MAIN_DISPATCH` completes only where it is enabled (R214). -/
theorem exec_mainDispatch_next {s t : State} (h : exec .mainDispatch s = .next t) :
    s.dispatchEnabled = true ∧ t = mainDispatch s.begin := by
  change execMainDispatch s = _ at h
  unfold execMainDispatch at h
  split at h
  · next hen => cases h; exact ⟨hen, rfl⟩
  · cases h

/-- `MAIN_EMIT` completes only where an event is pending (R215). -/
theorem exec_mainEmit_next {s t : State} (h : exec .mainEmit s = .next t) :
    ∃ e, s.mPending = some e ∧ t = mainEmit e s.begin := by
  change execMainEmit s = _ at h
  unfold execMainEmit at h
  split at h
  · next e he => cases h; exact ⟨e, he, rfl⟩
  · cases h

/-- A completed operation has one of the effects: the one walk through the rows of the table. The rows
left for the last arm change no register but those of the bus. -/
theorem effect_of_exec {i : Instr} {s t : State} (h : exec i s = .next t) : Effect i s t := by
  cases i with
  | tick => cases h; exact .ticked ..
  | dbSampleCl l => cases h; exact .sampled .cl l
  | dbSampleOl l => cases h; exact .sampled .ol l
  | busRx b => cases h; exact effect_busRx b s.inputIndex
  | kindRx => cases h; exact effect_busRx _ (s.inputIndex + 1)
  | csrWrActuate | csrWrNop => cases h; exact .commanded ..
  | busAw | kindAw => cases h; exact busAw_eq s.begin ▸ .recorded ..
  | busAr | kindAr => cases h; exact busAr_eq s.begin ▸ .recorded ..
  | busStop | kindStop => cases h; exact busStop_eq s.begin ▸ .recorded ..
  | busErr | kindErr | busRsvd | kindRsvd => cases h; exact busErr_eq _ s.begin ▸ .recorded ..
  | mainDispatch =>
    obtain ⟨hen, rfl⟩ := exec_mainDispatch_next h
    exact .mainDispatched hen
  | mainEmit =>
    obtain ⟨e, he, rfl⟩ := exec_mainEmit_next h
    exact .mainEmitted e he
  | reset => cases h; exact .reset
  | closedLimitPressed d => cases h; exact effect_of_event (dispatch_mkEv tyClosedLimitPressed d _)
  | openLimitPressed d => cases h; exact effect_of_event (dispatch_mkEv tyOpenLimitPressed d _)
  | keypadNewKey d => cases h; exact effect_of_event (dispatch_mkEv tyKeypadNewKey d _)
  | actuateDoor d => cases h; exact effect_of_event (dispatch_mkEv tyActuateDoor d _)
  | startDoor d => cases h; exact effect_of_event (dispatch_mkEv tyStartDoor d _)
  | stopDoor d => cases h; exact effect_of_event (dispatch_mkEv tyStopDoor d _)
  | keyDigit0to7 low => cases h; exact .digit _ (digitValue_0to7_le low)
  | keyDigit8to9 low => cases h; exact .digit _ (digitValue_8to9_le low)
  | keyTerminator => cases h; exact .terminator
  | mStop => cases h; exact .stopped (.inl rfl)
  | mcmdReserved => cases h; exact .stopped (.inr rfl)
  | mStartOpen => cases h; exact .startedOpen
  | mStartClose => cases h; exact .startedClose
  | kpIdle | kpWait | kpScan | kpRelease => cases h; exact effect_kpRuleWhen _
  | qEnq => cases h; exact .enqueued ..
  | qDeq => cases h; exact .dequeued ..
  | _ => cases h; exact .recorded ..

/-- A step that answers a next state runs the word lined up, or what the open schedule gives, or the main loop sleeps on
(R217, R218). -/
theorem step_cases {s t : State} (h : step s = .next t) :
    (∃ w rest i, s.stim = w :: rest ∧ decode w.fmt w.bits = some i ∧ exec i s.consume = .next t) ∨
    (s.stim = [] ∧ ∃ i, s.scheduled = some i ∧ exec i s.advance = .next t) ∨
    (s.stim = [] ∧ s.scheduled = none ∧ t = s.advance.begin) := by
  unfold step at h
  split at h
  · next w rest hs =>
    split at h
    · next i hi => exact .inl ⟨w, rest, i, hs, hi, h⟩
    · cases h
  · next hs =>
    split at h
    · next i hi => exact .inr (.inl ⟨hs, i, hi, h⟩)
    · next hn => cases h; exact .inr (.inr ⟨hs, hn, rfl⟩)

/-- The main loop's dispatch runs the rule of the oldest event on the state without it (R214). -/
theorem mainDispatch_cases (s : State) :
    (s.q = [] ∧ mainDispatch s = s) ∨ ∃ e rest, s.q = e :: rest ∧ mainDispatch s = dispatch e { s with q := rest } := by
  rcases qDeq_cases s with ⟨hq, h⟩ | ⟨e, rest, hq, h⟩
  · exact .inl ⟨hq, by simp [mainDispatch, h]⟩
  · exact .inr ⟨e, rest, hq, by simp [mainDispatch, h]⟩

end Sys2Proof.Machine
end

