-- ==== Sys2Proof/Proofs/Invariants.lean ====
section
/-! PROOFS, 10_state.md: the invariants that every step keeps, and the pins between steps. -/

namespace Sys2Proof.Machine

/-! ## What the invariants say, part by part -/

theorem Inv.nLimit_pos {s : State} (h : Inv s) : 1 ≤ s.cfg.nLimit := by
  obtain ⟨hlimit, _, _, _⟩ := h.cfg
  exact hlimit

theorem Inv.nKp_pos {s : State} (h : Inv s) : 1 ≤ s.cfg.nKp := by
  obtain ⟨_, hkp, _, _⟩ := h.cfg
  exact hkp

theorem Inv.pinLen_pos {s : State} (h : Inv s) : 1 ≤ s.cfg.pinLen := by
  obtain ⟨_, _, hpin, _⟩ := h.cfg
  exact hpin

theorem Inv.kpCount_range {s : State} (h : Inv s) (hk : s.kpState = .wait) : 1 ≤ s.kpCount ∧ s.kpCount ≤ s.cfg.nKp := by
  obtain ⟨hwait, _, _⟩ := h.keypad
  exact hwait hk

theorem Inv.kpCount_eq_zero {s : State} (h : Inv s) (hk : s.kpState ≠ .wait) : s.kpCount = 0 := by
  obtain ⟨_, hother, _⟩ := h.keypad
  exact hother hk

theorem Inv.kpRole_normal {s : State} (h : Inv s) : s.kpRole = .normal := by
  obtain ⟨_, _, hrole⟩ := h.keypad
  exact hrole

theorem Inv.accCount_le {s : State} (h : Inv s) : s.accCount ≤ s.cfg.pinLen := by
  obtain ⟨hcount, _⟩ := h.acc
  exact hcount

theorem Inv.accValue_lt {s : State} (h : Inv s) (hc : s.accCount ≤ 4) : s.accValue.toNat < 10 ^ s.accCount := by
  obtain ⟨_, hvalue⟩ := h.acc
  exact hvalue hc

/-! ## The invariants under the writes of the registers -/

/-- The fields that no invariant reads take any value. -/
theorem Inv.write_unread {s : State} (h : Inv s) (drop : BitVec 16) (phase : BitVec 1) (done : Bool) (stim : List Stim)
    (sched n : Nat) (o : StepOut) :
    Inv { s with
      dropCount := drop, busPhase := phase, busTxDone := done, stim := stim, schedIndex := sched, inputIndex := n
      out := o } :=
  { h with }

theorem Inv.begin {s : State} (h : Inv s) : Inv s.begin := h.write_unread ..

theorem Inv.consume {s : State} (h : Inv s) : Inv s.consume := h.write_unread ..

theorem Inv.advance {s : State} (h : Inv s) : Inv s.advance := h.write_unread ..

theorem Inv.setQResult {s : State} (h : Inv s) (r : QResult) : Inv (s.setQResult r) := h.write_unread ..

theorem Inv.raise {s : State} (h : Inv s) (c : Cause) : Inv (s.raise c) := h.write_unread ..

/-- R115: a queue within the capacity. -/
theorem Inv.write_queue {s : State} (h : Inv s) {q : List Ev} (hq : q.length ≤ s.cfg.qCap) : Inv { s with q := q } :=
  { h with queue := hq }

/-- R24: the registers of a debounce process in order; its counter fits then too (R125). -/
theorem Inv.setDb {s : State} (h : Inv s) {i : Switch} {d : Debounce} (hd : DebounceOk s.cfg.nLimit d) :
    Inv (s.setDb i d) := by
  cases i with
  | cl =>
    exact { h with
      closedLimit := hd
      counters := countersFit_of_ranges (s := s.setDb .cl d) h.cfg hd h.openLimit h.keypad h.acc }
  | ol =>
    exact { h with
      openLimit := hd
      counters := countersFit_of_ranges (s := s.setDb .ol d) h.cfg h.closedLimit hd h.keypad h.acc }

/-- R25: the keypad countdown running in `KP_WAIT` only, and within its range; it fits its width then too (R125). -/
theorem Inv.write_keypad {s : State} (h : Inv s) {k : KpState} {n : Nat} (hwait : k = .wait → 1 ≤ n ∧ n ≤ s.cfg.nKp)
    (hother : k ≠ .wait → n = 0) : Inv ((s.setKpCount n).setKpState k) :=
  have hk : KeypadOk ((s.setKpCount n).setKpState k) := ⟨hwait, hother, h.kpRole_normal⟩
  { h with
    keypad := hk
    counters := countersFit_of_ranges (s := (s.setKpCount n).setKpState k) h.cfg h.closedLimit h.openLimit hk h.acc }

/-- R28, R155: one of the pairs of duties that can be observed. -/
theorem Inv.write_duties {s : State} (h : Inv s) {o c : Byte} (hm : MotorPair { s with dutyOpen := o, dutyClose := c }) :
    Inv { s with dutyOpen := o, dutyClose := c } :=
  { h with motor := hm }

/-- R194: one of the six door states. -/
theorem Inv.setDoor {s : State} (h : Inv s) {d : DoorCode} (hd : d ≤ 0x05#7) : Inv (s.setDoor d) := { h with door := hd }

/-- R33: an accumulator in its range; its counter fits then too (R125). -/
theorem Inv.setAcc {s : State} (h : Inv s) {v : BitVec 16} {n : Nat} (hn : n ≤ s.cfg.pinLen)
    (hv : n ≤ 4 → v.toNat < 10 ^ n) : Inv (s.setAcc v n) :=
  { h with
    acc := ⟨hn, hv⟩
    counters := countersFit_of_ranges (s := s.setAcc v n) h.cfg h.closedLimit h.openLimit h.keypad ⟨hn, hv⟩ }

/-- R34: nothing pending, or a derived event. -/
theorem Inv.setPending {s : State} (h : Inv s) {p : Option Ev} (hp : PendingOk (s.setPending p)) : Inv (s.setPending p) :=
  { h with pending := hp }

/-! ## The invariants under the operations -/

theorem Inv.enqueue {s : State} (h : Inv s) (e : Ev) : Inv (s.enqueue e) := by
  have hq : Memory.wf (s.enqueue e) := memory_wf_enqueue h.queue
  rcases enqueue_cases e s with ⟨_, he⟩ | ⟨_, he⟩ <;> rw [he] at hq ⊢
  · exact h.raise _
  · exact h.write_queue hq

theorem Inv.qDeq {s : State} (h : Inv s) : Inv s.qDeq.2 := by
  have hq : Memory.wf s.qDeq.2 := memory_wf_qDeq h.queue
  rcases qDeq_cases s with ⟨_, he⟩ | ⟨_, _, _, he⟩ <;> rw [he] at hq ⊢
  · exact h
  · exact h.write_queue hq

theorem Inv.csrWrite {s : State} (h : Inv s) (b : Byte) : Inv (s.csrWrite b) := by
  cases hb : commandBit b with
  | true => exact csrWrite_of_command hb ▸ h.enqueue _
  | false => exact csrWrite_of_nop hb ▸ h

/-- A process that starts a window times the level that it does not report, from `N_LIMIT` (R121). -/
theorem debounceArm_timed {n : Nat} {l : Level} {d : Debounce} (hn : 1 ≤ n) (h : DebounceOk n d) (hl : l ≠ d.confirmed) :
    (debounceArm n l d).pending = l ∧ (debounceArm n l d).confirmed = d.confirmed ∧ (debounceArm n l d).armed = true ∧
    1 ≤ (debounceArm n l d).countdown ∧ (debounceArm n l d).countdown ≤ n := by
  cases ha : d.armed with
  | false => simp [debounceArm, ha, hn]
  | true =>
    obtain ⟨hp, hlo, hhi⟩ := h.2 ha
    have hl' : l = !d.confirmed := Bool.eq_not_of_ne hl
    simp only [debounceArm, ha, if_true]
    exact ⟨hp.trans hl'.symm, trivial, trivial, hlo, by omega⟩

/-- R24 is kept by a sample, where the debounce length is at least one. -/
theorem debounceOk_next {n : Nat} {l : Level} {d : Debounce} (hn : 1 ≤ n) (h : DebounceOk n d) :
    DebounceOk n (debounceNext n l d).1 := by
  by_cases hl : l = d.confirmed
  · rw [debounceNext_same hl]
    exact ⟨fun _ => ⟨rfl, rfl⟩, nofun⟩
  · obtain ⟨hp, hc, ha, hlo, hhi⟩ := debounceArm_timed hn h hl
    by_cases h1 : (debounceArm n l d).countdown = 1
    · rw [debounceNext_confirm hl h1]
      exact ⟨fun _ => ⟨rfl, hp⟩, nofun⟩
    · rw [debounceNext_count hl h1, counterPred_of_pos hlo]
      refine ⟨fun hf => ?_, fun _ => ⟨?_, ?_⟩⟩
      · exact absurd (ha.symm.trans hf) (by decide)
      · exact (hp.trans (Bool.eq_not_of_ne hl)).trans (congrArg _ hc.symm)
      · dsimp only; omega

theorem Inv.dbSample {s : State} (h : Inv s) (i : Switch) (l : Level) : Inv (dbSample i l s) := by
  have hdb : DebounceOk s.cfg.nLimit (s.db i) := by
    cases i with
    | cl => exact h.closedLimit
    | ol => exact h.openLimit
  have hset : Inv (s.setDb i (debounceNext s.cfg.nLimit l (s.db i)).1) := h.setDb (debounceOk_next h.nLimit_pos hdb)
  rcases dbSample_cases i l s with ⟨_, he⟩ | ⟨_, he⟩ <;> rw [he]
  · exact hset
  · exact hset.enqueue _

/-- In a state that is not `KP_WAIT` the sequencer may go to any other that is not (R25). -/
theorem Inv.setKpState {s : State} (h : Inv s) {k : KpState} (hs : s.kpState ≠ .wait) (hk : k ≠ .wait) :
    Inv (s.setKpState k) := by
  have := h.write_keypad (k := k) (n := s.kpCount) (absurd · hk) fun _ => h.kpCount_eq_zero hs
  exact this

/-- R133: the countdown stays within its range while it runs. -/
theorem Inv.kpWaitRule {s : State} (h : Inv s) (hk : s.kpState = .wait) (sense : Lines) : Inv (kpWaitRule sense s) := by
  obtain ⟨hlo, hhi⟩ := h.kpCount_range hk
  rcases kpWaitRule_cases sense s with ⟨hne, he⟩ | ⟨_, _, he⟩ | ⟨_, _, he⟩ <;> rw [he]
  · rw [counterPred_of_pos hlo]
    have := h.write_keypad (k := s.kpState) (n := s.kpCount - 1) (fun _ => by omega) (absurd hk)
    exact this
  · exact h.write_keypad nofun fun _ => rfl
  · exact h.write_keypad nofun fun _ => rfl

theorem Inv.raiseUnresolved {s : State} (h : Inv s) (sense scan : Lines) : Inv (raiseUnresolved sense scan s) := by
  unfold Machine.raiseUnresolved
  split
  · exact h.raise _
  · exact h

@[simp] theorem raiseUnresolved_kpState (sense scan : Lines) (s : State) :
    (raiseUnresolved sense scan s).kpState = s.kpState := by
  unfold raiseUnresolved; split <;> rfl

/-- The role is exchanged and put back within the scan (R134), so that a scan from role `NORMAL` leaves it as it was. -/
theorem setKpRole_swapped_normal {s : State} (h : s.kpRole = .normal) : (s.setKpRole .swapped).setKpRole .normal = s := by
  change { s with kpRole := .normal } = s
  rw [← h]

theorem Inv.kpScanRule {s : State} (h : Inv s) (hk : s.kpState = .scan) (sense scan : Lines) :
    Inv (kpScanRule sense scan s) := by
  rw [kpScanRule_eq, setKpRole_swapped_normal h.kpRole_normal]
  exact ((h.raiseUnresolved sense scan).enqueue _).setKpState (by simp [hk]) nofun

/-- The rule of the present `kp_state` keeps the invariants (R132 to R135). -/
theorem Inv.kpRule {s : State} (h : Inv s) {k : KpState} (hk : s.kpState = k) (sense scan : Lines) :
    Inv (kpRule k sense scan s) := by
  cases k with
  | idle =>
    change Inv (kpIdleRule sense s)
    unfold kpIdleRule
    split
    · exact h.write_keypad (fun _ => ⟨h.nKp_pos, le_rfl⟩) (absurd rfl)
    · exact h
  | wait => exact h.kpWaitRule hk sense
  | scan => exact h.kpScanRule hk sense scan
  | release =>
    change Inv (kpReleaseRule sense s)
    unfold kpReleaseRule
    split
    · exact h
    · exact h.setKpState (by simp [hk]) nofun

theorem Inv.tick {s : State} (h : Inv s) (cl ol : Level) (sense scan : Lines) : Inv (tick cl ol sense scan s) :=
  ((h.dbSample .cl cl).dbSample .ol ol).kpRule (by simp) sense scan

theorem Inv.motorStop {s : State} (h : Inv s) : Inv (motorStop s) := h.write_duties (motorStop_pair s)

theorem Inv.motorStartOpen {s : State} (h : Inv s) : Inv (motorStartOpen s) := h.write_duties (motorStartOpen_pair s)

theorem Inv.motorStartClose {s : State} (h : Inv s) : Inv (motorStartClose s) := h.write_duties (motorStartClose_pair s)

theorem Inv.clearAcc {s : State} (h : Inv s) : Inv (s.setAcc 0#16 0) := h.setAcc (Nat.zero_le _) fun _ => by decide

/-- A digit behind fewer than four fits the 16 bits of the accumulator (R98, R205). -/
theorem accAppend_lt {v d : BitVec 16} {n : Nat} (hn : n + 1 ≤ 4) (hv : v.toNat < 10 ^ n) (hd : d.toNat ≤ 9) :
    (accAppend v d).toNat < 10 ^ (n + 1) := by
  have hpow : 10 ^ (n + 1) ≤ 10 ^ 4 := Nat.pow_le_pow_right (by decide) hn
  have hlt : v.toNat * 10 + d.toNat < 10 ^ (n + 1) := by rw [pow_succ]; omega
  have heq : (accAppend v d).toNat = v.toNat * 10 + d.toNat := by
    rw [accAppend, BitVec.toNat_add, BitVec.toNat_mul, Nat.mod_add_mod]
    exact Nat.mod_eq_of_lt (by norm_num at hpow ⊢; omega)
  omega

/-- One more digit where there is room for it (R33, R201). -/
theorem Inv.appendDigit {s : State} (h : Inv s) {d : BitVec 16} (hd : d.toNat ≤ 9) (hroom : s.accCount < s.cfg.pinLen) :
    Inv (s.setAcc (accAppend s.accValue d) (counterSucc (accCountWidth s.cfg.pinLen) s.accCount)) := by
  have hsucc : counterSucc (accCountWidth s.cfg.pinLen) s.accCount = s.accCount + 1 :=
    counterSucc_of_lt hroom (lt_counterWidth 3 _)
  rw [hsucc]
  exact h.setAcc hroom fun hn => accAppend_lt hn (h.accValue_lt (by omega)) hd

theorem Inv.keyDigit {s : State} (h : Inv s) {d : BitVec 16} (hd : d.toNat ≤ 9) : Inv (keyDigit d s) := by
  unfold Machine.keyDigit
  split
  · exact h.clearAcc.appendDigit hd h.pinLen_pos
  · next hne => exact h.appendDigit hd (lt_of_le_of_ne h.accCount_le hne)

/-- R188: a toggle request leaves one of the two derived events. -/
theorem Inv.setToggle {s : State} (h : Inv s) (d : DoorCode) : Inv (s.setPending (some (evOf (toggle d)))) := by
  rcases toggle_cases d with ⟨_, ht⟩ | ⟨_, ht⟩ <;> rw [ht]
  · exact h.setPending (.inr (.inr rfl))
  · exact h.setPending (.inr (.inl rfl))

theorem Inv.keyTerminator {s : State} (h : Inv s) : Inv (keyTerminator s) := by
  unfold Machine.keyTerminator
  split
  · exact (h.setToggle _).clearAcc
  · exact h.clearAcc

/-- The value of a digit character (R98). -/
theorem digitValue_le {ch : Byte} (h : isDigit ch = true) : (digitValue ch).toNat ≤ 9 := by
  simp only [isDigit, Bool.and_eq_true, decide_eq_true_eq, BitVec.le_def] at h
  simp only [digitValue, BitVec.toNat_setWidth, BitVec.toNat_sub]
  simp at h ⊢
  omega

theorem Inv.validate {s : State} (h : Inv s) (ch : Byte) : Inv (validate ch s) := by
  unfold Machine.validate
  split
  · next hd => exact h.keyDigit (digitValue_le hd)
  · split
    · exact h.keyTerminator
    · exact h

theorem Inv.onStartDoor {s : State} (h : Inv s) : Inv (onStartDoor s) := by
  unfold Machine.onStartDoor
  split
  · exact (h.setDoor (by decide)).motorStartOpen
  · exact (h.setDoor (by decide)).motorStartClose

theorem Inv.onStopDoor {s : State} (h : Inv s) : Inv (onStopDoor s) := by
  unfold Machine.onStopDoor
  split
  · exact (h.setDoor (by decide)).motorStop
  · split
    · exact (h.setDoor (by decide)).motorStop
    · exact h

theorem Inv.dispatch {s : State} (h : Inv s) (e : Ev) : Inv (dispatch e s) := by
  unfold Machine.dispatch
  split
  · exact (h.setDoor (by decide)).motorStop
  · exact h
  · exact (h.setDoor (by decide)).motorStop
  · exact h
  · exact h.validate _
  · exact h.setToggle _
  · exact h.onStartDoor
  · exact h.onStopDoor
  · exact h

theorem Inv.mainDispatch {s : State} (h : Inv s) : Inv (mainDispatch s) := by
  rcases mainDispatch_cases s with ⟨_, he⟩ | ⟨e, rest, hq, he⟩ <;> rw [he]
  · exact h
  · have hlen := h.queue
    rw [Memory.wf, hq] at hlen
    exact (h.write_queue (Nat.le_of_succ_le hlen)).dispatch e

/-- R40: the reset values meet the invariants in every configuration that they need. -/
theorem inv_resetRegisters {s : State} (h : s.cfg.wf) : Inv s.resetRegisters := by
  have hdb : DebounceOk s.cfg.nLimit Debounce.reset := ⟨fun _ => ⟨rfl, rfl⟩, nofun⟩
  have hkp : KeypadOk s.resetRegisters := ⟨nofun, fun _ => rfl, rfl⟩
  have hacc : AccOk s.resetRegisters := ⟨Nat.zero_le _, fun _ => Nat.one_pos⟩
  exact
    { cfg := h, queue := Nat.zero_le _, closedLimit := hdb, openLimit := hdb, keypad := hkp, motor := .inl ⟨rfl, rfl⟩
      door := Nat.zero_le _, acc := hacc, counters := countersFit_of_ranges (s := s.resetRegisters) h hdb hdb hkp hacc
      pending := .inl rfl }

/-! ## Every step keeps the invariants -/

/-- Whatever an operation did, it kept the invariants. -/
theorem Inv.of_effect {i : Instr} {s t : State} (h : Inv s) (he : Effect i s t) : Inv t := by
  have hb := h.begin
  cases he with
  | recorded => exact h.write_unread ..
  | commanded b n o => exact Inv.csrWrite (h.write_unread ..) b
  | ticked => exact hb.tick ..
  | sampled => exact hb.dbSample ..
  | scanned sense scan n => 
    have hn : Inv { s with inputIndex := n, out := {} } := h.write_unread ..
    exact hn.kpRule rfl sense scan
  | dispatched e => exact hb.dispatch e
  | digit d hd => exact hb.keyDigit hd
  | terminator => exact hb.keyTerminator
  | stopped => exact hb.motorStop
  | startedOpen => exact hb.motorStartOpen
  | startedClose => exact hb.motorStartClose
  | enqueued e r => exact (hb.enqueue e).setQResult r
  | dequeued _ r => exact hb.qDeq.setQResult r
  | mainDispatched => exact hb.mainDispatch
  | mainEmitted e => exact (hb.enqueue e).setPending (.inl rfl)
  | reset => exact inv_resetRegisters h.cfg

theorem Inv.of_step {s t : State} (h : Inv s) (hst : step s = .next t) : Inv t := by
  rcases step_cases hst with ⟨_, _, i, _, _, hi⟩ | ⟨_, i, _, hi⟩ | ⟨_, _, rfl⟩
  · exact h.consume.of_effect (effect_of_exec hi)
  · exact h.advance.of_effect (effect_of_exec hi)
  · exact h.advance.begin

/-- Settles O58: the invariants are kept by the writes, by the operations made of them, and so by every effect of a step. -/
theorem everyStepKeepsTheInvariants : Obligations.EveryStepKeepsTheInvariants :=
  fun _ _ h hst => h.of_step hst


/-- Settles O57: the reset state is what reset makes of itself, and its configuration is well formed. -/
theorem resetMeetsTheInvariants : Obligations.ResetMeetsTheInvariants := by
  have hinv : Inv State.reset := inv_resetRegisters (s := State.reset) (by decide)
  exact ⟨hinv, { inv := hinv, agree := by decide, events := nofun, words := nofun }⟩

/-- Settles O9: R40's table, read off the state after reset. -/
theorem resetValues : Obligations.ResetValues := by
  unfold Obligations.ResetValues
  decide

/-! ## The pins between steps -/

/-- The pin outputs of role `NORMAL` (R39). -/
theorem pins_of_normal {s : State} (h : s.kpRole = .normal) :
    s.scanOe = true ∧ s.scanOut = some 0b0000#4 ∧ s.senseOe = false ∧ s.senseOut = none := by
  simp [State.scanOe, State.scanOut, State.senseOe, State.senseOut, h]

/-- Settles O27: the invariants that every step keeps hold the role at `NORMAL` (R26). -/
theorem keypadPinsBetweenSteps : Obligations.KeypadPinsBetweenSteps :=
  fun _ _ h hst => pins_of_normal (h.of_step hst).kpRole_normal

end Sys2Proof.Machine
end

