-- ==== Sys2Proof/Proofs/Writes.lean ====
section
/-! PROOFS, 10_state.md: the registers that each agent writes, and the course of `drop_count`. -/

namespace Sys2Proof.Machine

open Sys2Proof.Spec

/-! ## Writes of named fields only

Each predicate says that the second state is the first but for the fields it names. -/

/-- The queue, `drop_count` and the outputs. -/
def QueueWrites (s t : State) : Prop := t = { s with q := t.q, dropCount := t.dropCount, out := t.out }

/-- The registers of the door FSM, the motor and the validator (R41). -/
def DoorWrites (s t : State) : Prop :=
  t = { s with
    doorState := t.doorState, dutyOpen := t.dutyOpen, dutyClose := t.dutyClose, accValue := t.accValue
    accCount := t.accCount, mPending := t.mPending }

/-- What a tick may write (R41). -/
def TickWrites (s t : State) : Prop :=
  t = { s with
    q := t.q, dropCount := t.dropCount, dbCl := t.dbCl, dbOl := t.dbOl, kpState := t.kpState
    kpCount := t.kpCount, kpRole := t.kpRole, out := t.out }

/-- What a bus step may write (R41). -/
def BusWrites (s t : State) : Prop :=
  t = { s with q := t.q, dropCount := t.dropCount, busPhase := t.busPhase, busTxDone := t.busTxDone, out := t.out }

/-- What a step of the main loop may write (R41). -/
def MainWrites (s t : State) : Prop :=
  t = { s with
    q := t.q, dropCount := t.dropCount, doorState := t.doorState, dutyOpen := t.dutyOpen
    dutyClose := t.dutyClose, accValue := t.accValue, accCount := t.accCount, mPending := t.mPending
    out := t.out }

theorem TickWrites.trans {s t u : State} (h : TickWrites s t) (h' : TickWrites t u) : TickWrites s u :=
  Eq.trans h' (by rw [h])

theorem BusWrites.trans {s t u : State} (h : BusWrites s t) (h' : BusWrites t u) : BusWrites s u :=
  Eq.trans h' (by rw [h])

theorem MainWrites.trans {s t u : State} (h : MainWrites s t) (h' : MainWrites t u) : MainWrites s u :=
  Eq.trans h' (by rw [h])

theorem QueueWrites.tick {s t : State} (h : QueueWrites s t) : TickWrites s t := by rw [h]; rfl

theorem QueueWrites.bus {s t : State} (h : QueueWrites s t) : BusWrites s t := by rw [h]; rfl

theorem QueueWrites.main {s t : State} (h : QueueWrites s t) : MainWrites s t := by rw [h]; rfl

theorem DoorWrites.main {s t : State} (h : DoorWrites s t) : MainWrites s t := by rw [h]; rfl

theorem DoorWrites.dropCount_eq {s t : State} (h : DoorWrites s t) : t.dropCount = s.dropCount := by rw [h]

/-! ## What each operation writes -/

theorem enqueue_writes (e : Ev) (s : State) : QueueWrites s (s.enqueue e) := by
  rcases enqueue_cases e s with ⟨_, h⟩ | ⟨_, h⟩ <;> rw [h] <;> rfl

theorem csrWrite_writes (b : Byte) (s : State) : QueueWrites s (s.csrWrite b) := by
  cases hb : commandBit b with
  | true => exact csrWrite_of_command hb ▸ enqueue_writes _ _
  | false => exact csrWrite_of_nop hb ▸ rfl

theorem busRx_writes (b : Byte) (s : State) : BusWrites s (busRx b s) := by
  have htx : BusWrites s (s.setBusTx none) := rfl
  rcases busRx_cases b s with h | h <;> rw [h]
  · rfl
  · exact htx.trans (csrWrite_writes b _).bus

theorem dbSample_writes (i : Switch) (l : Level) (s : State) : TickWrites s (dbSample i l s) := by
  have hset (d : Debounce) : TickWrites s (s.setDb i d) := by cases i <;> rfl
  rcases dbSample_cases i l s with ⟨_, h⟩ | ⟨_, h⟩ <;> rw [h]
  · exact hset _
  · exact (hset _).trans (enqueue_writes _ _).tick

theorem kpIdleRule_writes (sense : Lines) (s : State) : TickWrites s (kpIdleRule sense s) := by
  unfold kpIdleRule; split <;> rfl

theorem kpWaitRule_writes (sense : Lines) (s : State) : TickWrites s (kpWaitRule sense s) := by
  rcases kpWaitRule_cases sense s with ⟨_, h⟩ | ⟨_, _, h⟩ | ⟨_, _, h⟩ <;> rw [h] <;> rfl

theorem raiseUnresolved_writes (sense scan : Lines) (s : State) : QueueWrites s (raiseUnresolved sense scan s) := by
  unfold raiseUnresolved; split <;> rfl

theorem kpScanRule_writes (sense scan : Lines) (s : State) : TickWrites s (kpScanRule sense scan s) := by
  have hrole : TickWrites s ((s.setKpRole .swapped).setKpRole .normal) := rfl
  have hstate (u : State) : TickWrites u (u.setKpState .release) := rfl
  rw [kpScanRule_eq]
  exact ((hrole.trans (raiseUnresolved_writes ..).tick).trans (enqueue_writes ..).tick).trans (hstate _)

theorem kpReleaseRule_writes (sense : Lines) (s : State) : TickWrites s (kpReleaseRule sense s) := by
  unfold kpReleaseRule; split <;> rfl

theorem kpRule_writes (k : KpState) (sense scan : Lines) (s : State) : TickWrites s (kpRule k sense scan s) := by
  cases k with
  | idle => exact kpIdleRule_writes sense s
  | wait => exact kpWaitRule_writes sense s
  | scan => exact kpScanRule_writes sense scan s
  | release => exact kpReleaseRule_writes sense s

theorem tick_writes (cl ol : Level) (sense scan : Lines) (s : State) : TickWrites s (tick cl ol sense scan s) :=
  ((dbSample_writes .cl cl s).trans (dbSample_writes .ol ol _)).trans (kpRule_writes ..)

theorem keyDigit_writes (d : BitVec 16) (s : State) : DoorWrites s (keyDigit d s) := by
  unfold keyDigit; split <;> rfl

theorem keyTerminator_writes (s : State) : DoorWrites s (keyTerminator s) := by
  unfold keyTerminator; split <;> rfl

theorem validate_writes (ch : Byte) (s : State) : DoorWrites s (validate ch s) := by
  unfold validate
  split
  · exact keyDigit_writes _ s
  · split
    · exact keyTerminator_writes s
    · rfl

theorem onStartDoor_writes (s : State) : DoorWrites s (onStartDoor s) := by
  unfold onStartDoor; split <;> rfl

theorem onStopDoor_writes (s : State) : DoorWrites s (onStopDoor s) := by
  unfold onStopDoor
  split
  · rfl
  · split <;> rfl

/-- A dispatch touches no queue: what it derives is left pending (R187). -/
theorem dispatch_writes (e : Ev) (s : State) : DoorWrites s (dispatch e s) := by
  unfold dispatch
  split
  · rfl
  · rfl
  · rfl
  · rfl
  · exact validate_writes _ s
  · rfl
  · exact onStartDoor_writes s
  · exact onStopDoor_writes s
  · rfl

theorem mainDispatch_writes (s : State) : MainWrites s (mainDispatch s) := by
  rcases mainDispatch_cases s with ⟨_, h⟩ | ⟨e, rest, _, h⟩ <;> rw [h]
  · rfl
  · have hq : MainWrites s { s with q := rest } := rfl
    exact hq.trans (dispatch_writes e _).main

theorem mainEmit_writes (e : Ev) (s : State) : MainWrites s (mainEmit e s) := by
  have hpending (u : State) : MainWrites u (u.setPending none) := rfl
  exact (enqueue_writes e s).main.trans (hpending _)

/-! ## The agents -/

theorem exec_tick_writes {cl ol : Level} {sense scan : Lines} {s t : State} (h : exec (.tick cl ol sense scan) s = .next t) :
    TickWrites s t := by
  have hbegin : TickWrites s s.begin := rfl
  cases h
  exact hbegin.trans (tick_writes ..)

theorem exec_bus_writes {i : Instr} {s t : State} (hi : isBus i) (h : exec i s = .next t) : BusWrites s t := by
  have hbegin : BusWrites s s.begin := rfl
  rcases hi with ⟨d, rfl | rfl | rfl | rfl | rfl | rfl⟩ | ⟨k, d, rfl⟩ <;> cases h
  · exact busAw_eq s.begin ▸ rfl
  · exact hbegin.trans (busRx_writes d _)
  · exact busAr_eq s.begin ▸ rfl
  · rfl
  · exact busStop_eq s.begin ▸ rfl
  · exact busErr_eq _ s.begin ▸ rfl
  · exact busErr_eq _ s.begin ▸ rfl

theorem exec_main_writes {i : Instr} {s t : State} (hi : i = .mainDispatch ∨ i = .mainEmit) (h : exec i s = .next t) :
    MainWrites s t := by
  have hbegin : MainWrites s s.begin := rfl
  rcases hi with rfl | rfl
  · obtain ⟨_, rfl⟩ := exec_mainDispatch_next h
    exact hbegin.trans (mainDispatch_writes _)
  · obtain ⟨e, _, rfl⟩ := exec_mainEmit_next h
    exact hbegin.trans (mainEmit_writes e _)

/-- Settles O52: the writes of an agent's step are those of the operations that it is made of. -/
theorem agentsWriteOnlyTheirRegisters : Obligations.AgentsWriteOnlyTheirRegisters :=
  fun _ _ => ⟨fun _ _ _ _ => exec_tick_writes, fun _ => exec_bus_writes, fun _ => exec_main_writes⟩

/-! ## The course of `drop_count` -/

/-- `drop_count` has not gone down, and up by at most `n`. -/
def DropsAtMost (n : Nat) (s t : State) : Prop :=
  s.dropCount.toNat ≤ t.dropCount.toNat ∧ t.dropCount.toNat ≤ s.dropCount.toNat + n

theorem DropsAtMost.of_eq {n : Nat} {s t : State} (h : t.dropCount = s.dropCount) : DropsAtMost n s t := by
  rw [DropsAtMost, h]; omega

theorem DropsAtMost.trans {m n : Nat} {s t u : State} (h : DropsAtMost m s t) (h' : DropsAtMost n t u) :
    DropsAtMost (m + n) s u := by
  unfold DropsAtMost at h h' ⊢; omega

theorem DropsAtMost.mono {m n : Nat} {s t : State} (h : DropsAtMost m s t) (hmn : m ≤ n) : DropsAtMost n s t := by
  unfold DropsAtMost at h ⊢; omega

/-- An enqueue loses at most its own event (R111). -/
theorem enqueue_drops (e : Ev) (s : State) : DropsAtMost 1 s (s.enqueue e) := by
  rcases enqueue_cases e s with ⟨_, h⟩ | ⟨_, h⟩ <;> rw [h]
  · have := s.dropCount.isLt
    rw [DropsAtMost, State.raise_queueFull_dropCount, saturatingSucc_toNat]
    omega
  · exact .of_eq rfl

theorem csrWrite_drops (b : Byte) (s : State) : DropsAtMost 1 s (s.csrWrite b) := by
  cases hb : commandBit b with
  | true => exact csrWrite_of_command hb ▸ enqueue_drops _ _
  | false => exact csrWrite_of_nop hb ▸ .of_eq rfl

theorem dbSample_drops (i : Switch) (l : Level) (s : State) : DropsAtMost 1 s (dbSample i l s) := by
  have hset (d : Debounce) : DropsAtMost 0 s (s.setDb i d) := .of_eq (State.setDb_dropCount i d s)
  rcases dbSample_cases i l s with ⟨_, h⟩ | ⟨_, h⟩ <;> rw [h]
  · exact (hset _).mono (Nat.zero_le 1)
  · exact (hset _).trans (enqueue_drops _ _)

/-- An unresolved scan is no lost event (R232). -/
theorem raiseUnresolved_drops (sense scan : Lines) (s : State) : DropsAtMost 0 s (raiseUnresolved sense scan s) := by
  unfold raiseUnresolved; split <;> exact .of_eq rfl

theorem kpScanRule_drops (sense scan : Lines) (s : State) : DropsAtMost 1 s (kpScanRule sense scan s) := by
  have hrole : DropsAtMost 0 s ((s.setKpRole .swapped).setKpRole .normal) := .of_eq rfl
  have hstate (u : State) : DropsAtMost 0 u (u.setKpState .release) := .of_eq rfl
  rw [kpScanRule_eq]
  exact ((hrole.trans (raiseUnresolved_drops ..)).trans (enqueue_drops ..)).trans (hstate _)

/-- Of the four rules only the scan enqueues (R132 to R135). -/
theorem kpRule_drops (k : KpState) (sense scan : Lines) (s : State) : DropsAtMost 1 s (kpRule k sense scan s) := by
  cases k with
  | idle =>
    change DropsAtMost 1 s (kpIdleRule sense s)
    unfold kpIdleRule
    split <;> exact .of_eq rfl
  | wait =>
    change DropsAtMost 1 s (kpWaitRule sense s)
    rcases kpWaitRule_cases sense s with ⟨_, h⟩ | ⟨_, _, h⟩ | ⟨_, _, h⟩ <;> exact h ▸ .of_eq rfl
  | scan => exact kpScanRule_drops sense scan s
  | release =>
    change DropsAtMost 1 s (kpReleaseRule sense s)
    unfold kpReleaseRule
    split <;> exact .of_eq rfl

/-- A tick has three enqueues: two edges and a key (R211). -/
theorem tick_drops (cl ol : Level) (sense scan : Lines) (s : State) : DropsAtMost 3 s (tick cl ol sense scan s) :=
  ((dbSample_drops .cl cl s).trans (dbSample_drops .ol ol _)).trans (kpRule_drops ..)

theorem qDeq_dropCount (s : State) : s.qDeq.2.dropCount = s.dropCount := by
  rcases qDeq_cases s with ⟨_, h⟩ | ⟨_, _, _, h⟩ <;> rw [h]

theorem mainDispatch_dropCount (s : State) : (mainDispatch s).dropCount = s.dropCount := by
  rcases mainDispatch_cases s with ⟨_, h⟩ | ⟨e, rest, _, h⟩ <;> rw [h]
  exact (dispatch_writes e { s with q := rest }).dropCount_eq

theorem Effect.drops {i : Instr} {s t : State} (he : Effect i s t) (hi : i ≠ .reset) : DropsAtMost 3 s t := by
  have one {u : State} (h : DropsAtMost 1 s u) : DropsAtMost 3 s u := h.mono (by decide)
  cases he with
  | recorded => exact .of_eq rfl
  | commanded b n o => exact one (csrWrite_drops b { s with inputIndex := n, out := o })
  | ticked cl ol sense scan => exact tick_drops cl ol sense scan s.begin
  | sampled sw l => exact one (dbSample_drops sw l s.begin)
  | scanned sense scan n => exact one (kpRule_drops s.kpState sense scan { s with inputIndex := n, out := {} })
  | dispatched e => exact .of_eq (dispatch_writes e s.begin).dropCount_eq
  | digit d => exact .of_eq (keyDigit_writes d s.begin).dropCount_eq
  | terminator => exact .of_eq (keyTerminator_writes s.begin).dropCount_eq
  | stopped | startedOpen | startedClose => exact .of_eq rfl
  | enqueued e => exact one (enqueue_drops e s.begin)
  | dequeued => exact .of_eq (qDeq_dropCount s.begin)
  | mainDispatched => exact .of_eq (mainDispatch_dropCount s.begin)
  | mainEmitted e => exact one (enqueue_drops e s.begin)
  | reset => exact absurd rfl hi

theorem exec_reset_dropCount {s t : State} (h : exec .reset s = .next t) : t.dropCount = 0#16 := by
  cases h; rfl

/-- Settles O16: no effect but that of `RESET` lowers the count, and a tick's three enqueues are the most that a step has. -/
theorem onlyResetLowersTheDropCount : Obligations.OnlyResetLowersTheDropCount :=
  fun _ _ _ h => ⟨(effect_of_exec h).drops, fun hi => exec_reset_dropCount (hi ▸ h)⟩

end Sys2Proof.Machine
end

