-- ==== Sys2Proof/Proofs/Memory.lean ====
section
/-! PROOFS, 20_memory.md: the order of the queue, the configuration, and the key layout. -/

namespace Sys2Proof.Machine

/-! ## The order of the queue (R71) -/

/-- The events of `s` are queued in `t` in their order, with at most `n` new ones behind them. -/
def Appends (n : Nat) (s t : State) : Prop := ∃ new : List Ev, new.length ≤ n ∧ t.q = s.q ++ new

theorem Appends.of_eq {n : Nat} {s t : State} (h : t.q = s.q) : Appends n s t :=
  ⟨[], Nat.zero_le n, h.trans (List.append_nil s.q).symm⟩

theorem Appends.trans {m n : Nat} {s t u : State} (h : Appends m s t) (h' : Appends n t u) : Appends (m + n) s u := by
  obtain ⟨new, hlen, hq⟩ := h
  obtain ⟨new', hlen', hq'⟩ := h'
  refine ⟨new ++ new', ?_, ?_⟩
  · rw [List.length_append]; omega
  · rw [hq', hq, List.append_assoc]

theorem Appends.mono {m n : Nat} {s t : State} (h : Appends m s t) (hmn : m ≤ n) : Appends n s t := by
  obtain ⟨new, hlen, hq⟩ := h
  exact ⟨new, hlen.trans hmn, hq⟩

/-- An enqueue is behind all that is queued, or lost (R111). -/
theorem enqueue_appends (e : Ev) (s : State) : Appends 1 s (s.enqueue e) := by
  rcases enqueue_cases e s with ⟨_, h⟩ | ⟨_, h⟩ <;> rw [h]
  · exact .of_eq rfl
  · exact ⟨[e], le_rfl, rfl⟩

theorem csrWrite_appends (b : Byte) (s : State) : Appends 1 s (s.csrWrite b) := by
  cases hb : commandBit b with
  | true => exact csrWrite_of_command hb ▸ enqueue_appends _ s
  | false => exact csrWrite_of_nop hb ▸ .of_eq rfl

theorem dbSample_appends (i : Switch) (l : Level) (s : State) : Appends 1 s (dbSample i l s) := by
  have hset (d : Debounce) : Appends 0 s (s.setDb i d) := .of_eq (State.setDb_q i d s)
  rcases dbSample_cases i l s with ⟨_, h⟩ | ⟨_, h⟩ <;> rw [h]
  · exact (hset _).mono (Nat.zero_le 1)
  · exact (hset _).trans (enqueue_appends _ _)

theorem raiseUnresolved_q (sense scan : Lines) (s : State) : (raiseUnresolved sense scan s).q = s.q := by
  unfold raiseUnresolved; split <;> rfl

theorem kpScanRule_appends (sense scan : Lines) (s : State) : Appends 1 s (kpScanRule sense scan s) := by
  have hcause : Appends 0 s (raiseUnresolved sense scan ((s.setKpRole .swapped).setKpRole .normal)) :=
    .of_eq (raiseUnresolved_q ..)
  have hstate (u : State) : Appends 0 u (u.setKpState .release) := .of_eq rfl
  rw [kpScanRule_eq]
  exact (hcause.trans (enqueue_appends ..)).trans (hstate _)

/-- Of the four rules only the scan touches the queue (R132 to R135). -/
theorem kpRule_q_of_ne_scan {k : KpState} (hk : k ≠ .scan) (sense scan : Lines) (s : State) :
    (kpRule k sense scan s).q = s.q := by
  cases k with
  | idle =>
    change (kpIdleRule sense s).q = s.q
    unfold kpIdleRule
    split <;> rfl
  | wait =>
    change (kpWaitRule sense s).q = s.q
    rcases kpWaitRule_cases sense s with ⟨_, h⟩ | ⟨_, _, h⟩ | ⟨_, _, h⟩ <;> rw [h] <;> rfl
  | scan => exact absurd rfl hk
  | release =>
    change (kpReleaseRule sense s).q = s.q
    unfold kpReleaseRule
    split <;> rfl

theorem kpRule_appends (k : KpState) (sense scan : Lines) (s : State) : Appends 1 s (kpRule k sense scan s) := by
  by_cases hk : k = .scan
  · exact hk ▸ kpScanRule_appends sense scan s
  · exact .of_eq (kpRule_q_of_ne_scan hk sense scan s)

/-- A tick has three enqueues, and each is behind the one before it (R211). -/
theorem tick_appends (cl ol : Level) (sense scan : Lines) (s : State) : Appends 3 s (tick cl ol sense scan s) :=
  ((dbSample_appends .cl cl s).trans (dbSample_appends .ol ol _)).trans (kpRule_appends ..)

theorem DoorWrites.q_eq {s t : State} (h : DoorWrites s t) : t.q = s.q := by rw [h]

/-- A dequeue removes the oldest event, if there is one (R112). -/
theorem qDeq_q (s : State) : s.qDeq.2.q = s.q.tail := by
  rcases qDeq_cases s with ⟨hq, h⟩ | ⟨e, rest, hq, h⟩ <;> simp [h, hq]

/-- What is dispatched leaves the queue, and the rule of its type puts nothing there (R187, R214). -/
theorem mainDispatch_q (s : State) : (mainDispatch s).q = s.q.tail := by
  rcases mainDispatch_cases s with ⟨hq, h⟩ | ⟨e, rest, hq, h⟩ <;> rw [h]
  · rw [hq]; rfl
  · rw [(dispatch_writes e { s with q := rest }).q_eq, hq]; rfl

/-- An effect puts events behind the queue or takes the oldest from it, and none but that of `RESET` does anything else. -/
theorem Effect.queue {i : Instr} {s t : State} (he : Effect i s t) (hi : i ≠ .reset) :
    Appends 3 s t ∨ ((i = .mainDispatch ∨ ∃ x, i = .qDeq x) ∧ t.q = s.q.tail) := by
  have one {u : State} (h : Appends 1 s u) : Appends 3 s u := h.mono (by decide)
  cases he with
  | recorded => exact .inl (.of_eq rfl)
  | commanded b n o => exact .inl (one (csrWrite_appends b { s with inputIndex := n, out := o }))
  | ticked cl ol sense scan => exact .inl (tick_appends cl ol sense scan s.begin)
  | sampled sw l => exact .inl (one (dbSample_appends sw l s.begin))
  | scanned sense scan n => exact .inl (one (kpRule_appends s.kpState sense scan { s with inputIndex := n, out := {} }))
  | dispatched e => exact .inl (.of_eq (dispatch_writes e s.begin).q_eq)
  | digit d => exact .inl (.of_eq (keyDigit_writes d s.begin).q_eq)
  | terminator => exact .inl (.of_eq (keyTerminator_writes s.begin).q_eq)
  | stopped | startedOpen | startedClose => exact .inl (.of_eq rfl)
  | enqueued e => exact .inl (one (enqueue_appends e s.begin))
  | dequeued x => exact .inr ⟨.inr ⟨x, rfl⟩, qDeq_q s.begin⟩
  | mainDispatched => exact .inr ⟨.inl rfl, mainDispatch_q s.begin⟩
  | mainEmitted e => exact .inl (one (enqueue_appends e s.begin))
  | reset => exact absurd rfl hi

/-- Settles O15: read off the effect that the operation had. -/
theorem queueOrderIsKeptByEveryOperation : Obligations.QueueOrderIsKeptByEveryOperation := by
  intro i s t hi h
  rcases (effect_of_exec h).queue hi with ⟨new, hlen, hq⟩ | ⟨htakes, hq⟩
  · exact ⟨new, hlen, .inl hq⟩
  · exact ⟨[], Nat.zero_le 3, .inr ⟨htakes, hq.trans (List.append_nil _).symm⟩⟩

/-! ## The configuration (R75, R37) -/

theorem DoorWrites.cfg_eq {s t : State} (h : DoorWrites s t) : t.cfg = s.cfg := by rw [h]

theorem TickWrites.cfg_eq {s t : State} (h : TickWrites s t) : t.cfg = s.cfg := by rw [h]

theorem MainWrites.cfg_eq {s t : State} (h : MainWrites s t) : t.cfg = s.cfg := by rw [h]

theorem qDeq_cfg (s : State) : s.qDeq.2.cfg = s.cfg := by
  rcases qDeq_cases s with ⟨_, h⟩ | ⟨_, _, _, h⟩ <;> rw [h]

/-- No effect, that of `RESET` included, writes the configuration: it is among none of the fields that an operation writes. -/
theorem Effect.cfg_eq {i : Instr} {s t : State} (he : Effect i s t) : t.cfg = s.cfg := by
  cases he with
  | recorded => rfl
  | commanded b n o => exact csrWrite_cfg b { s with inputIndex := n, out := o }
  | ticked cl ol sense scan => exact (tick_writes cl ol sense scan s.begin).cfg_eq
  | sampled sw l => exact dbSample_cfg sw l s.begin
  | scanned sense scan n => exact (kpRule_writes s.kpState sense scan { s with inputIndex := n, out := {} }).cfg_eq
  | dispatched e => exact (dispatch_writes e s.begin).cfg_eq
  | digit d => exact (keyDigit_writes d s.begin).cfg_eq
  | terminator => exact (keyTerminator_writes s.begin).cfg_eq
  | stopped | startedOpen | startedClose => rfl
  | enqueued e => exact enqueue_cfg e s.begin
  | dequeued => exact qDeq_cfg s.begin
  | mainDispatched => exact (mainDispatch_writes s.begin).cfg_eq
  | mainEmitted e => exact (mainEmit_writes e s.begin).cfg_eq
  | reset => rfl

/-- What runs, a word lined up or a pick of the schedule, leaves the configuration, and so does a main loop that sleeps. -/
theorem step_cfg {s t : State} (h : step s = .next t) : t.cfg = s.cfg := by
  rcases step_cases h with ⟨_, _, i, _, _, hi⟩ | ⟨_, i, _, hi⟩ | ⟨_, _, rfl⟩
  · exact (effect_of_exec hi).cfg_eq
  · exact (effect_of_exec hi).cfg_eq
  · rfl

/-- Settles O60: the frame of a step, and the configuration of the reset state evaluated. -/
theorem configurationIsNeverWritten : Obligations.ConfigurationIsNeverWritten :=
  ⟨fun _ _ => step_cfg, by decide⟩

/-! ## The key layout (R63, R68) -/

/-- A key-layout read in one line: the character is its only trace (R68). -/
theorem keymapStep_eq (k : BitVec 4) (s : State) :
    keymapStep k s = { s with out := { keyChar := some (s.cfg.keymap[k.toNat]'k.isLt) } } := rfl

/-- Settles O23: each row is the read of its own index. -/
theorem keyLayoutReadsItsCharacter : Obligations.KeyLayoutReadsItsCharacter := by
  refine ⟨fun s => ?_, rfl⟩
  have reads (k : BitVec 4) :=
    congrArg (Host.Outcome.next : State → Host.Outcome State Fault Refusal) (keymapStep_eq k s)
  exact ⟨reads 0, reads 1, reads 2, reads 3, reads 4, reads 5, reads 6, reads 7, reads 8, reads 9, reads 10, reads 11,
    reads 12, reads 13, reads 14, reads 15⟩

end Sys2Proof.Machine
end

