-- ==== Sys2Proof/Proofs/OpcodeTable.lean ====
section
/-! SUPPORT. The opcode table (30_encoding.md, section 10) read as tests of the high bits of a word, and that no word selects
two of its rows. -/

namespace Sys2Proof

/-! ## Fields of a word as numbers -/

theorem toNat_field {width : Nat} (lo len : Nat) (w : BitVec width) :
    (w.extractLsb' lo len).toNat = w.toNat / 2 ^ lo % 2 ^ len := by
  rw [BitVec.extractLsb'_toNat, Nat.shiftRight_eq_div_pow]

theorem extractLsb'_eq_iff {width len : Nat} (lo : Nat) (w : BitVec width) (v : BitVec len) :
    w.extractLsb' lo len = v ↔ w.toNat / 2 ^ lo % 2 ^ len = v.toNat := by
  rw [← BitVec.toNat_inj, toNat_field]

theorem getLsbD_eq_decide {width : Nat} (w : BitVec width) (pos : Nat) :
    w.getLsbD pos = decide (w.toNat / 2 ^ pos % 2 = 1) :=
  Nat.testBit_eq_decide_div_mod_eq

/-- A field that reaches the top of the word is the word without the bits below it. -/
theorem toNat_topField {lo len : Nat} (h : lo + len = 16) (w : BitVec 16) :
    (w.extractLsb' lo len).toNat = w.toNat / 2 ^ lo := by
  have hfits : w.toNat / 2 ^ lo < 2 ^ len := Nat.div_lt_of_lt_mul (by rw [← Nat.pow_add, h]; exact w.isLt)
  rw [toNat_field, Nat.mod_eq_of_lt hfits]

/-- A word no longer than the field at its bottom is that field. -/
theorem toNat_lowField {width len : Nat} {w : BitVec width} (h : w.toNat < 2 ^ len) :
    (w.extractLsb' 0 len).toNat = w.toNat := by
  rw [toNat_field, Nat.pow_zero, Nat.div_one, Nat.mod_eq_of_lt h]

/-- The bits above a width are zero exactly in the words of that width. -/
theorem extractLsb'_eq_zero_iff {lo len : Nat} (h : lo + len = 16) {w : BitVec 16} :
    w.extractLsb' lo len = 0 ↔ w.toNat < 2 ^ lo := by
  rw [← BitVec.toNat_inj, toNat_topField h]
  exact Nat.div_eq_zero_iff_lt (Nat.two_pow_pos _)

/-- A mask that keeps the bits from `lo` up to `width` clears the bits below `lo`. -/
theorem and_highMask (m : Nat) {lo width : Nat} (h : lo ≤ width) :
    m &&& (2 ^ width - 2 ^ lo) = m % 2 ^ width / 2 ^ lo * 2 ^ lo := by
  have hmask : 2 ^ width - 2 ^ lo = (2 ^ (width - lo) - 1) <<< lo := by
    rw [Nat.shiftLeft_eq, Nat.sub_mul, ← Nat.pow_add, Nat.sub_add_cancel h, Nat.one_mul]
  rw [hmask, ← Nat.shiftRight_eq_div_pow, ← Nat.shiftLeft_eq]
  refine Nat.eq_of_testBit_eq fun i => ?_
  simp only [Nat.testBit_and, Nat.testBit_shiftLeft, Nat.testBit_two_pow_sub_one, Nat.testBit_shiftRight,
    Nat.testBit_mod_two_pow]
  by_cases hi : lo ≤ i
  · have hlt : i - lo < width - lo ↔ i < width := by omega
    simp [hi, hlt, Bool.and_comm]
  · simp [hi]

/-! ## A row tests the high bits of a word

The mask of every row keeps all bits of its format from some bit up, and none below. With the bits above the format's width
zero (log 5), a row so asks one number of the bits above its operands; of a "last" row the whole field is operand. -/

/-- How many low bits a row leaves to its operands. -/
def Row.low (r : Row) : Nat := (2 ^ r.fmt.width - r.mask.toNat).log2

/-- What a row asks of the bits above its operands. -/
def Row.code (r : Row) : Nat := r.value.toNat / 2 ^ r.low

theorem rows_test_high_bits : ∀ r ∈ rows, r.low ≤ r.fmt.width ∧ r.mask.toNat = 2 ^ r.fmt.width - 2 ^ r.low ∧
    r.value.toNat = r.code * 2 ^ r.low ∧ r.value.toNat < 2 ^ r.fmt.width := by decide

/-- On the words of its format a row takes exactly those with its code. -/
theorem hits_iff {r : Row} (hr : r ∈ rows) {w : BitVec 16} (hw : w.toNat < 2 ^ r.fmt.width) :
    r.hits w = true ↔ w.toNat / 2 ^ r.low = r.code := by
  obtain ⟨hlow, hmask, hvalue, _⟩ := rows_test_high_bits r hr
  rw [Row.hits, beq_iff_eq, ← BitVec.toNat_inj, BitVec.toNat_and, hmask, and_highMask _ hlow, hvalue,
    Nat.mod_eq_of_lt hw]
  exact Nat.mul_left_inj (Nat.two_pow_pos _).ne'

/-- A row's code keeps the bits above its format's width zero. -/
theorem lt_width_of_code {r : Row} (hr : r ∈ rows) {w : BitVec 16} (h : w.toNat / 2 ^ r.low = r.code) :
    w.toNat < 2 ^ r.fmt.width := by
  obtain ⟨hlow, _, _, hvalue⟩ := rows_test_high_bits r hr
  rw [← Nat.sub_add_cancel hlow, Nat.pow_add] at hvalue ⊢
  rw [← Nat.div_lt_iff_lt_mul (Nat.two_pow_pos _)] at hvalue ⊢
  exact h ▸ hvalue

/-- The tests of the rows of a format that are not "last": how many low bits are left free, and the code above them. -/
def tests (f : Format) : List (Nat × Nat) :=
  (rows.filter fun r => r.fmt == f && !r.last).map fun r => (r.low, r.code)

theorem mem_tests {f : Format} {t : Nat × Nat} :
    t ∈ tests f ↔ ∃ r ∈ rows, r.fmt = f ∧ r.last = false ∧ (r.low, r.code) = t := by
  simp [tests, and_assoc]

theorem tests_trace : tests .trace = [(10, 0), (8, 0x20), (8, 0x21), (8, 0x22), (8, 0x23), (8, 0x24), (8, 0x25),
    (9, 0x13), (0, 0x4000), (0, 0x6000), (0, 0xE000)] := by decide

theorem tests_sampleCl : tests .sampleCl = [(10, 0)] := by decide

theorem tests_sampleOl : tests .sampleOl = [(10, 0)] := by decide

theorem tests_char : tests .char = [(3, 0b00110), (1, 0b0011100), (0, 0x23)] := by decide

theorem tests_csrRead : tests .csrRead = [(7, 0)] := by decide

theorem tests_dstate : tests .dstate = [(0, 0), (0, 1), (0, 2), (0, 3), (0, 4), (0, 5), (0, 0x7F)] := by decide

/-- The condition of a "last" row, as `selects` writes it: no other row of the format takes the word. -/
theorem others_refuse_iff {f : Format} {w : BitVec 16} (hw : w.toNat < 2 ^ f.width) :
    (rows.all fun r' => r'.fmt != f || r'.last || !r'.hits w) = true ↔
      ∀ t ∈ tests f, w.toNat / 2 ^ t.1 ≠ t.2 := by
  rw [List.all_eq_true]
  constructor
  · intro h t ht
    obtain ⟨r, hr, rfl, hlast, rfl⟩ := mem_tests.mp ht
    have hmiss : r.hits w = false := by simpa [hlast] using h r hr
    exact fun htest => by simp [(hits_iff hr hw).mpr htest] at hmiss
  · intro h r hr
    by_contra hc
    obtain ⟨⟨rfl, hlast⟩, hhits⟩ : (r.fmt = f ∧ r.last = false) ∧ r.hits w = true := by simpa using hc
    exact h _ (mem_tests.mpr ⟨r, hr, rfl, hlast, rfl⟩) ((hits_iff hr hw).mp hhits)

/-- A word selects a row by the row's code alone, and a "last" row where no other test of the format succeeds. -/
theorem selects_iff {f : Format} {w : BitVec 16} {n : Nat} :
    selects f w n = true ↔ ∃ r, rows[n]? = some r ∧ r.fmt = f ∧ w.toNat / 2 ^ r.low = r.code ∧
      (r.last = true → ∀ t ∈ tests f, w.toNat / 2 ^ t.1 ≠ t.2) := by
  unfold selects
  cases hn : rows[n]? with
  | none => simp
  | some r =>
    have hr : r ∈ rows := List.mem_of_getElem? hn
    simp only [Bool.and_eq_true, beq_iff_eq, decide_eq_true_eq, Option.some.injEq, exists_eq_left']
    constructor
    · rintro ⟨⟨⟨rfl, hhits⟩, hw⟩, hlast⟩
      refine ⟨rfl, (hits_iff hr hw).mp hhits, fun hl => (others_refuse_iff hw).mp ?_⟩
      simpa only [hl, Bool.not_true, Bool.false_or] using hlast
    · rintro ⟨rfl, hcode, hlast⟩
      have hw := lt_width_of_code hr hcode
      refine ⟨⟨⟨rfl, (hits_iff hr hw).mpr hcode⟩, hw⟩, ?_⟩
      cases hl : r.last with
      | false => rfl
      | true => exact (others_refuse_iff hw).mpr (hlast hl)

theorem lt_width_of_selects {f : Format} {w : BitVec 16} {n : Nat} (h : selects f w n = true) :
    w.toNat < 2 ^ f.width := by
  obtain ⟨r, hn, rfl, hcode, _⟩ := selects_iff.mp h
  exact lt_width_of_code (List.mem_of_getElem? hn) hcode

theorem fmt_of_last : ∀ r ∈ rows, r.last = true → r.fmt = .char ∨ r.fmt = .dstate := by decide

/-- In a format without a "last" row, one of the tests takes a word that selects a row. -/
theorem exists_test_of_selects {f : Format} {w : BitVec 16} {n : Nat} (h : selects f w n = true) (hc : f ≠ .char)
    (hd : f ≠ .dstate) : ∃ t ∈ tests f, w.toNat / 2 ^ t.1 = t.2 := by
  obtain ⟨r, hn, rfl, hcode, _⟩ := selects_iff.mp h
  have hr := List.mem_of_getElem? hn
  have hlast : r.last = false := Bool.eq_false_iff.mpr fun hl => (fmt_of_last r hr hl).elim hc hd
  exact ⟨_, mem_tests.mpr ⟨r, hr, rfl, hlast, rfl⟩, hcode⟩

/-! ## No word selects two rows -/

/-- Two rows of one format, neither of them "last", ask for different values of a bit that both look at, and of two rows of
one format at most one is "last". -/
def Row.apart (r r' : Row) : Bool :=
  r.fmt != r'.fmt || (if r.last || r'.last then r.last != r'.last else r.value &&& r'.mask != r'.value &&& r.mask)

theorem rows_pairwise_apart : rows.Pairwise fun r r' => r.apart r' = true := by decide

theorem selects_eq_false_of_lt {f : Format} {w : BitVec 16} {n n' : Nat} (hlt : n < n') (h : selects f w n = true) :
    selects f w n' = false := by
  refine Bool.eq_false_iff.mpr fun h' => ?_
  have hw := lt_width_of_selects h
  obtain ⟨r, hn, rfl, hcode, hothers⟩ := selects_iff.mp h
  obtain ⟨r', hn', hf, hcode', hothers'⟩ := selects_iff.mp h'
  obtain ⟨hlen, rfl⟩ := List.getElem?_eq_some_iff.mp hn
  obtain ⟨hlen', rfl⟩ := List.getElem?_eq_some_iff.mp hn'
  have hr := List.getElem_mem hlen
  have hr' := List.getElem_mem hlen'
  have hapart := List.pairwise_iff_getElem.mp rows_pairwise_apart n n' hlen hlen' hlt
  generalize rows[n] = r at *
  generalize rows[n'] = r' at *
  cases hl : r.last <;> cases hl' : r'.last
  · have hhits : w &&& r.mask = r.value := beq_iff_eq.mp ((hits_iff hr hw).mpr hcode)
    have hhits' : w &&& r'.mask = r'.value := beq_iff_eq.mp ((hits_iff hr' (hf ▸ hw)).mpr hcode')
    have hclash : r.value &&& r'.mask = r'.value &&& r.mask := by
      rw [← hhits, ← hhits', BitVec.and_assoc, BitVec.and_assoc, BitVec.and_comm r.mask]
    simp [Row.apart, hf, hl, hl', hclash] at hapart
  · exact hothers' hl' _ (mem_tests.mpr ⟨r, hr, rfl, hl, rfl⟩) hcode
  · exact hothers hl _ (mem_tests.mpr ⟨r', hr', hf, hl', rfl⟩) hcode'
  · simp [Row.apart, hf, hl, hl'] at hapart

theorem selects_unique {f : Format} {w : BitVec 16} {n n' : Nat} (h : selects f w n = true)
    (h' : selects f w n' = true) : n = n' := by
  rcases lt_trichotomy n n' with hlt | heq | hgt
  · simp [selects_eq_false_of_lt hlt h] at h'
  · exact heq
  · simp [selects_eq_false_of_lt hgt h'] at h

/-! ## Rows chosen by the high bits of a word -/

/-- Row `n` is of format `f`, not "last", and takes the words that have `v` above their low `k` bits. -/
def picks (f : Format) (k v n : Nat) : Bool :=
  match rows[n]? with
  | some r => r.fmt == f && !r.last && decide (k ≤ r.low) && v / 2 ^ (r.low - k) == r.code
  | none => false

theorem selects_of_picks {f : Format} {w : BitVec 16} {k v n : Nat} (hw : w.toNat / 2 ^ k = v)
    (h : picks f k v n = true) : selects f w n = true := by
  unfold picks at h
  split at h
  · next r hn =>
    simp only [Bool.and_eq_true, beq_iff_eq, decide_eq_true_eq, Bool.not_eq_true'] at h
    obtain ⟨⟨⟨hf, hl⟩, hk⟩, hv⟩ := h
    refine selects_iff.mpr ⟨r, hn, hf, ?_, by simp [hl]⟩
    rw [← hv, ← hw, Nat.div_div_eq_div_mul, ← Nat.pow_add, Nat.add_sub_cancel' hk]
  · cases h

theorem selects_of_picks_word {f : Format} {w : BitVec 16} {v n : Nat} (hw : w.toNat = v)
    (h : picks f 0 v n = true) : selects f w n = true :=
  selects_of_picks (k := 0) (by rwa [Nat.pow_zero, Nat.div_one]) h

end Sys2Proof
end

