-- ==== Sys2Proof/Proofs/Encoding.lean ====
section
/-! PROOFS, 30_encoding.md: the decoder against the opcode table and the encoder, and what a step does with the words. -/

namespace Sys2Proof

open Sys2Proof.Machine

/-! ## A word that decodes selects the row of its operation, format by format -/

/-- The operation of a `BUS` word is that of a row which tests its kind, in the bits 8 and up. -/
theorem busInstr_selects {w : BitVec 16} {kind : BitVec 3} (data : Byte) (hw : w.toNat / 2 ^ 8 = 0x20 + kind.toNat) :
    (busInstr kind data).wf = true ∧ selects .trace w (rowOf (busInstr kind data)) = true := by
  have hkind := kind.isLt
  unfold busInstr
  split
  case h_7 =>
    simp only [imp_false] at *
    exact ⟨rfl, selects_of_picks (k := 9) (v := 0x13) (by omega) rfl⟩
  all_goals exact ⟨rfl, selects_of_picks (hw.trans (congrArg (0x20 + ·) ‹kind.toNat = _›)) rfl⟩

theorem decodeTrace_selects {w : BitVec 16} {i : Instr} (h : decodeTrace w = some i) :
    i.wf = true ∧ selects .trace w (rowOf i) = true := by
  have hagent := toNat_topField (lo := 13) (len := 3) rfl w
  have hkind := toNat_field 8 3 w
  simp only [decodeTrace, extractLsb'_eq_iff, Nat.reducePow, Nat.div_one] at h
  split at h
  case h_6 => cases h
  all_goals
    split_ifs at h
    cases h
  · exact ⟨rfl, selects_of_picks (k := 10) (v := 0) (by bv_omega) rfl⟩
  · exact busInstr_selects _ (by bv_omega)
  · exact ⟨rfl, selects_of_picks_word (v := 0x4000) (by bv_omega) rfl⟩
  · exact ⟨rfl, selects_of_picks_word (v := 0x6000) (by bv_omega) rfl⟩
  · exact ⟨rfl, selects_of_picks_word (v := 0xE000) (by bv_omega) rfl⟩

/-- A `DB_SAMPLE` word is any word of the row's own test, whatever the other processes' bits are. -/
theorem decodeSample_selects {f : Format} {w : BitVec 16} {i : Instr} {pos n : Nat} {mk : Level → Instr}
    (h : decodeSample pos mk w = some i) (hn : picks f 10 0 n = true) :
    i = mk (w.getLsbD pos) ∧ selects f w n = true := by
  unfold decodeSample at h
  split_ifs at h with htop
  cases h
  rw [extractLsb'_eq_zero_iff rfl] at htop
  exact ⟨rfl, selects_of_picks (Nat.div_eq_of_lt htop) hn⟩

theorem decodeEv_selects {w : BitVec 16} {i : Instr} (h : decodeEv w = some i) :
    i.wf = true ∧ selects .ev w (rowOf i) = true := by
  simp only [decodeEv, toNat_topField (lo := 8) (len := 8) rfl] at h
  split at h
  all_goals cases h
  all_goals exact ⟨rfl, selects_of_picks ‹w.toNat / 2 ^ 8 = _› rfl⟩

theorem decodeCsrRead_selects {w : BitVec 16} {i : Instr} (h : decodeCsrRead w = some i) :
    i.wf = true ∧ selects .csrRead w (rowOf i) = true := by
  unfold decodeCsrRead at h
  split_ifs at h with htop
  cases h
  rw [extractLsb'_eq_zero_iff rfl] at htop
  exact ⟨rfl, selects_of_picks (Nat.div_eq_of_lt htop) rfl⟩

theorem decodeCsrWrite_selects {w : BitVec 16} {i : Instr} (h : decodeCsrWrite w = some i) :
    i.wf = true ∧ selects .csrWrite w (rowOf i) = true := by
  simp only [decodeCsrWrite, extractLsb'_eq_iff, getLsbD_eq_decide, decide_eq_true_eq, ne_eq, Nat.reducePow] at h
  split_ifs at h
  all_goals cases h
  · exact ⟨rfl, selects_of_picks (k := 7) (v := 1) (by bv_omega) rfl⟩
  · exact ⟨rfl, selects_of_picks (k := 7) (v := 0) (by bv_omega) rfl⟩

theorem decodeQop_selects {w : BitVec 16} {i : Instr} (h : decodeQop w = some i) :
    i.wf = true ∧ selects .qop w (rowOf i) = true := by
  simp only [decodeQop, extractLsb'_eq_iff, getLsbD_eq_decide, decide_eq_true_eq, ne_eq, Nat.reducePow] at h
  split_ifs at h with htop hop
  all_goals cases h
  · exact ⟨rfl, selects_of_picks (k := 12) (v := 1) (by bv_omega) rfl⟩
  · exact ⟨rfl, selects_of_picks (k := 12) (v := 0) (by bv_omega) rfl⟩

theorem decodeChar_selects {w : BitVec 16} {i : Instr} (h : decodeChar w = some i) :
    i.wf = true ∧ selects .char w (rowOf i) = true := by
  have hch := toNat_field 0 8 w
  simp only [Nat.reducePow, Nat.div_one] at hch
  simp only [decodeChar, extractLsb'_eq_iff, ne_eq, Nat.reducePow, Nat.div_one] at h
  split_ifs at h with htop h07 h89 hterm
  all_goals cases h
  · exact ⟨rfl, selects_of_picks (k := 3) (v := 0b00110) (by bv_omega) rfl⟩
  · exact ⟨rfl, selects_of_picks (k := 1) (v := 0b0011100) (by bv_omega) rfl⟩
  · exact ⟨rfl, selects_of_picks_word (v := 0x23) (by bv_omega) rfl⟩
  · refine ⟨?_, selects_iff.mpr ⟨_, rfl, rfl, ?_, fun _ => ?_⟩⟩
    · simp only [Instr.wf, isOtherCode, isDigitCode, Bool.and_eq_true, Bool.not_eq_true', Bool.and_eq_false_iff,
        decide_eq_false_iff_not, bne_iff_ne]
      bv_omega
    · show w.toNat / 2 ^ 8 = 0
      bv_omega
    · simp only [tests_char, List.forall_mem_cons, List.not_mem_nil, false_imp_iff, implies_true, and_true, Nat.reducePow,
        Nat.div_one]
      bv_omega

theorem decodeDstate_selects {w : BitVec 16} {i : Instr} (h : decodeDstate w = some i) :
    i.wf = true ∧ selects .dstate w (rowOf i) = true := by
  unfold decodeDstate at h
  split_ifs at h with htop
  rw [not_not, extractLsb'_eq_zero_iff rfl] at htop
  have hcode := toNat_lowField htop
  rw [hcode] at h
  split at h
  all_goals cases h
  case h_8 =>
    simp only [imp_false] at *
    refine ⟨?_, selects_iff.mpr ⟨_, rfl, rfl, Nat.div_eq_of_lt htop, fun _ => ?_⟩⟩
    · simp only [Instr.wf, isReservedDoorCode, Bool.and_eq_true, decide_eq_true_eq]
      bv_omega
    · simp only [tests_dstate, List.forall_mem_cons, List.not_mem_nil, false_imp_iff, implies_true, and_true,
        Nat.reducePow, Nat.div_one]
      bv_omega
  all_goals exact ⟨rfl, selects_of_picks_word ‹w.toNat = _› rfl⟩

/-- A word that decodes is the word of a well-formed operation's row. -/
theorem decode_selects {f : Format} {w : BitVec 16} {i : Instr} (h : decode f w = some i) :
    i.wf = true ∧ selects f w (rowOf i) = true := by
  cases f with
  | trace => exact decodeTrace_selects h
  | sampleCl =>
    obtain ⟨rfl, hsel⟩ := decodeSample_selects (f := .sampleCl) (n := 1) h rfl
    exact ⟨rfl, hsel⟩
  | sampleOl =>
    obtain ⟨rfl, hsel⟩ := decodeSample_selects (f := .sampleOl) (n := 2) h rfl
    exact ⟨rfl, hsel⟩
  | ev => exact decodeEv_selects h
  | char => exact decodeChar_selects h
  | csrRead => exact decodeCsrRead_selects h
  | csrWrite => exact decodeCsrWrite_selects h
  | dstate => exact decodeDstate_selects h
  | qop => exact decodeQop_selects h
  | key | busk | mcmd | kpstate =>
    simp only [decode, decodeKey, decodeBusk, decodeMcmd, decodeKpstate] at h
    split at h
    all_goals cases h
    all_goals exact ⟨rfl, selects_of_picks_word ‹w.toNat = _› rfl⟩

/-! ## A word that selects a row decodes -/

theorem decodeTrace_ne_none {w : BitVec 16} (h : ∃ t ∈ tests .trace, w.toNat / 2 ^ t.1 = t.2) :
    decodeTrace w ≠ none := by
  intro hnone
  simp only [tests_trace, List.mem_cons, List.not_mem_nil, or_false, exists_eq_or_imp, exists_eq_left,
    Nat.reducePow, Nat.div_one] at h
  simp only [decodeTrace, toNat_topField (lo := 13) (len := 3) rfl, extractLsb'_eq_iff, Nat.reducePow,
    Nat.div_one] at hnone
  split at hnone
  case h_6 =>
    simp only [imp_false] at *
    omega
  all_goals
    split_ifs at hnone
    bv_omega

theorem decode_ne_none {f : Format} {w : BitVec 16} {n : Nat} (h : selects f w n = true) : decode f w ≠ none := by
  have hw := lt_width_of_selects h
  cases f with
  | trace => exact decodeTrace_ne_none (exists_test_of_selects h (by decide) (by decide))
  | sampleCl | sampleOl =>
    have hlow := exists_test_of_selects h (by decide) (by decide)
    simp only [tests_sampleCl, tests_sampleOl, List.mem_singleton, exists_eq_left] at hlow
    have htop : w.extractLsb' 10 6 = 0 :=
      (extractLsb'_eq_zero_iff rfl).mpr ((Nat.div_eq_zero_iff_lt (Nat.two_pow_pos _)).mp hlow)
    simp [decode, decodeSample, htop]
  | csrRead =>
    have hlow := exists_test_of_selects h (by decide) (by decide)
    simp only [tests_csrRead, List.mem_singleton, exists_eq_left] at hlow
    have htop : w.extractLsb' 7 9 = 0 :=
      (extractLsb'_eq_zero_iff rfl).mpr ((Nat.div_eq_zero_iff_lt (Nat.two_pow_pos _)).mp hlow)
    simp [decode, decodeCsrRead, htop]
  | ev =>
    have htype : w.toNat / 2 ^ 8 < 16 := Nat.div_lt_of_lt_mul hw
    simp only [decode, decodeEv, toNat_topField (lo := 8) (len := 8) rfl]
    interval_cases w.toNat / 2 ^ 8
    all_goals exact Option.some_ne_none _
  | char | csrWrite =>
    have htop : ¬w.extractLsb' 8 8 ≠ 0 := not_not_intro ((extractLsb'_eq_zero_iff rfl).mpr hw)
    simp only [decode, decodeChar, decodeCsrWrite, if_neg htop]
    split_ifs
    all_goals exact Option.some_ne_none _
  | dstate =>
    have htop : ¬w.extractLsb' 7 9 ≠ 0 := not_not_intro ((extractLsb'_eq_zero_iff rfl).mpr hw)
    simp only [decode, decodeDstate, if_neg htop]
    split
    all_goals exact Option.some_ne_none _
  | qop =>
    have htop : ¬w.extractLsb' 13 3 ≠ 0 := not_not_intro ((extractLsb'_eq_zero_iff rfl).mpr hw)
    simp only [decode, decodeQop, if_neg htop]
    split_ifs
    all_goals exact Option.some_ne_none _
  | key | busk | mcmd | kpstate =>
    simp only [Format.width, Nat.reducePow] at hw
    simp only [decode, decodeKey, decodeBusk, decodeMcmd, decodeKpstate]
    interval_cases w.toNat
    all_goals exact Option.some_ne_none _

/-- Settles O2: each format's decoder picks the row, and no word selects two rows. -/
theorem decoderAgreesWithOpcodeTable : Obligations.DecoderAgreesWithOpcodeTable := by
  refine ⟨fun f w i => decode_selects, fun f w n h => ?_⟩
  obtain ⟨i, hi⟩ := Option.ne_none_iff_exists'.mp (decode_ne_none h)
  exact ⟨i, hi, selects_unique (decode_selects hi).2 h⟩

/-! ## Format `TRACE` (R90) -/

/-- The operation of a `BUS` word whose kind may be any number, those above 7 having none (R91). -/
theorem busInstr_ofNat (k : Nat) (d : Byte) :
    (if k < 8 then some (busInstr (BitVec.ofNat 3 k) d) else none) =
      if k = 0 then some (.busAw d)
      else if k = 1 then some (.busRx d)
      else if k = 2 then some (.busAr d)
      else if k = 3 then some (.busRdnext d)
      else if k = 4 then some (.busStop d)
      else if k = 5 then some (.busErr d)
      else if k = 6 then some (.busRsvd 0 d)
      else if k = 7 then some (.busRsvd 1 d)
      else none := by
  by_cases h : k < 8
  · interval_cases k
    all_goals rfl
  · have hne : ∀ j < 8, k ≠ j := by omega
    simp [h, hne]

theorem decodeTrace_of_tick {w : BitVec 16} (h : w.toNat / 8192 = 0) :
    decodeTrace w =
      if w.toNat % 8192 < 1024 then
        some (.tick (decide (w.toNat % 8192 / 512 % 2 = 1)) (decide (w.toNat % 8192 / 256 % 2 = 1))
          (BitVec.ofNat 4 (w.toNat % 8192 / 16)) (BitVec.ofNat 4 (w.toNat % 8192)))
      else none := by
  have hagent : (w.extractLsb' 13 3).toNat = 0 := (toNat_topField rfl w).trans h
  have hoperand : w.toNat % 8192 = w.toNat := Nat.mod_eq_of_lt (by omega)
  have hzero : w.extractLsb' 10 3 = 0 ↔ w.toNat < 1024 := by
    rw [extractLsb'_eq_iff]
    bv_omega
  have hsense : w.extractLsb' 4 4 = BitVec.ofNat 4 (w.toNat / 16) := by
    rw [extractLsb'_eq_iff]
    bv_omega
  have hscan : w.extractLsb' 0 4 = BitVec.ofNat 4 w.toNat := by
    rw [extractLsb'_eq_iff]
    bv_omega
  simp only [decodeTrace, hagent, hoperand, hzero, hsense, hscan, getLsbD_eq_decide, Nat.reducePow]

theorem decodeTrace_of_bus {w : BitVec 16} (h : w.toNat / 8192 = 1) :
    decodeTrace w =
      if w.toNat % 8192 / 256 < 8 then
        some (busInstr (BitVec.ofNat 3 (w.toNat % 8192 / 256)) (BitVec.ofNat 8 (w.toNat % 8192)))
      else none := by
  have hagent : (w.extractLsb' 13 3).toNat = 1 := (toNat_topField rfl w).trans h
  have hzero : w.extractLsb' 11 2 = 0 ↔ w.toNat % 8192 / 256 < 8 := by
    rw [extractLsb'_eq_iff]
    bv_omega
  have hkind : w.extractLsb' 8 3 = BitVec.ofNat 3 (w.toNat % 8192 / 256) := by
    rw [extractLsb'_eq_iff]
    bv_omega
  have hdata : w.extractLsb' 0 8 = BitVec.ofNat 8 (w.toNat % 8192) := by
    rw [extractLsb'_eq_iff]
    bv_omega
  simp only [decodeTrace, hagent, hzero, hkind, hdata]

theorem operand_eq_zero_iff (w : BitVec 16) : w.extractLsb' 0 13 = 0 ↔ w.toNat % 8192 = 0 := by
  rw [extractLsb'_eq_iff]
  bv_omega

theorem kpRule_scan_ignored {k : KpState} (hk : k ≠ .scan) (sense scan scan' : Lines) (s : State) :
    kpRule k sense scan s = kpRule k sense scan' s := by
  cases k with
  | scan => exact absurd rfl hk
  | idle | wait | release => rfl

/-- Settles O3: the word by its agent, the operands that are ignored by the rules that do not take them. -/
theorem traceWordFormat : Obligations.TraceWordFormat := by
  refine ⟨fun w => ?_, fun s cl ol sense scan scan' hk => ?_, fun s d d' k => ⟨rfl, rfl, rfl, rfl, rfl, rfl⟩⟩
  · have hagent : w.toNat / 8192 < 8 := Nat.div_lt_of_lt_mul w.isLt
    intro agent operand data
    simp only [agent, operand, data]
    change decodeTrace w = _
    generalize hw : w.toNat / 8192 = n at hagent
    have hfield : (w.extractLsb' 13 3).toNat = n := (toNat_topField rfl w).trans hw
    interval_cases n
    · exact decodeTrace_of_tick hw
    · exact (decodeTrace_of_bus hw).trans (busInstr_ofNat _ _)
    all_goals simp only [decodeTrace, hfield, operand_eq_zero_iff]
    all_goals rfl
  · exact congrArg Host.Outcome.next (kpRule_scan_ignored hk sense scan scan' (dbSample .ol ol (dbSample .cl cl s.begin)))

/-! ## Encoding and back (R80) -/

/-! ### The fields of the encoded words -/

theorem traceWord_agent (agent : BitVec 3) (operand : BitVec 13) :
    (traceWord agent operand).extractLsb' 13 3 = agent :=
  BitVec.extractLsb'_append_eq_left

theorem traceWord_operand (agent : BitVec 3) (operand : BitVec 13) {lo len : Nat} (h : lo + len ≤ 13) :
    (traceWord agent operand).extractLsb' lo len = operand.extractLsb' lo len :=
  BitVec.extractLsb'_append_eq_of_add_le h

theorem traceWord_bit (agent : BitVec 3) (operand : BitVec 13) {pos : Nat} (h : pos < 13) :
    (traceWord agent operand).getLsbD pos = operand.getLsbD pos := by
  rw [traceWord, BitVec.getLsbD_append, if_pos h]

/-- The operand of a `BUS` word: two zero bits, the kind, the byte (R90). -/
theorem busOperand_fields (kind : BitVec 3) (d : Byte) :
    ((0#2 ++ kind) ++ d).extractLsb' 11 2 = 0 ∧ ((0#2 ++ kind) ++ d).extractLsb' 8 3 = kind ∧
      ((0#2 ++ kind) ++ d).extractLsb' 0 8 = d :=
  ⟨(BitVec.extractLsb'_append_eq_of_le (by decide)).trans BitVec.extractLsb'_append_eq_left,
    (BitVec.extractLsb'_append_eq_of_le (by decide)).trans BitVec.extractLsb'_append_eq_right,
    BitVec.extractLsb'_append_eq_right⟩

theorem decode_busWord (kind : BitVec 3) (d : Byte) : decode .trace (busWord kind d).bits = some (busInstr kind d) := by
  obtain ⟨hzero, hkind, hdata⟩ := busOperand_fields kind d
  simp only [decode, decodeTrace, busWord, traceWord_agent, traceWord_operand, Nat.reduceAdd, Nat.reduceLeDiff]
  rw [hzero, hkind, hdata]
  rfl

theorem evWord_type (type : BitVec 4) (data : Byte) :
    ((evWord type data).bits.extractLsb' 8 8).toNat = type.toNat := by
  have hd := data.isLt
  have ht := type.isLt
  rw [toNat_topField rfl, evWord, BitVec.toNat_setWidth, BitVec.toNat_append, ← Nat.shiftLeft_add_eq_or_of_lt hd,
    Nat.shiftLeft_eq]
  omega

theorem evWord_data (type : BitVec 4) (data : Byte) : (evWord type data).bits.extractLsb' 0 8 = data := by
  rw [evWord, BitVec.extractLsb'_setWidth_of_le (by decide), BitVec.extractLsb'_append_eq_right]

theorem plainWord_field {n : Nat} (f : Format) (v : BitVec n) {lo len : Nat} (h : lo + len ≤ 16) :
    (plainWord f v).bits.extractLsb' lo len = v.extractLsb' lo len :=
  BitVec.extractLsb'_setWidth_of_le h

theorem plainWord_low {m n : Nat} (f : Format) (hi : BitVec m) (lo : BitVec n) (h : n ≤ 16) :
    (plainWord f (hi ++ lo)).bits.extractLsb' 0 n = lo := by
  rw [plainWord_field f _ (by omega), BitVec.extractLsb'_append_eq_right]

theorem plainWord_high {m n : Nat} (f : Format) (hi : BitVec m) (lo : BitVec n) (h : n + m ≤ 16) :
    (plainWord f (hi ++ lo)).bits.extractLsb' n m = hi := by
  rw [plainWord_field f _ h, BitVec.extractLsb'_append_eq_left]

theorem plainWord_all {n : Nat} (f : Format) (v : BitVec n) (h : n ≤ 16) :
    (plainWord f v).bits.extractLsb' 0 n = v := by
  rw [plainWord_field f _ (by omega), BitVec.extractLsb'_eq_self]

theorem plainWord_toNat {n : Nat} (f : Format) (v : BitVec n) (h : n ≤ 16) : (plainWord f v).bits.toNat = v.toNat :=
  (BitVec.toNat_setWidth ..).trans (Nat.mod_eq_of_lt (v.isLt.trans_le (Nat.pow_le_pow_right (by decide) h)))

/-- The bits above the field of a word are zero. -/
theorem plainWord_top {n len : Nat} (f : Format) (v : BitVec n) (h : n + len = 16) :
    (plainWord f v).bits.extractLsb' n len = 0 := by
  rw [extractLsb'_eq_zero_iff h, plainWord_toNat f v (by omega)]
  exact v.isLt

theorem plainWord_bit {n : Nat} (f : Format) (b : BitVec 1) (v : BitVec n) (h : n < 16) :
    (plainWord f (b ++ v)).bits.getLsbD n = b.getLsbD 0 := by
  rw [plainWord, BitVec.getLsbD_setWidth, BitVec.getLsbD_append]
  simp [h]

/-! ### The rows with operands -/

/-- The operand of a `TICK` word: three zero bits, the two switches, the two samples (R90). -/
theorem tickOperand_fields (cl ol : Level) (sense scan : Lines) :
    ((((0#3 ++ bit cl) ++ bit ol) ++ sense) ++ scan).extractLsb' 10 3 = 0 ∧
      ((((0#3 ++ bit cl) ++ bit ol) ++ sense) ++ scan).getLsbD 9 = cl ∧
      ((((0#3 ++ bit cl) ++ bit ol) ++ sense) ++ scan).getLsbD 8 = ol ∧
      ((((0#3 ++ bit cl) ++ bit ol) ++ sense) ++ scan).extractLsb' 4 4 = sense ∧
      ((((0#3 ++ bit cl) ++ bit ol) ++ sense) ++ scan).extractLsb' 0 4 = scan := by
  refine ⟨?_, ?_, ?_, ?_, BitVec.extractLsb'_append_eq_right⟩
  · calc
      _ = (((0#3 ++ bit cl) ++ bit ol) ++ sense).extractLsb' 6 3 := BitVec.extractLsb'_append_eq_of_le (by decide)
      _ = ((0#3 ++ bit cl) ++ bit ol).extractLsb' 2 3 := BitVec.extractLsb'_append_eq_of_le (by decide)
      _ = (0#3 ++ bit cl).extractLsb' 1 3 := BitVec.extractLsb'_append_eq_of_le (by decide)
      _ = 0 := BitVec.extractLsb'_append_eq_left
  · simp only [BitVec.getLsbD_append]
    simp [bit]
  · simp only [BitVec.getLsbD_append]
    simp [bit]
  · exact (BitVec.extractLsb'_append_eq_of_le (by decide)).trans BitVec.extractLsb'_append_eq_right

theorem decode_encode_tick (cl ol : Level) (sense scan : Lines) :
    decodeTrace (encode (.tick cl ol sense scan)).bits = some (.tick cl ol sense scan) := by
  obtain ⟨hzero, hcl, hol, hsense, hscan⟩ := tickOperand_fields cl ol sense scan
  simp only [decodeTrace, encode, traceWord_agent, traceWord_operand, traceWord_bit, Nat.reduceAdd, Nat.reduceLeDiff,
    Nat.reduceLT]
  rw [hzero, hcl, hol, hsense, hscan]
  rfl

theorem two_bit_cases : ∀ k : BitVec 2, k = 0 ∨ k = 1 ∨ k = 2 ∨ k = 3 := by decide

theorem decode_encode_keyDigit0to7 (k : BitVec 3) :
    decodeChar (encode (.keyDigit0to7 k)).bits = some (.keyDigit0to7 k) := by
  have htop := plainWord_top (len := 8) .char (0b00110#5 ++ k) rfl
  rw [encode, decodeChar, htop, plainWord_low _ _ _ (by decide), plainWord_high _ _ _ (by decide)]
  rfl

theorem decode_encode_keyOther {ch : Byte} (h : (Instr.keyOther ch).wf = true) :
    decodeChar (encode (.keyOther ch)).bits = some (.keyOther ch) := by
  simp only [Instr.wf, isOtherCode, isDigitCode, Bool.and_eq_true, Bool.not_eq_true', Bool.and_eq_false_iff,
    decide_eq_false_iff_not, bne_iff_ne] at h
  obtain ⟨hdigit, hterm⟩ := h
  have h07 : ch.extractLsb' 3 5 ≠ 0b00110#5 := by
    rw [ne_eq, extractLsb'_eq_iff]
    bv_omega
  have h89 : ch.extractLsb' 1 7 ≠ 0b0011100#7 := by
    rw [ne_eq, extractLsb'_eq_iff]
    bv_omega
  rw [encode, decodeChar, plainWord_top (len := 8) .char ch rfl, plainWord_field (lo := 3) _ _ (by decide),
    plainWord_field (lo := 1) (len := 7) _ _ (by decide), plainWord_all _ _ (by decide), if_neg (by decide), if_neg h07,
    if_neg h89, if_neg hterm]

theorem decode_encode_csrRdStatus (x : BitVec 7) :
    decodeCsrRead (encode (.csrRdStatus x)).bits = some (.csrRdStatus x) := by
  have htop : (plainWord .csrRead (0#1 ++ x)).bits.extractLsb' 7 9 = 0 := by
    rw [extractLsb'_eq_zero_iff rfl, plainWord_toNat _ _ (by decide), BitVec.toNat_append]
    simpa using x.isLt
  rw [encode, decodeCsrRead, htop, plainWord_low _ _ _ (by decide)]
  rfl

theorem decodeCsrWrite_plainWord (b : BitVec 1) (x : BitVec 7) :
    decodeCsrWrite (plainWord .csrWrite (b ++ x)).bits =
      if b.getLsbD 0 then some (.csrWrActuate x) else some (.csrWrNop x) := by
  have htop := plainWord_top (len := 8) .csrWrite (b ++ x) rfl
  rw [decodeCsrWrite, htop, plainWord_low _ _ _ (by decide), plainWord_bit _ _ _ (by decide)]
  rfl

theorem decodeQop_plainWord (b : BitVec 1) (x : BitVec 12) :
    decodeQop (plainWord .qop (b ++ x)).bits = if b.getLsbD 0 then some (.qEnq x) else some (.qDeq x) := by
  have htop := plainWord_top (len := 3) .qop (b ++ x) rfl
  rw [decodeQop, htop, plainWord_low _ _ _ (by decide), plainWord_bit _ _ _ (by decide)]
  rfl

theorem decode_encode_dsReserved {c : DoorCode} (h : (Instr.dsReserved c).wf = true) :
    decodeDstate (encode (.dsReserved c)).bits = some (.dsReserved c) := by
  simp only [Instr.wf, isReservedDoorCode, Bool.and_eq_true, decide_eq_true_eq, BitVec.le_def] at h
  obtain ⟨hlow, hhigh⟩ := h
  rw [encode, decodeDstate, plainWord_top (len := 9) .dstate c rfl, plainWord_all _ _ (by decide), if_neg (by decide)]
  split
  case h_8 => rfl
  all_goals bv_omega

/-- Settles O1: the rows with operands by the fields of their words, the others by evaluation. -/
theorem encodedInstructionDecodesToItself : Obligations.EncodedInstructionDecodesToItself := by
  intro i hwf
  cases i with
  | tick cl ol sense scan => exact decode_encode_tick cl ol sense scan
  | dbSampleCl l | dbSampleOl l =>
    cases l
    all_goals rfl
  | busAw d | busRx d | busAr d | busRdnext d | busStop d | busErr d => exact decode_busWord _ d
  | busRsvd k d =>
    rcases BitVec.eq_zero_or_eq_one k with rfl | rfl
    all_goals exact decode_busWord _ d
  | closedLimitPressed d | closedLimitReleased d | openLimitPressed d | openLimitReleased d | keypadNewKey d
  | actuateDoor d | startDoor d | stopDoor d | evReserved0 d | evReserved9 d =>
    change decodeEv (evWord _ d).bits = _
    simp only [decodeEv, evWord_type, evWord_data]
    rfl
  | evReservedAB k d =>
    change decodeEv (evWord _ d).bits = _
    simp only [decodeEv, evWord_type, evWord_data]
    rcases BitVec.eq_zero_or_eq_one k with rfl | rfl
    all_goals rfl
  | evReservedCF k d =>
    change decodeEv (evWord _ d).bits = _
    simp only [decodeEv, evWord_type, evWord_data]
    rcases two_bit_cases k with rfl | rfl | rfl | rfl
    all_goals rfl
  | keyDigit0to7 k => exact decode_encode_keyDigit0to7 k
  | keyDigit8to9 k | kindRsvd k =>
    rcases BitVec.eq_zero_or_eq_one k with rfl | rfl
    all_goals rfl
  | keyOther ch => exact decode_encode_keyOther hwf
  | csrRdStatus x => exact decode_encode_csrRdStatus x
  | csrWrActuate x | csrWrNop x => exact decodeCsrWrite_plainWord _ x
  | dsReserved c => exact decode_encode_dsReserved hwf
  | qEnq x | qDeq x => exact decodeQop_plainWord _ x
  | mainDispatch | mainEmit | reset | keyTerminator | keymap0 | keymap1 | keymap2 | keymap3 | keymap4 | keymap5 | keymap6
  | keymap7 | keymap8 | keymap9 | keymap10 | keymap11 | keymap12 | keymap13 | keymap14 | keymap15 | dsClosed
  | dsClosingStopped | dsOpen | dsOpeningStopped | dsOpening | dsClosing | dsInvalid | kindAw | kindRx | kindAr
  | kindRdnext | kindStop | kindErr | mStop | mStartOpen | mStartClose | mcmdReserved | kpIdle | kpWait | kpScan
  | kpRelease => rfl

/-- Settles O4: each word evaluated in its format. -/
theorem specExampleWordsDecode : Obligations.SpecExampleWordsDecode := by
  unfold Obligations.SpecExampleWordsDecode
  decide

/-! ## What a step does with the words -/

/-- Settles O6: the branch of the step in which the word lined up decodes to nothing. -/
theorem stepRefusesAMalformedWord : Obligations.StepRefusesAMalformedWord := by
  intro s w rest hstim hdecode
  simp only [step, hstim, hdecode]

/-! ## Door-state codes (R86, R87) -/

/-- Every code above `DS_CLOSING` is read as a door that is unknown. -/
theorem doorView_of_lt {c : DoorCode} (h : 0x05 < c.toNat) : doorView c = .unknown := by
  have hne (k : DoorCode) (hk : k.toNat ≤ 0x05) : c ≠ k := fun hck => by
    subst hck
    omega
  simp only [doorView, hne dsClosed (by decide), hne dsClosingStopped (by decide), hne dsOpen (by decide),
    hne dsOpeningStopped (by decide), hne dsOpening (by decide), hne dsClosing (by decide), if_false]

/-- A door-state code by itself leaves its reading among the outputs and writes no register. -/
theorem doorCodeStep_eq (c : DoorCode) (s : State) :
    doorCodeStep c s = { s with out := { doorView := some (doorView c) } } := rfl

/-- Settles O41: the named codes by their reading, the reserved ones because they lie above the named ones. -/
theorem doorCodesAreReadAndChangeNothing : Obligations.DoorCodesAreReadAndChangeNothing := by
  refine fun s => ⟨rfl, rfl, rfl, rfl, rfl, rfl, rfl, fun c hlow _ => ?_⟩
  change Host.Outcome.next (doorCodeStep c s) = _
  rw [doorCodeStep_eq, doorView_of_lt hlow]

end Sys2Proof
end

