-- ==== Sys2Proof/Proofs/EventQueue.lean ====
section
/-! PROOFS, 41_event_queue.md: the two queue operations, runs of them, and the ring that implements the queue. -/

namespace Sys2Proof.Machine

/-! ## The two operations (R111, R112) -/

theorem qFull_eq_true_iff (s : State) : s.qFull = true ↔ s.q.length = s.cfg.qCap := by simp [State.qFull]

theorem qFull_eq_false_iff (s : State) : s.qFull = false ↔ s.q.length ≠ s.cfg.qCap := by simp [State.qFull]

theorem qDeq_of_nil {s : State} (h : s.q = []) : s.qDeq = (.empty, s) := by simp [State.qDeq, h]

theorem qDeq_of_cons {s : State} {e : Ev} {rest : List Ev} (h : s.q = e :: rest) :
    s.qDeq = (.event e, { s with q := rest }) := by simp [State.qDeq, h]

/-- R22: `drop_count` stops at 0xFFFF. -/
theorem saturatingSucc_eq_ofNat (n : BitVec 16) : saturatingSucc n = BitVec.ofNat 16 (min (n.toNat + 1) 65535) := by
  apply BitVec.eq_of_toNat_eq
  rw [saturatingSucc_toNat, BitVec.toNat_ofNat]
  omega

/-- `Q_ENQ` taken by itself on a full queue (R111). -/
theorem exec_qEnq_of_full {e : Ev} {s : State} (h : s.q.length = s.cfg.qCap) :
    exec (.qEnq e) s = .next ((s.begin.raise (.queueFull e)).setQResult .full) := by
  have hfull : s.begin.qFull = true := (qFull_eq_true_iff s.begin).mpr h
  change execQEnq e s = _
  rw [execQEnq, qEnq_of_full hfull]

/-- `Q_ENQ` taken by itself on a queue with room (R111). -/
theorem exec_qEnq_of_room {e : Ev} {s : State} (h : s.q.length ≠ s.cfg.qCap) :
    exec (.qEnq e) s = .next { s with q := s.q ++ [e], out := { qResult := some .success } } := by
  have hroom : s.begin.qFull = false := (qFull_eq_false_iff s.begin).mpr h
  change execQEnq e s = _
  rw [execQEnq, qEnq_of_room hroom]
  rfl

/-- `Q_DEQ` taken by itself on an empty queue (R112). -/
theorem exec_qDeq_of_nil {x : BitVec 12} {s : State} (h : s.q = []) :
    exec (.qDeq x) s = .next { s with out := { qResult := some .empty } } := by
  have hnil : s.begin.q = [] := h
  change execQDeq x s = _
  rw [execQDeq, qDeq_of_nil hnil]
  rfl

/-- `Q_DEQ` taken by itself where an event is queued (R112). -/
theorem exec_qDeq_of_cons {x : BitVec 12} {s : State} {e : Ev} {rest : List Ev} (h : s.q = e :: rest) :
    exec (.qDeq x) s = .next { s with q := rest, out := { qResult := some (.event e) } } := by
  have hcons : s.begin.q = e :: rest := h
  change execQDeq x s = _
  rw [execQDeq, qDeq_of_cons hcons]
  rfl

/-- Settles O11: a full queue and a queue with room. -/
theorem enqueueAppendsOrDrops : Obligations.EnqueueAppendsOrDrops := by
  intro e s
  by_cases h : s.q.length = s.cfg.qCap
  · rw [if_pos h, exec_qEnq_of_full h, ← saturatingSucc_eq_ofNat]
    rfl
  · rw [if_neg h, exec_qEnq_of_room h]

/-- Settles O12: an empty queue and one with an oldest event. -/
theorem dequeueTakesTheOldest : Obligations.DequeueTakesTheOldest := by
  intro x s
  cases h : s.q with
  | nil => rw [exec_qDeq_of_nil h, h]
  | cons e rest => exact exec_qDeq_of_cons h

/-! ## Runs of queue operations (R115) -/

/-- What a run of queue operations can be: the operations, the state before it, the events dequeued, the events accepted and the
state after it, with one constructor for each way in which an operation answers. -/
inductive QueueRun : List (Option Ev) → State → List Ev → List Ev → State → Prop
  | done (s : State) : QueueRun [] s [] [] s
  /-- An enqueue answers full. -/
  | lost {e ops s s' out acc t} (run : QueueRun ops s' out acc t) (hfull : s.q.length = s.cfg.qCap) (hq : s'.q = s.q)
    (hcfg : s'.cfg = s.cfg) : QueueRun (some e :: ops) s out acc t
  /-- An enqueue answers success. -/
  | accepted {e ops s s' out acc t} (run : QueueRun ops s' out acc t) (hroom : s.q.length ≠ s.cfg.qCap)
    (hq : s'.q = s.q ++ [e]) (hcfg : s'.cfg = s.cfg) : QueueRun (some e :: ops) s out (e :: acc) t
  /-- A dequeue answers empty. -/
  | idle {ops s s' out acc t} (run : QueueRun ops s' out acc t) (hempty : s.q = []) (hq : s'.q = s.q)
    (hcfg : s'.cfg = s.cfg) : QueueRun (none :: ops) s out acc t
  /-- A dequeue answers the oldest event. -/
  | taken {e ops s s' out acc t} (run : QueueRun ops s' out acc t) (hq : s.q = e :: s'.q) (hcfg : s'.cfg = s.cfg) :
    QueueRun (none :: ops) s (e :: out) acc t

/-- The model's run is one: the walk through the answers of the operations. -/
theorem queueRun_isRun (ops : List (Option Ev)) (s : State) :
    QueueRun ops s (queueRun ops s).1 (queueRun ops s).2.1 (queueRun ops s).2.2 := by
  induction ops generalizing s with
  | nil => exact .done s
  | cons op ops ih =>
    cases op with
    | some e =>
      by_cases h : s.q.length = s.cfg.qCap
      · simp only [queueRun, exec_qEnq_of_full h, State.setQResult_out, Option.some.injEq, reduceCtorEq, if_false]
        exact .lost (ih _) h rfl rfl
      · simp only [queueRun, exec_qEnq_of_room h, if_true]
        exact .accepted (ih _) h rfl rfl
    | none =>
      cases h : s.q with
      | nil =>
        simp only [queueRun, exec_qDeq_of_nil h]
        exact .idle (ih _) h rfl rfl
      | cons e rest =>
        simp only [queueRun, exec_qDeq_of_cons h]
        exact .taken (ih _) h rfl

/-- First in, first out: nothing overtakes, is lost once accepted, or is changed. -/
theorem QueueRun.fifo {ops s out acc t} (h : QueueRun ops s out acc t) : out ++ t.q = s.q ++ acc := by
  induction h with
  | done s => simp
  | lost _ _ hq _ ih => rw [ih, hq]
  | accepted _ _ hq _ ih => rw [ih, hq, List.append_assoc, List.singleton_append]
  | idle _ _ hq _ ih => rw [ih, hq]
  | taken _ hq _ ih => rw [hq, List.cons_append, List.cons_append, ih]

/-- The capacity is never exceeded (R21). -/
theorem QueueRun.memory_wf {ops s out acc t} (h : QueueRun ops s out acc t) (hs : Memory.wf s) : Memory.wf t := by
  induction h with
  | done s => exact hs
  | lost _ _ hq hcfg ih => exact ih (by rwa [Memory.wf, hq, hcfg])
  | accepted _ hroom hq hcfg ih =>
    refine ih ?_
    rw [Memory.wf, hq, hcfg, List.length_append, List.length_singleton]
    exact Nat.lt_of_le_of_ne hs hroom
  | idle _ _ hq hcfg ih => exact ih (by rwa [Memory.wf, hq, hcfg])
  | taken _ hq hcfg ih =>
    refine ih ?_
    rw [Memory.wf, hq, List.length_cons] at hs
    rw [Memory.wf, hcfg]
    exact Nat.le_of_succ_le hs

/-- Where the enqueues fit the capacity, every event is accepted. -/
theorem QueueRun.all_accepted {ops s out acc t} (h : QueueRun ops s out acc t)
    (hfit : s.q.length + (ops.filterMap id).length ≤ s.cfg.qCap) : acc = ops.filterMap id := by
  induction h with
  | done s => rfl
  | lost _ hfull _ _ _ =>
    rw [List.filterMap_cons_some (id_eq _), List.length_cons] at hfit
    omega
  | accepted _ _ hq hcfg ih =>
    rw [List.filterMap_cons_some (id_eq _), List.length_cons] at hfit
    rw [List.filterMap_cons_some (id_eq _), ih (by rw [hq, hcfg, List.length_append, List.length_singleton]; omega)]
  | idle _ _ hq hcfg ih => exact ih (by rwa [hq, hcfg])
  | taken _ hq hcfg ih =>
    refine ih ?_
    rw [hq, List.length_cons, List.filterMap_cons_none (id_eq _)] at hfit
    rw [hcfg]
    omega

/-- Settles O13: each part by induction on the run. -/
theorem queueIsFirstInFirstOut : Obligations.QueueIsFirstInFirstOut := by
  intro ops s hs
  have hrun := queueRun_isRun ops s
  exact ⟨hrun.fifo, hrun.memory_wf hs, hrun.all_accepted⟩

/-! ## The ring (R116, R21) -/

/-- The compare and reset is the wrap modulo the number of slots. -/
theorem ringNext_eq_mod {cap i : Nat} (h : i < cap) : ringNext cap i = (i + 1) % cap := by
  unfold ringNext
  split
  · next heq => rw [heq, Nat.mod_self]
  · exact (Nat.mod_eq_of_lt (by omega)).symm

/-- Two different places in the sequence stand in two different slots. -/
theorem ring_slot_ne {cap k n : Nat} (head : Nat) (hkn : k < n) (hn : n < cap) : (head + k) % cap ≠ (head + n) % cap := by
  intro h
  have hmod : k ≡ n [MOD cap] := Nat.ModEq.add_left_cancel' head h
  exact hkn.ne (hmod.eq_of_lt_of_lt (hkn.trans hn) hn)

theorem Ring.enq_of_full {cap : Nat} {e : Ev} {r : Ring} (h : r.count = cap) : r.enq cap e = (.full, r) := if_pos h

theorem Ring.enq_of_room {cap : Nat} {e : Ev} {r : Ring} (h : r.count ≠ cap) :
    r.enq cap e =
      (.success, { r with buf := r.buf.set r.tail e, tail := ringNext cap r.tail, count := r.count + 1 }) := if_neg h

theorem Ring.deq_of_empty {cap : Nat} {r : Ring} (h : r.count = 0) : r.deq cap = (.empty, r) := if_pos h

theorem Ring.deq_of_pos {cap : Nat} {r : Ring} (h : r.count ≠ 0) :
    r.deq cap = (.event (r.buf.getD r.head 0), { r with head := ringNext cap r.head, count := r.count - 1 }) := if_neg h

theorem Ring.length_toQueue (cap : Nat) (r : Ring) : (r.toQueue cap).length = r.count := by simp [Ring.toQueue]

/-- An enqueue keeps the indices in range and the write index at the end of the live range. -/
theorem Ring.wf_enq {cap : Nat} {r : Ring} (e : Ev) (h : r.wf cap) : (r.enq cap e).2.wf cap := by
  obtain ⟨hcap, hbuf, hhead, htail, hcount, hend⟩ := h
  by_cases hfull : r.count = cap
  · rw [Ring.enq_of_full hfull]
    exact ⟨hcap, hbuf, hhead, htail, hcount, hend⟩
  · rw [Ring.enq_of_room hfull]
    have hnext : ringNext cap r.tail = (r.head + (r.count + 1)) % cap := by
      rw [ringNext_eq_mod htail, hend, Nat.mod_add_mod, Nat.add_assoc]
    refine ⟨hcap, ?_, hhead, ?_, ?_, hnext⟩
    · rw [List.length_set, hbuf]
    · exact hnext ▸ Nat.mod_lt _ hcap
    · exact Nat.lt_of_le_of_ne hcount hfull

/-- A dequeue keeps the indices in range and leaves the write index at the end of the live range. -/
theorem Ring.wf_deq {cap : Nat} {r : Ring} (h : r.wf cap) : (r.deq cap).2.wf cap := by
  obtain ⟨hcap, hbuf, hhead, htail, hcount, hend⟩ := h
  by_cases hempty : r.count = 0
  · rw [Ring.deq_of_empty hempty]
    exact ⟨hcap, hbuf, hhead, htail, hcount, hend⟩
  · rw [Ring.deq_of_pos hempty]
    have hsum : r.head + 1 + (r.count - 1) = r.head + r.count := by omega
    refine ⟨hcap, hbuf, ?_, htail, (Nat.sub_le _ _).trans hcount, ?_⟩
    · exact ringNext_eq_mod hhead ▸ Nat.mod_lt _ hcap
    · rw [ringNext_eq_mod hhead, Nat.mod_add_mod, hsum, hend]

/-- An enqueue with room appends: the new event stands behind the live range, in a slot that the range does not use. -/
theorem Ring.toQueue_enq {cap : Nat} {r : Ring} (e : Ev) (h : r.wf cap) (hroom : r.count < cap) :
    (r.enq cap e).2.toQueue cap = r.toQueue cap ++ [e] := by
  obtain ⟨_, hbuf, _, htail, _, hend⟩ := h
  have hkept : ∀ k ∈ List.range r.count,
      (r.buf.set r.tail e).getD ((r.head + k) % cap) 0 = r.buf.getD ((r.head + k) % cap) 0 := by
    intro k hk
    have hne : r.tail ≠ (r.head + k) % cap := hend ▸ (ring_slot_ne r.head (List.mem_range.mp hk) hroom).symm
    rw [List.getD_eq_getElem?_getD, List.getD_eq_getElem?_getD, List.getElem?_set_ne hne]
  have hnew : (r.buf.set r.tail e).getD ((r.head + r.count) % cap) 0 = e := by
    rw [← hend, List.getD_eq_getElem?_getD, List.getElem?_set_self (hbuf ▸ htail), Option.getD_some]
  rw [Ring.enq_of_room hroom.ne]
  simp only [Ring.toQueue, List.range_succ, List.map_append, List.map_singleton, hnew, List.map_congr_left hkept]

/-- The live range of a ring that is not empty: the slot at the read index, then what a dequeue leaves. -/
theorem Ring.toQueue_of_pos {cap : Nat} {r : Ring} (h : r.wf cap) (hpos : r.count ≠ 0) :
    r.toQueue cap = r.buf.getD r.head 0 :: (r.deq cap).2.toQueue cap := by
  obtain ⟨_, _, hhead, _, _, _⟩ := h
  obtain ⟨n, hn⟩ := Nat.exists_eq_succ_of_ne_zero hpos
  have hshift (k : Nat) : (r.head + (k + 1)) % cap = (ringNext cap r.head + k) % cap := by
    rw [ringNext_eq_mod hhead, Nat.mod_add_mod, Nat.add_right_comm, Nat.add_assoc]
  rw [Ring.deq_of_pos hpos]
  simp only [Ring.toQueue, hn, Nat.succ_eq_add_one, Nat.add_sub_cancel, List.range_succ_eq_map, List.map_cons,
    List.map_map, Function.comp_def, Nat.add_zero, Nat.mod_eq_of_lt hhead, hshift]

/-- Settles O14: the ring's invariant, and what each operation does to the sequence that the ring stands for. -/
theorem ringRefinesTheQueue : Obligations.RingRefinesTheQueue := by
  intro cap r e h
  have hlen := Ring.length_toQueue cap r
  refine ⟨⟨Ring.wf_enq e h, Ring.wf_deq h⟩, fun hroom => ⟨?_, Ring.toQueue_enq e h hroom⟩, Ring.enq_of_full,
    fun x rest hq => ?_, fun hq => ?_, hlen⟩
  · rw [Ring.enq_of_room hroom.ne]
  · have hpos : r.count ≠ 0 := by
      rw [← hlen, hq]
      exact Nat.succ_ne_zero _
    rw [Ring.toQueue_of_pos h hpos] at hq
    obtain ⟨hx, hrest⟩ := List.cons.inj hq
    exact ⟨by rw [Ring.deq_of_pos hpos, hx], hrest⟩
  · exact Ring.deq_of_empty (by rw [← hlen, hq, List.length_nil])

end Sys2Proof.Machine
end

