-- ==== Sys2Proof/Proofs/DebounceFilter.lean ====
section
/-! PROOFS, 42_debounce.md: one sample of a limit switch, and runs of samples of one switch. -/

namespace Sys2Proof.Machine

open Sys2Proof.Spec

/-! ## One sample (R121, R122) -/

/-- The differing samples that a process with the debounce length `n` still waits for. -/
def Debounce.left (n : Nat) (d : Debounce) : Nat := if d.armed then d.countdown else n

theorem Debounce.left_of_armed {n : Nat} {d : Debounce} (h : d.armed = true) : d.left n = d.countdown := if_pos h

theorem Debounce.left_of_idle {n : Nat} {d : Debounce} (h : d.armed = false) : d.left n = n := by simp [Debounce.left, h]

/-- The window in which a differing sample counts: the open one, or a new one of `n` samples (R121). -/
theorem debounceArm_eq (n : Nat) (l : Level) (d : Debounce) :
    debounceArm n l d =
      { pending := if d.armed then d.pending else l, confirmed := d.confirmed, countdown := d.left n, armed := true } := by
  obtain ⟨pending, confirmed, countdown, armed⟩ := d
  cases armed <;> rfl

/-- A process does with a sample what the statements' own words say. -/
theorem debounceNext_eq_sampled (n : Nat) (l : Level) (d : Debounce) : debounceNext n l d = sampled n l d := by
  change _ = if l = d.confirmed then _ else if d.left n = 1 then _ else _
  by_cases hsame : l = d.confirmed
  · rw [if_pos hsame, debounceNext_same hsame]
  · by_cases hlast : d.left n = 1
    · rw [if_neg hsame, if_pos hlast, debounceNext_confirm hsame (by rw [debounceArm_eq, hlast]), debounceArm_eq]
    · rw [if_neg hsame, if_neg hlast, debounceNext_count hsame (by rwa [debounceArm_eq]), debounceArm_eq]
      rfl

/-- The enqueue whose answer is not looked at, in the statements' own words (R111). -/
theorem enqueue_eq_enqueued (e : Ev) (s : State) : s.enqueue e = enqueued e s := by
  by_cases h : s.q.length = s.cfg.qCap
  · rw [enqueue_of_full ((qFull_eq_true_iff s).mpr h), enqueued, if_pos h, ← saturatingSucc_eq_ofNat]
    rfl
  · rw [enqueue_of_room ((qFull_eq_false_iff s).mpr h), enqueued, if_neg h]

/-- The event of an edge has no payload (R8, R122). -/
theorem evOf_edgeType (i : Switch) (l : Level) : evOf (edgeType i l) = edgeOf i l := by
  cases i <;> cases l <;> rfl

/-- A sample of either switch, in the statements' own words. -/
theorem dbSample_eq_sampled (i : Switch) (l : Level) (s : State) :
    dbSample i l s =
      if (sampled s.cfg.nLimit l (s.db i)).2 then enqueued (edgeOf i l) (s.setDb i (sampled s.cfg.nLimit l (s.db i)).1)
      else s.setDb i (sampled s.cfg.nLimit l (s.db i)).1 := by
  rw [← debounceNext_eq_sampled, ← enqueue_eq_enqueued, ← evOf_edgeType]
  rfl

/-- Settles O17: the two switches, each with its own process and its own two events. -/
theorem limitSwitchSample : Obligations.LimitSwitchSample := by
  intro l s
  have hcl : edgeOf .cl l = if l then 0x200#12 else 0x100#12 := by cases l <;> rfl
  have hol : edgeOf .ol l = if l then 0x400#12 else 0x300#12 := by cases l <;> rfl
  constructor
  · rw [sampledCl, ← hcl]
    exact congrArg Host.Outcome.next (dbSample_eq_sampled .cl l (quiet s))
  · rw [sampledOl, ← hol]
    exact congrArg Host.Outcome.next (dbSample_eq_sampled .ol l (quiet s))

/-! ## What a sample keeps -/

/-- The second state is the first but for the debounce processes and the outputs. -/
def DebounceWrites (s t : State) : Prop := t = { s with dbCl := t.dbCl, dbOl := t.dbOl, out := t.out }

theorem DebounceWrites.refl (s : State) : DebounceWrites s s := rfl

theorem DebounceWrites.trans {s t u : State} (h : DebounceWrites s t) (h' : DebounceWrites t u) : DebounceWrites s u :=
  Eq.trans h' (by rw [h])

theorem DebounceWrites.q_eq {s t : State} (h : DebounceWrites s t) : t.q = s.q := by rw [h]

theorem DebounceWrites.dropCount_eq {s t : State} (h : DebounceWrites s t) : t.dropCount = s.dropCount := by rw [h]

theorem DebounceWrites.cfg_eq {s t : State} (h : DebounceWrites s t) : t.cfg = s.cfg := by rw [h]

theorem DebounceWrites.doorState_eq {s t : State} (h : DebounceWrites s t) : t.doorState = s.doorState := by rw [h]

theorem DebounceWrites.dutyOpen_eq {s t : State} (h : DebounceWrites s t) : t.dutyOpen = s.dutyOpen := by rw [h]

theorem DebounceWrites.dutyClose_eq {s t : State} (h : DebounceWrites s t) : t.dutyClose = s.dutyClose := by rw [h]

theorem setDb_begin_writes (i : Switch) (d : Debounce) (s : State) : DebounceWrites s (s.begin.setDb i d) := by
  cases i <;> rfl

/-- Whether an event is lost does not depend on the debounce processes. -/
theorem DebounceWrites.enqueue {s t : State} (h : DebounceWrites s t) (e : Ev) :
    DebounceWrites (s.enqueue e) (t.enqueue e) := by
  have hfull : t.qFull = s.qFull := by rw [State.qFull, h.q_eq, h.cfg_eq, State.qFull]
  cases hs : s.qFull with
  | true =>
    rw [enqueue_of_full hs, enqueue_of_full (hfull.trans hs), h]
    rfl
  | false =>
    rw [enqueue_of_room hs, enqueue_of_room (hfull.trans hs), h]
    rfl

@[simp] theorem db_enqueue (i : Switch) (e : Ev) (s : State) : (s.enqueue e).db i = s.db i := by
  cases i with
  | cl => exact enqueue_dbCl e s
  | ol => exact enqueue_dbOl e s

/-! ## The three kinds of samples -/

theorem exec_sampleOf (i : Switch) (l : Level) (s : State) : exec (sampleOf i l) s = .next (dbSample i l s.begin) := by
  cases i <;> rfl

/-- A sample that confirms nothing writes its process only. -/
theorem exec_sampleOf_of_pending {i : Switch} {l : Level} {s : State} {d : Debounce}
    (h : debounceNext s.cfg.nLimit l (s.db i) = (d, false)) :
    exec (sampleOf i l) s = .next (s.begin.setDb i d) := by
  have hbegin : debounceNext s.begin.cfg.nLimit l (s.begin.db i) = (d, false) := by cases i <;> exact h
  rw [exec_sampleOf, dbSample, hbegin]
  rfl

/-- A sample that confirms a change enqueues its edge. -/
theorem exec_sampleOf_of_confirmed {i : Switch} {l : Level} {s : State} {d : Debounce}
    (h : debounceNext s.cfg.nLimit l (s.db i) = (d, true)) :
    exec (sampleOf i l) s = .next ((s.begin.setDb i d).enqueue (edgeOf i l)) := by
  have hbegin : debounceNext s.begin.cfg.nLimit l (s.begin.db i) = (d, true) := by cases i <;> exact h
  rw [exec_sampleOf, dbSample, hbegin, evOf_edgeType]
  rfl

/-- A sample at the confirmed level closes the window. -/
theorem sample_same {i : Switch} {l : Level} {s : State} (h : l = (s.db i).confirmed) :
    ∃ u, exec (sampleOf i l) s = .next u ∧ DebounceWrites s u ∧ (u.db i).confirmed = l ∧ (u.db i).armed = false :=
  ⟨_, exec_sampleOf_of_pending (debounceNext_same h), setDb_begin_writes .., by rw [State.db_setDb, h],
    by rw [State.db_setDb]⟩

/-- A differing sample that is not the last one needed counts. -/
theorem sample_count {i : Switch} {l : Level} {s : State} (h : l ≠ (s.db i).confirmed)
    (hleft : 2 ≤ (s.db i).left s.cfg.nLimit) :
    ∃ u, exec (sampleOf i l) s = .next u ∧ DebounceWrites s u ∧ (u.db i).confirmed = (s.db i).confirmed ∧
      (u.db i).armed = true ∧ (u.db i).left u.cfg.nLimit = (s.db i).left s.cfg.nLimit - 1 := by
  have hpos : 0 < (s.db i).left s.cfg.nLimit := by omega
  have hmore : (s.db i).left s.cfg.nLimit ≠ 1 := by omega
  have hcount := debounceNext_count h (by rwa [debounceArm_eq])
  rw [debounceArm_eq, counterPred_of_pos hpos] at hcount
  refine ⟨_, exec_sampleOf_of_pending hcount, setDb_begin_writes .., by rw [State.db_setDb], by rw [State.db_setDb], ?_⟩
  rw [State.db_setDb, Debounce.left_of_armed rfl]

/-- The last differing sample needed confirms the level and enqueues its edge. -/
theorem sample_confirm {i : Switch} {l : Level} {s : State} (h : l ≠ (s.db i).confirmed)
    (hleft : (s.db i).left s.cfg.nLimit = 1) :
    ∃ u, exec (sampleOf i l) s = .next u ∧ DebounceWrites (s.enqueue (edgeOf i l)) u ∧ (u.db i).confirmed = l ∧
      (u.db i).armed = false := by
  have hconfirm := debounceNext_confirm h (by rw [debounceArm_eq, hleft])
  exact ⟨_, exec_sampleOf_of_confirmed hconfirm, (setDb_begin_writes ..).enqueue _, by rw [db_enqueue, State.db_setDb],
    by rw [db_enqueue, State.db_setDb]⟩

/-! ## Runs of samples of one switch (R123, R124) -/

theorem execAll_cons {i : Instr} {s u : State} (h : exec i s = .next u) (is : List Instr) :
    execAll (i :: is) s = execAll is u := by rw [execAll, h]

/-- A line held at the confirmed level confirms nothing more. -/
theorem run_same {i : Switch} {l : Level} (k : Nat) {s : State} (h : (s.db i).confirmed = l)
    (hidle : (s.db i).armed = false) :
    ∃ t, execAll (List.replicate k (sampleOf i l)) s = .next t ∧ DebounceWrites s t ∧ (t.db i).confirmed = l ∧
      (t.db i).armed = false := by
  induction k generalizing s with
  | zero => exact ⟨s, rfl, .refl s, h, hidle⟩
  | succ k ih =>
    obtain ⟨u, hu, hw, hconf, harmed⟩ := sample_same h.symm
    obtain ⟨t, ht, hwt, hend⟩ := ih hconf harmed
    exact ⟨t, (execAll_cons hu _).trans ht, hw.trans hwt, hend⟩

/-- Fewer differing samples than are needed only count. -/
theorem run_count {i : Switch} {l : Level} (k : Nat) {s : State} (h : l ≠ (s.db i).confirmed)
    (hk : k < (s.db i).left s.cfg.nLimit) :
    ∃ t, execAll (List.replicate k (sampleOf i l)) s = .next t ∧ DebounceWrites s t ∧
      (t.db i).confirmed = (s.db i).confirmed ∧ (t.db i).left t.cfg.nLimit = (s.db i).left s.cfg.nLimit - k ∧
      ((s.db i).armed = true ∨ 0 < k → (t.db i).armed = true) := by
  induction k generalizing s with
  | zero => exact ⟨s, rfl, .refl s, rfl, rfl, fun harmed => harmed.resolve_right (Nat.lt_irrefl 0)⟩
  | succ k ih =>
    obtain ⟨u, hu, hw, hconf, harmed, hleft⟩ := sample_count h (by omega)
    obtain ⟨t, ht, hwt, hconft, hleftt, harmedt⟩ := ih (hconf ▸ h) (by omega)
    exact ⟨t, (execAll_cons hu _).trans ht, hw.trans hwt, hconft.trans hconf, by omega, fun _ => harmedt (.inl harmed)⟩

/-- As many differing samples as are needed, or more, confirm the level with one enqueue of its edge. -/
theorem run_confirm {i : Switch} {l : Level} (k : Nat) {s : State} (h : l ≠ (s.db i).confirmed)
    (hpos : 1 ≤ (s.db i).left s.cfg.nLimit) (hk : (s.db i).left s.cfg.nLimit ≤ k) :
    ∃ t, execAll (List.replicate k (sampleOf i l)) s = .next t ∧ DebounceWrites (s.enqueue (edgeOf i l)) t ∧
      (t.db i).confirmed = l ∧ (t.db i).armed = false := by
  induction k generalizing s with
  | zero => omega
  | succ k ih =>
    by_cases hlast : (s.db i).left s.cfg.nLimit = 1
    · obtain ⟨u, hu, hw, hconf, harmed⟩ := sample_confirm h hlast
      obtain ⟨t, ht, hwt, hend⟩ := run_same k hconf harmed
      exact ⟨t, (execAll_cons hu _).trans ht, hw.trans hwt, hend⟩
    · obtain ⟨u, hu, hw, hconf, -, hleft⟩ := sample_count h (by omega)
      obtain ⟨t, ht, hwt, hend⟩ := ih (hconf ▸ h) (by omega) (by omega)
      exact ⟨t, (execAll_cons hu _).trans ht, (hw.enqueue _).trans hwt, hend⟩

/-- Samples that neither complete the open window nor hold a whole one confirm nothing. -/
theorem run_bouncing {i : Switch} (ls : List Level) {s : State} (hn : 1 ≤ s.cfg.nLimit)
    (hpos : 1 ≤ (s.db i).left s.cfg.nLimit)
    (hopen : ¬ List.replicate ((s.db i).left s.cfg.nLimit) (!(s.db i).confirmed) <+: ls)
    (hwhole : ¬ List.replicate s.cfg.nLimit (!(s.db i).confirmed) <:+: ls) :
    ∃ t, execAll (ls.map (sampleOf i)) s = .next t ∧ DebounceWrites s t ∧ (t.db i).confirmed = (s.db i).confirmed := by
  induction ls generalizing s with
  | nil => exact ⟨s, rfl, .refl s, rfl⟩
  | cons l ls ih =>
    have htail : ¬ List.replicate s.cfg.nLimit (!(s.db i).confirmed) <:+: ls := mt List.infix_cons hwhole
    by_cases hsame : l = (s.db i).confirmed
    · obtain ⟨u, hu, hw, hconf, harmed⟩ := sample_same hsame
      have hleft : (u.db i).left u.cfg.nLimit = s.cfg.nLimit := (Debounce.left_of_idle harmed).trans (by rw [hw.cfg_eq])
      have hconf := hconf.trans hsame
      obtain ⟨t, ht, hwt, hend⟩ := ih (s := u) (by rwa [hw.cfg_eq]) (by rwa [hleft])
        (by rw [hleft, hconf]; exact fun hpre => htail hpre.isInfix) (by rwa [hconf, hw.cfg_eq])
      exact ⟨t, (execAll_cons hu _).trans ht, hw.trans hwt, hend.trans hconf⟩
    · obtain ⟨k, hk⟩ : ∃ k, (s.db i).left s.cfg.nLimit = k + 1 := ⟨_, (Nat.sub_add_cancel hpos).symm⟩
      have hrest : ¬ List.replicate k (!(s.db i).confirmed) <+: ls := by
        rw [hk, List.replicate_succ, List.cons_prefix_cons] at hopen
        exact fun hpre => hopen ⟨(Bool.eq_not_of_ne hsame).symm, hpre⟩
      have hk0 : k ≠ 0 := by
        rintro rfl
        exact hrest List.nil_prefix
      obtain ⟨u, hu, hw, hconf, -, hleft⟩ := sample_count hsame (by omega)
      rw [hk, Nat.add_sub_cancel] at hleft
      obtain ⟨t, ht, hwt, hend⟩ := ih (s := u) (by rwa [hw.cfg_eq]) (by omega) (by rwa [hleft, hconf])
        (by rwa [hconf, hw.cfg_eq])
      exact ⟨t, (execAll_cons hu _).trans ht, hw.trans hwt, hend.trans hconf⟩

/-- Settles O18: an idle process waits for `N_LIMIT` samples, so a run is too short or long enough. -/
theorem heldLevelIsConfirmedOnce : Obligations.HeldLevelIsConfirmedOnce := by
  intro i s l n hidle hl hn hroom
  have hleft : (s.db i).left s.cfg.nLimit = s.cfg.nLimit := Debounce.left_of_idle hidle
  by_cases hlong : s.cfg.nLimit ≤ n
  · obtain ⟨t, ht, hw, hconf, harmed⟩ := run_confirm n hl (by omega) (by omega)
    rw [enqueue_of_room ((qFull_eq_false_iff s).mpr hroom.ne)] at hw
    exact ⟨t, ht, fun hshort => absurd hlong (Nat.not_le.mpr hshort), fun _ => ⟨hconf, harmed, hw.q_eq⟩⟩
  · obtain ⟨t, ht, hw, hconf, hcount, harmed⟩ := run_count n hl (by omega)
    have hcountdown (h0 : 0 < n) : (t.db i).countdown = s.cfg.nLimit - n := by
      rw [← Debounce.left_of_armed (harmed (.inr h0)), hcount, hleft]
    exact ⟨t, ht, fun _ => ⟨hconf, hw.q_eq, hcountdown⟩, fun hlong' => absurd hlong' hlong⟩

/-- Settles O19: an idle process waits for `N_LIMIT` samples, which the line nowhere shows in a row. -/
theorem bouncingLineConfirmsNothing : Obligations.BouncingLineConfirmsNothing := by
  intro i s ls hidle hn hbounce
  have hleft : (s.db i).left s.cfg.nLimit = s.cfg.nLimit := Debounce.left_of_idle hidle
  obtain ⟨t, ht, hw, hconf⟩ := run_bouncing ls hn (by rwa [hleft])
    (by rw [hleft]; exact fun hpre => hbounce hpre.isInfix) hbounce
  exact ⟨t, ht, hconf, hw.q_eq, hw.dropCount_eq⟩

/-- Settles O20: the run confirms the level, and its one enqueue meets a full queue. -/
theorem droppedLimitEventIsNotRetried : Obligations.DroppedLimitEventIsNotRetried := by
  intro i s l n hl hlast hfull
  have hleft : (s.db i).left s.cfg.nLimit = 1 := hlast
  obtain ⟨t, ht, hw, hconf, harmed⟩ := run_confirm (n + 1) hl (by omega) (by omega)
  rw [enqueue_of_full ((qFull_eq_true_iff s).mpr hfull)] at hw
  have hdrops : t.dropCount.toNat = min (s.dropCount.toNat + 1) 65535 := by
    rw [hw.dropCount_eq, State.raise_queueFull_dropCount, saturatingSucc_toNat]
  exact ⟨t, ht, hconf, harmed, hw.q_eq, hdrops, hw.doorState_eq, hw.dutyOpen_eq, hw.dutyClose_eq⟩

end Sys2Proof.Machine
end

