-- ==== Sys2Proof/Proofs/KeypadScanner.lean ====
section
/-! PROOFS, 43_keypad_scanner.md: resolution, the four rules of the sequencer, and runs of ticks with quiet limit
switches. -/

namespace Sys2Proof.Machine

open Sys2Proof.Spec

/-! ## Resolution (R136, R137) -/

/-- A sample of four high lines is 0b1111 (R131). -/
theorem eq_allHigh {v : Lines} (h0 : v.getLsbD 0 = true) (h1 : v.getLsbD 1 = true) (h2 : v.getLsbD 2 = true)
    (h3 : v.getLsbD 3 = true) : v = 0b1111#4 := by
  apply BitVec.eq_of_getLsbD_eq
  intro i hi
  interval_cases i <;> simp [*]

/-- Settles O21: the branches of `LOWIDX`, of which the last is taken where all four lines are high. -/
theorem lowestLineWins : Obligations.LowestLineWins := by
  refine fun v => ⟨by rintro rfl; rfl, fun hv => ?_⟩
  unfold lowIdx
  split_ifs with h0 h1 h2 h3
  · exact ⟨h0, nofun⟩
  · refine ⟨h1, fun j (hj : j < 1) => ?_⟩
    interval_cases j
    simpa using h0
  · refine ⟨h2, fun j (hj : j < 2) => ?_⟩
    interval_cases j
    · simpa using h0
    · simpa using h1
  · refine ⟨h3, fun j (hj : j < 3) => ?_⟩
    interval_cases j
    · simpa using h0
    · simpa using h1
    · simpa using h2
  · simp only [Bool.not_eq_false] at h0 h1 h2 h3
    exact absurd (eq_allHigh h0 h1 h2 h3) hv

/-- The four bits of a key index hold the sum of R136. -/
theorem keyIndex_toNat (column row : BitVec 2) : (keyIndex column row).toNat = column.toNat + 4 * row.toNat := by
  have hc := column.isLt
  have hr := row.isLt
  simp only [keyIndex, BitVec.toNat_add, BitVec.toNat_mul, BitVec.toNat_setWidth, BitVec.toNat_ofNat]
  omega

theorem kpResolve_eq_getElem? (m : Vector Byte 16) (column row : BitVec 2) :
    some (kpResolve m column row) = m[column.toNat + 4 * row.toNat]? := by
  rw [← keyIndex_toNat, Vector.getElem?_eq_getElem (keyIndex column row).isLt]
  rfl

/-- Settles O22: the index is the sum of R136, and R136's table is the layout of R5 read at the sixteen sums. -/
theorem keyMapOfRowsAndColumns : Obligations.KeyMapOfRowsAndColumns :=
  ⟨kpResolve_eq_getElem?, by decide⟩

theorem lowIdx_lineLow : ∀ k : BitVec 2, lowIdx (lineLow k) = k := by decide

theorem lineLow_ne_allHigh : ∀ k : BitVec 2, lineLow k ≠ 0b1111#4 := by decide

/-! ## The four rules in the statements' own words (R132 to R135) -/

theorem kpIdleRule_eq_keypadTicked (sense scan : Lines) (s : State) :
    kpIdleRule sense s = keypadTicked .idle sense scan s := by
  change _ = if sense = 0b1111#4 then _ else _
  by_cases h : sense = 0b1111#4
  · rw [if_pos h, kpIdleRule, kpPresent_eq_false.mpr h]
    rfl
  · rw [if_neg h, kpIdleRule, if_pos (kpPresent_eq_true.mpr h)]
    rfl

theorem kpWaitRule_eq_keypadTicked (sense scan : Lines) (s : State) :
    kpWaitRule sense s = keypadTicked .wait sense scan s := by
  change _ = if s.kpCount = 1 then { s with kpCount := 0, kpState := if sense = 0b1111#4 then .idle else .scan } else _
  rcases kpWaitRule_cases sense s with ⟨hcount, h⟩ | ⟨hcount, hsense, h⟩ | ⟨hcount, hsense, h⟩
  · rw [h, if_neg hcount]
    rfl
  · rw [h, if_pos hcount, if_neg (kpPresent_eq_true.mp hsense)]
    rfl
  · rw [h, if_pos hcount, if_pos (kpPresent_eq_false.mp hsense)]
    rfl

/-- The cause of an unresolved scan is the only thing recorded (R232). -/
theorem raiseUnresolved_eq (sense scan : Lines) (s : State) :
    raiseUnresolved sense scan s =
      { s with out := { s.out with causes :=
          s.out.causes ++ if sense = 0b1111#4 ∨ scan = 0b1111#4 then [.scanUnresolved sense scan] else [] } } := by
  by_cases h : sense = 0b1111#4 ∨ scan = 0b1111#4
  · rw [raiseUnresolved, if_pos h, if_pos h]
    rfl
  · rw [raiseUnresolved, if_neg h, if_neg h, List.append_nil]

/-- Whether an event is lost does not depend on the sequencer. -/
theorem setKpState_enqueue (e : Ev) (k : KpState) (s : State) :
    (s.enqueue e).setKpState k = (s.setKpState k).enqueue e := by
  rcases enqueue_cases e s with ⟨hfull, h⟩ | ⟨hroom, h⟩
  · rw [h, enqueue_of_full (s := s.setKpState k) hfull]
    rfl
  · rw [h, enqueue_of_room (s := s.setKpState k) hroom]
    rfl

theorem kpScanRule_eq_keypadTicked (sense scan : Lines) (s : State) :
    kpScanRule sense scan s = keypadTicked .scan sense scan s := by
  rw [kpScanRule_eq, setKpState_enqueue, enqueue_eq_enqueued, raiseUnresolved_eq]
  rfl

theorem kpReleaseRule_eq_keypadTicked (sense scan : Lines) (s : State) :
    kpReleaseRule sense s = keypadTicked .release sense scan s := by
  change _ = if sense = 0b1111#4 then _ else _
  by_cases h : sense = 0b1111#4
  · rw [if_pos h, kpReleaseRule, kpPresent_eq_false.mpr h]
    rfl
  · rw [if_neg h, kpReleaseRule, if_pos (kpPresent_eq_true.mpr h)]

/-- The rule of each state does with the samples what the statements' own words say. -/
theorem kpRule_eq_keypadTicked (k : KpState) (sense scan : Lines) (s : State) :
    kpRule k sense scan s = keypadTicked k sense scan s := by
  cases k with
  | idle => exact kpIdleRule_eq_keypadTicked sense scan s
  | wait => exact kpWaitRule_eq_keypadTicked sense scan s
  | scan => exact kpScanRule_eq_keypadTicked sense scan s
  | release => exact kpReleaseRule_eq_keypadTicked sense scan s

/-- A rule by itself, in the statements' own words (log 17). -/
theorem kpRuleWhen_begin (k : KpState) (s : State) :
    kpRuleWhen k s.begin =
      if s.kpState = k then keypadTicked k s.input.sense s.input.scan s.begin.takeInput else s.begin.takeInput := by
  rw [← kpRule_eq_keypadTicked]
  rfl

/-- Settles O24: each code runs its rule where it applies. -/
theorem keypadCodesRunTheirRules : Obligations.KeypadCodesRunTheirRules := fun s =>
  have runs (k : KpState) := congrArg Host.Outcome.next (kpRuleWhen_begin k s)
  ⟨runs .idle, runs .wait, runs .scan, runs .release⟩

/-! ## A tick with quiet limit switches -/

/-- Both limit switches time nothing, with the levels that they report. -/
structure LimitsQuiet (cl ol : Level) (s : State) : Prop where
  closedLimit : s.dbCl = { pending := cl, confirmed := cl, countdown := 0, armed := false }
  openLimit : s.dbOl = { pending := ol, confirmed := ol, countdown := 0, armed := false }

/-- A process in order that is not armed holds its level and nothing else (R24). -/
theorem Debounce.eq_of_idle {n : Nat} {d : Debounce} (h : DebounceOk n d) (hidle : d.armed = false) :
    d = { pending := d.confirmed, confirmed := d.confirmed, countdown := 0, armed := false } := by
  obtain ⟨hcount, hpending⟩ := h.1 hidle
  rw [← hcount, ← hidle]
  nth_rw 1 [← hpending]

/-- Quiet is said of the debounce processes only. -/
theorem LimitsQuiet.of_eq {cl ol : Level} {s t : State} (h : LimitsQuiet cl ol s) (hcl : t.dbCl = s.dbCl)
    (hol : t.dbOl = s.dbOl) : LimitsQuiet cl ol t :=
  ⟨hcl.trans h.closedLimit, hol.trans h.openLimit⟩

theorem limitsQuiet_of_idle {s : State} (hcl : DebounceOk s.cfg.nLimit s.dbCl) (hol : DebounceOk s.cfg.nLimit s.dbOl)
    (hidleCl : s.dbCl.armed = false) (hidleOl : s.dbOl.armed = false) :
    LimitsQuiet s.dbCl.confirmed s.dbOl.confirmed s :=
  ⟨Debounce.eq_of_idle hcl hidleCl, Debounce.eq_of_idle hol hidleOl⟩

/-- A sample at the level that a quiet process reports changes nothing (R121). -/
theorem dbSample_quiet {i : Switch} {l : Level} {s : State}
    (h : s.db i = { pending := l, confirmed := l, countdown := 0, armed := false }) : dbSample i l s = s := by
  have hnext : debounceNext s.cfg.nLimit l (s.db i) = (s.db i, false) := by
    rw [debounceNext_same (by rw [h]), h]
  rw [dbSample, hnext]
  cases i <;> rfl

/-- With quiet limit switches a tick is its keypad rule (R211). -/
theorem exec_tick_quiet {cl ol : Level} {s : State} (h : LimitsQuiet cl ol s) (sense scan : Lines) :
    exec (.tick cl ol sense scan) s = .next (keypadTicked s.kpState sense scan (quiet s)) := by
  change Host.Outcome.next (tick cl ol sense scan s.begin) = _
  rw [tick, dbSample_quiet (i := .cl) (s := s.begin) h.closedLimit, dbSample_quiet (i := .ol) (s := s.begin) h.openLimit,
    kpRule_eq_keypadTicked]
  rfl

/-! ## Each rule in a tick with quiet limit switches -/

/-- The state in which the wait ends, by the last sample (R133). -/
def State.afterWait (last : Lines) (s : State) : State :=
  { s with kpState := if last = 0b1111#4 then .idle else .scan, kpCount := 0, out := {} }

theorem State.afterWait_of_present {last : Lines} (h : last ≠ 0b1111#4) (s : State) :
    s.afterWait last = { s with kpState := .scan, kpCount := 0, out := {} } := by
  rw [State.afterWait, if_neg h]

/-- The state after a scan that finds a key, with room for its event (R134). -/
def State.afterScan (column row : BitVec 2) (s : State) : State :=
  { s with
    q := s.q ++ [0x5#4 ++ kpResolve s.cfg.keymap column row], kpRole := .normal, kpState := .release, out := {} }

section
variable {cl ol : Level} {s : State} {sense scan : Lines}

/-- A key comes down (R132). -/
theorem exec_tick_pressed (h : LimitsQuiet cl ol s) (hk : s.kpState = .idle) (hsense : sense ≠ 0b1111#4) :
    exec (.tick cl ol sense scan) s = .next { s with kpState := .wait, kpCount := s.cfg.nKp, out := {} } := by
  rw [exec_tick_quiet h, hk]
  exact congrArg Host.Outcome.next (if_neg hsense)

/-- The wait goes on (R133). -/
theorem exec_tick_waits {n : Nat} (h : LimitsQuiet cl ol s) (hk : s.kpState = .wait) (hn : s.kpCount = n + 2) :
    exec (.tick cl ol sense scan) s = .next { s with kpCount := n + 1, out := {} } := by
  rw [exec_tick_quiet h, hk]
  simp [keypadTicked, hk, hn]

/-- The wait ends, and the lines are looked at again (R133). -/
theorem exec_tick_waited (h : LimitsQuiet cl ol s) (hk : s.kpState = .wait) (hn : s.kpCount = 1) :
    exec (.tick cl ol sense scan) s = .next (s.afterWait sense) := by
  rw [exec_tick_quiet h, hk]
  exact congrArg Host.Outcome.next (if_pos hn)

/-- The scan finds a key, and the queue has room for its event (R134). -/
theorem exec_tick_scanned (h : LimitsQuiet cl ol s) (hk : s.kpState = .scan) (hroom : s.q.length < s.cfg.qCap)
    (hsense : sense ≠ 0b1111#4) (hscan : scan ≠ 0b1111#4) :
    exec (.tick cl ol sense scan) s = .next (s.afterScan (lowIdx sense) (lowIdx scan)) := by
  rw [exec_tick_quiet h, hk]
  simp [keypadTicked, enqueued, State.afterScan, hroom.ne, hsense, hscan]

/-- The key is held (R135). -/
theorem exec_tick_held (h : LimitsQuiet cl ol s) (hk : s.kpState = .release) (hsense : sense ≠ 0b1111#4) :
    exec (.tick cl ol sense scan) s = .next (quiet s) := by
  rw [exec_tick_quiet h, hk]
  exact congrArg Host.Outcome.next (if_neg hsense)

/-- The key is let go (R135). -/
theorem exec_tick_released (h : LimitsQuiet cl ol s) (hk : s.kpState = .release) :
    exec (.tick cl ol 0b1111#4 scan) s = .next { s with kpState := .idle, out := {} } := by
  rw [exec_tick_quiet h, hk]
  rfl

end

/-! ## Runs of ticks (R138, R139) -/

theorem execAll_append {is : List Instr} {s u : State} (h : execAll is s = .next u) (js : List Instr) :
    execAll (is ++ js) s = execAll js u := by
  induction is generalizing s with
  | nil => cases h; rfl
  | cons i is ih =>
    cases hi : exec i s with
    | next v =>
      rw [execAll_cons hi] at h
      rw [List.cons_append, execAll_cons hi, ih h]
    | fault r => simp [execAll, hi] at h
    | refused r => simp [execAll, hi] at h

theorem execAll_singleton {i : Instr} {s u : State} (h : exec i s = .next u) : execAll [i] s = .next u :=
  execAll_cons h []

/-- One tick for each sample of the sense lines, with the limit pins at `cl`, `ol`. -/
def looks (cl ol : Level) (senses : List Lines) : List Instr := senses.map fun sense => .tick cl ol sense 0b1111

theorem ticks_eq_looks (n : Nat) (cl ol : Level) (sense : Lines) :
    ticks n cl ol sense = looks cl ol (List.replicate n sense) := by
  rw [looks, List.map_replicate, ticks]

/-- The wait looks at its last sample only (R133). -/
theorem run_wait {cl ol : Level} (mid : List Lines) (last : Lines) {s : State} (h : LimitsQuiet cl ol s)
    (hk : s.kpState = .wait) (hn : s.kpCount = mid.length + 1) :
    execAll (looks cl ol (mid ++ [last])) s = .next (s.afterWait last) := by
  induction mid generalizing s with
  | nil => exact execAll_singleton (exec_tick_waited h hk hn)
  | cons sense mid ih => exact (execAll_cons (exec_tick_waits h hk hn) _).trans (ih (h.of_eq rfl rfl) hk rfl)

/-- A press and the `N_KP` ticks after it, of which the last decides (R132, R133). -/
theorem run_press {cl ol : Level} {first : Lines} (mid : List Lines) (last : Lines) {s : State} (h : LimitsQuiet cl ol s)
    (hk : s.kpState = .idle) (hfirst : first ≠ 0b1111#4) (hn : s.cfg.nKp = mid.length + 1) :
    execAll (looks cl ol (first :: (mid ++ [last]))) s = .next (s.afterWait last) :=
  (execAll_cons (exec_tick_pressed h hk hfirst) _).trans (run_wait mid last (h.of_eq rfl rfl) rfl hn)

/-- A held key does nothing more, however long it is held (R135). -/
theorem run_held {cl ol : Level} {sense : Lines} (n : Nat) {s : State} (h : LimitsQuiet cl ol s)
    (hk : s.kpState = .release) (hout : s.out = {}) (hsense : sense ≠ 0b1111#4) :
    execAll (ticks n cl ol sense) s = .next s := by
  have hquiet : quiet s = s := by rw [quiet, ← hout]
  have hheld := exec_tick_held (scan := 0b1111) h hk hsense
  rw [hquiet] at hheld
  induction n with
  | zero => rfl
  | succ n ih => exact (execAll_cons hheld _).trans ih

/-- The tick after the wait resolves the one key that is down (R134, R138). -/
theorem exec_tick_scans_afterWait {cl ol : Level} {s : State} (h : LimitsQuiet cl ol s) (hroom : s.q.length < s.cfg.qCap)
    (c r : BitVec 2) :
    exec (.tick cl ol (lineLow c) (lineLow r)) (s.afterWait (lineLow c)) =
      .next ((s.afterWait (lineLow c)).afterScan c r) := by
  have hscan : (s.afterWait (lineLow c)).kpState = .scan := by rw [State.afterWait_of_present (lineLow_ne_allHigh c)]
  have htick := exec_tick_scanned (h.of_eq (t := s.afterWait (lineLow c)) rfl rfl) hscan hroom (lineLow_ne_allHigh c)
    (lineLow_ne_allHigh r)
  rwa [lowIdx_lineLow, lowIdx_lineLow] at htick

/-- Settles O25: the press and its wait, the scan, the hold, the release. -/
theorem onePressGivesOneEvent : Obligations.OnePressGivesOneEvent := by
  intro s r c n hk hn hcl hol hidleCl hidleOl hroom cl ol
  have hquiet : LimitsQuiet cl ol s := limitsQuiet_of_idle hcl hol hidleCl hidleOl
  have hpress : execAll (ticks 5 cl ol (lineLow c)) s = .next (s.afterWait (lineLow c)) := by
    rw [ticks_eq_looks]
    exact run_press (List.replicate 3 (lineLow c)) (lineLow c) hquiet hk (lineLow_ne_allHigh c) hn
  have hscan := execAll_singleton (exec_tick_scans_afterWait hquiet hroom c r)
  have hquiet' : LimitsQuiet cl ol ((s.afterWait (lineLow c)).afterScan c r) := hquiet.of_eq rfl rfl
  have hheld := run_held n hquiet' rfl rfl (lineLow_ne_allHigh c)
  have hrelease := execAll_singleton (exec_tick_released (scan := 0b1111) hquiet' rfl)
  refine ⟨⟨_, hpress, rfl, ?_⟩, _, ?_, rfl⟩
  · rw [State.afterWait_of_present (lineLow_ne_allHigh c)]
  · rw [List.append_assoc, List.append_assoc, execAll_append hpress, execAll_append hscan, execAll_append hheld]
    exact hrelease

/-- Settles O26: the wait is decided by its last sample, which shows no key. -/
theorem keyGoneWhenTheWaitEndsGivesNothing : Obligations.KeyGoneWhenTheWaitEndsGivesNothing := by
  intro s a b c d hk hn hcl hol hidleCl hidleOl ha cl ol
  have hquiet : LimitsQuiet cl ol s := limitsQuiet_of_idle hcl hol hidleCl hidleOl
  exact ⟨_, run_press [b, c, d] 0b1111#4 hquiet hk ha hn, rfl, rfl, rfl, rfl⟩

end Sys2Proof.Machine
end

