-- ==== Sys2Proof/Proofs/Motor.lean ====
section
/-! PROOFS, 44_motor_controller.md: the four motor commands, and at most one channel on after any commands and after any of a
command's writes. -/

namespace Sys2Proof.Machine

open Sys2Proof.Spec

/-! ## The rows of format `MCMD` -/

theorem exec_mStop (s : State) : exec .mStop s = .next (motorStop s.begin) := by rfl

theorem exec_mStartOpen (s : State) : exec .mStartOpen s = .next (motorStartOpen s.begin) := by rfl

theorem exec_mStartClose (s : State) : exec .mStartClose s = .next (motorStartClose s.begin) := by rfl

theorem exec_mcmdReserved (s : State) : exec .mcmdReserved s = .next (motorStop s.begin) := by rfl

/-- Settles O28: each row is its operation, and each operation is both duties at once. -/
theorem motorCommands : Obligations.MotorCommands := by
  intro s
  rw [exec_mStop, exec_mStartOpen, exec_mStartClose, exec_mcmdReserved, motorStop_eq, motorStartOpen_eq, motorStartClose_eq]
  exact ⟨rfl, rfl, rfl, rfl⟩

/-! ## At most one channel is on (R155) -/

theorem MotorPair.exclusive {s : State} (h : MotorPair s) : MotorExclusive s := by
  rcases h with ⟨hopen, _⟩ | ⟨_, hclose⟩ | ⟨hopen, _⟩
  · exact .inl hopen
  · exact .inr hclose
  · exact .inl hopen

/-- Whatever the duties were, a motor command completes in a pair that may be observed. -/
theorem exec_motor_pair {i : Instr} (hi : isMotor i) (s : State) : ∃ t, exec i s = .next t ∧ MotorPair t := by
  rcases hi with rfl | rfl | rfl | rfl
  · exact ⟨_, exec_mStop s, motorStop_pair _⟩
  · exact ⟨_, exec_mStartOpen s, motorStartOpen_pair _⟩
  · exact ⟨_, exec_mStartClose s, motorStartClose_pair _⟩
  · exact ⟨_, exec_mcmdReserved s, motorStop_pair _⟩

theorem execAll_motor_pair {is : List Instr} {s : State} (his : ∀ i ∈ is, isMotor i) (h : MotorPair s) :
    ∃ t, execAll is s = .next t ∧ MotorPair t := by
  induction is generalizing s with
  | nil => exact ⟨s, rfl, h⟩
  | cons i is ih =>
    obtain ⟨hi, hrest⟩ := List.forall_mem_cons.mp his
    obtain ⟨u, hu, hpair⟩ := exec_motor_pair hi s
    obtain ⟨t, ht, hend⟩ := ih hrest hpair
    exact ⟨t, (execAll_cons hu is).trans ht, hend⟩

/-! ## The instants between the writes of a command -/

/-- A channel that has just been switched off is the one that is off. -/
theorem writeDuty_off_exclusive (c : Channel) (s : State) : MotorExclusive (s.writeDuty ⟨c, 0#8⟩) := by
  cases c with
  | opening => exact .inl rfl
  | closing => exact .inr rfl

/-- Why the order of the writes matters: of two writes, the first of which switches a channel off, only the ends are left to
look at. -/
theorem writeDuties_take_exclusive {s : State} {c : Channel} {w : DutyWrite} (hstart : MotorExclusive s)
    (hend : MotorExclusive (s.writeDuties [⟨c, 0#8⟩, w])) :
    ∀ k, MotorExclusive (s.writeDuties ([⟨c, 0#8⟩, w].take k))
  | 0 => hstart
  | 1 => writeDuty_off_exclusive c s
  | k + 2 => by rwa [List.take_of_length_le (Nat.le_add_left 2 k)]

/-- Settles O29: commands one after another by induction, a command's writes by what its first one switches off. -/
theorem atMostOneMotorChannelIsOn : Obligations.AtMostOneMotorChannelIsOn := by
  refine ⟨fun is s his h => ?_, fun s => ?_⟩
  · obtain ⟨t, ht, hpair⟩ := execAll_motor_pair his h
    exact ⟨t, ht, hpair, hpair.exclusive⟩
  · have hstop (h : MotorPair s) := writeDuties_take_exclusive h.exclusive (motorStop_pair s).exclusive
    have hopen (h : MotorPair s) := writeDuties_take_exclusive h.exclusive (motorStartOpen_pair s).exclusive
    have hclose (h : MotorPair s) := writeDuties_take_exclusive h.exclusive (motorStartClose_pair s).exclusive
    exact ⟨⟨exec_mStop s, hstop⟩, ⟨exec_mcmdReserved s, hstop⟩, ⟨exec_mStartOpen s, hopen⟩, ⟨exec_mStartClose s, hclose⟩,
      rfl, rfl⟩

end Sys2Proof.Machine
end

