-- ==== Sys2Proof/Proofs/BusSlave.lean ====
section
/-! PROOFS, 45_bus_slave.md: the phases of a bus transaction, what a bus step may write, and a whole write transaction. -/

namespace Sys2Proof.Machine

open Sys2Proof.Spec

/-! ## The command/status byte (R85) -/

theorem commandBit_eq_decide (b : Byte) : commandBit b = decide (0x80 ≤ b.toNat) := by
  have hmsb : commandBit b = b.msb := (BitVec.msb_eq_getLsbD_last b).symm
  rw [hmsb, BitVec.msb_eq_decide]

theorem commandBit_append (top : BitVec 1) (x : BitVec 7) : commandBit (top ++ x) = top.getLsbD 0 := by
  rw [commandBit, BitVec.getLsbD_append]
  rfl

theorem statusByte_eq_ofNat (door : DoorCode) : statusByte door = BitVec.ofNat 8 door.toNat := by
  rw [BitVec.ofNat_toNat, BitVec.setWidth_eq_append (by decide)]
  rfl

/-- A command byte by its number, in the statements' own words (R163). -/
theorem csrWrite_eq_enqueued (b : Byte) (s : State) :
    s.csrWrite b = if 0x80 ≤ b.toNat then enqueued 0x600#12 s else s := by
  by_cases h : 0x80 ≤ b.toNat
  · rw [if_pos h, csrWrite_of_command (by simp [commandBit_eq_decide, h]), enqueue_eq_enqueued]
    rfl
  · rw [if_neg h, csrWrite_of_nop (by simp [commandBit_eq_decide, h])]

/-! ## The rows of the `BUS` agent (R162 to R167) -/

theorem exec_busAw (d : Byte) (s : State) : exec (.busAw d) s = .next (busAw s.begin) := by rfl

theorem exec_busRx (b : Byte) (s : State) : exec (.busRx b) s = .next (busRx b s.begin) := by rfl

theorem exec_busAr (d : Byte) (s : State) : exec (.busAr d) s = .next (busAr s.begin) := by rfl

theorem exec_busRdnext (d : Byte) (s : State) : exec (.busRdnext d) s = .next (busRdnext s.begin) := by rfl

theorem exec_busStop (d : Byte) (s : State) : exec (.busStop d) s = .next (busStop s.begin) := by rfl

theorem exec_busErr (d : Byte) (s : State) : exec (.busErr d) s = .next (busErr kindErr s.begin) := by rfl

theorem exec_busRsvd (k : BitVec 1) (d : Byte) (s : State) :
    exec (.busRsvd k d) s = .next (busErr (0b11#2 ++ k) s.begin) := by rfl

/-- The two reserved kinds (R91). -/
theorem reservedKind_eq : ∀ k : BitVec 1, 0b11#2 ++ k = if k = 0#1 then 6#3 else 7#3 := by decide

/-- Settles O30: each phase in one line, the reserved kinds as the error phase with their own number. -/
theorem busPhasesWithoutData : Obligations.BusPhasesWithoutData := by
  intro s d k
  rw [exec_busAw, exec_busRdnext, exec_busStop, exec_busErr, exec_busRsvd, busAw_eq, busStop_eq, busErr_eq, busErr_eq,
    reservedKind_eq]
  exact ⟨rfl, rfl, rfl, rfl, rfl⟩

/-- Settles O31: the phase tells the first byte from a command byte. -/
theorem busReceivedByte : Obligations.BusReceivedByte := by
  intro s b
  rw [exec_busRx, busRx, csrWrite_eq_enqueued]
  rfl

/-- Settles O33: the status byte is the door state, zero-extended. -/
theorem busReadAnswersTheStatus : Obligations.BusReadAnswersTheStatus := by
  intro s d
  rw [exec_busAr, busAr_eq, State.csrRead, statusByte_eq_ofNat]
  rfl

/-! ## The codes by themselves (R85, R91) -/

/-- The read view does what a bus read does (R164). -/
theorem exec_csrRdStatus (x : BitVec 7) (d : Byte) (s : State) : exec (.csrRdStatus x) s = exec (.busAr d) s := by rfl

theorem exec_csrWrActuate (x : BitVec 7) (s : State) : exec (.csrWrActuate x) s = .next (enqueued 0x600#12 (quiet s)) := by
  have hexec : exec (.csrWrActuate x) s = .next (s.begin.csrWrite (1#1 ++ x)) := by rfl
  rw [hexec, csrWrite_of_command (commandBit_append 1#1 x), enqueue_eq_enqueued]
  rfl

theorem exec_csrWrNop (x : BitVec 7) (s : State) : exec (.csrWrNop x) s = .next (quiet s) := by
  have hexec : exec (.csrWrNop x) s = .next (s.begin.csrWrite (0#1 ++ x)) := by rfl
  rw [hexec, csrWrite_of_nop (commandBit_append 0#1 x)]
  rfl

/-- Settles O32: a code runs the operation of the trace word of its kind; the three views are one access to the register. -/
theorem busCodesByThemselves : Obligations.BusCodesByThemselves := by
  intro s d k x
  have hread := (exec_csrRdStatus x d s).trans (busReadAnswersTheStatus s d)
  exact ⟨⟨rfl, rfl, rfl, rfl, rfl, rfl⟩, ⟨_, rfl⟩, ⟨_, rfl⟩, ⟨_, rfl⟩, ⟨_, rfl⟩, ⟨_, rfl⟩, ⟨_, rfl⟩, rfl, ⟨_, rfl⟩, hread,
    exec_csrWrActuate x s, exec_csrWrNop x s⟩

/-! ## What a bus step may do (R161) -/

theorem csrWrite_q_cases (b : Byte) (s : State) : (s.csrWrite b).q = s.q ∨ (s.csrWrite b).q = s.q ++ [0x600#12] := by
  cases hb : commandBit b with
  | false => exact .inl (by rw [csrWrite_of_nop hb])
  | true =>
    rw [csrWrite_of_command hb]
    rcases enqueue_cases (evOf tyActuateDoor) s with ⟨_, h⟩ | ⟨_, h⟩ <;> rw [h]
    · exact .inl rfl
    · exact .inr rfl

theorem busRx_q_cases (b : Byte) (s : State) : (busRx b s).q = s.q ∨ (busRx b s).q = s.q ++ [0x600#12] := by
  rcases busRx_cases b s with h | h <;> rw [h]
  · exact .inl rfl
  · exact csrWrite_q_cases b (s.setBusTx none)

/-- Only a received byte enqueues. -/
theorem exec_bus_q_cases {i : Instr} {s t : State} (hi : isBus i) (h : exec i s = .next t) :
    t.q = s.q ∨ t.q = s.q ++ [0x600#12] := by
  rcases hi with ⟨d, rfl | rfl | rfl | rfl | rfl | rfl⟩ | ⟨k, d, rfl⟩ <;> cases h
  · exact .inl rfl
  · exact busRx_q_cases d s.begin
  · exact .inl rfl
  · exact .inl rfl
  · exact .inl rfl
  · exact .inl rfl
  · exact .inl rfl

/-- Settles O35: the frame of a bus step, and its queue. -/
theorem busStepTouchesOnlyItsOwnState : Obligations.BusStepTouchesOnlyItsOwnState :=
  fun _ _ _ hi h => ⟨exec_bus_q_cases hi h, exec_bus_writes hi h⟩

/-! ## A write transaction (R169, R171) -/

/-- The events of a list of command bytes (R163). -/
def actuations (cmds : List Byte) : List Ev :=
  List.replicate (cmds.filter fun b => decide (0x80 ≤ b.toNat)).length 0x600#12

theorem actuations_cons_of_command {b : Byte} (h : 0x80 ≤ b.toNat) (cmds : List Byte) :
    actuations (b :: cmds) = 0x600#12 :: actuations cmds := by
  simp [actuations, h, List.replicate_succ]

theorem actuations_cons_of_nop {b : Byte} (h : ¬ 0x80 ≤ b.toNat) (cmds : List Byte) :
    actuations (b :: cmds) = actuations cmds := by
  simp [actuations, h]

theorem exec_busRx_of_first {b : Byte} {s : State} (h : s.busPhase = 0#1) :
    exec (.busRx b) s = .next { s with busPhase := 1#1, out := {} } := by
  rw [busReceivedByte, if_pos h]

theorem exec_busRx_of_command {b : Byte} {s : State} (hphase : s.busPhase = 1#1) (hb : 0x80 ≤ b.toNat)
    (hroom : s.q.length < s.cfg.qCap) :
    exec (.busRx b) s = .next { s with q := s.q ++ [0x600#12], out := {} } := by
  rw [busReceivedByte, if_neg (by simp [hphase]), if_pos hb, enqueued, if_neg hroom.ne]

theorem exec_busRx_of_nop {b : Byte} {s : State} (hphase : s.busPhase = 1#1) (hb : ¬ 0x80 ≤ b.toNat) :
    exec (.busRx b) s = .next (quiet s) := by
  rw [busReceivedByte, if_neg (by simp [hphase]), if_neg hb]

/-- Command bytes with room for their events append these and change no other register. -/
theorem run_commands (cmds : List Byte) {s : State} (hphase : s.busPhase = 1#1)
    (hroom : s.q.length + (actuations cmds).length ≤ s.cfg.qCap) :
    ∃ o, execAll (cmds.map .busRx) s = .next { s with q := s.q ++ actuations cmds, out := o } := by
  induction cmds generalizing s with
  | nil => exact ⟨s.out, by simp [actuations, execAll]⟩
  | cons b cmds ih =>
    by_cases hb : 0x80 ≤ b.toNat
    · rw [actuations_cons_of_command hb] at hroom ⊢
      rw [List.length_cons] at hroom
      have hstep := exec_busRx_of_command hphase hb (by omega)
      obtain ⟨o, ho⟩ := ih (s := { s with q := s.q ++ [0x600#12], out := {} }) hphase (by simp; omega)
      refine ⟨o, (execAll_cons hstep _).trans (ho.trans ?_)⟩
      rw [List.append_assoc, List.singleton_append]
    · rw [actuations_cons_of_nop hb] at hroom ⊢
      obtain ⟨o, ho⟩ := ih (s := quiet s) hphase hroom
      exact ⟨o, (execAll_cons (exec_busRx_of_nop hphase hb) _).trans ho⟩

/-- The whole end state of a write transaction with room for its events, from any phase. -/
theorem run_write (b : Byte) (cmds : List Byte) {s : State}
    (hroom : s.q.length + (actuations cmds).length ≤ s.cfg.qCap) :
    execAll ([.busAw 0, .busRx b] ++ cmds.map .busRx ++ [.busStop 0]) s =
      .next { s with q := s.q ++ actuations cmds, busPhase := 0#1, busTxDone := false, out := {} } := by
  have hopen : execAll [.busAw 0, .busRx b] s = .next { s with busPhase := 1#1, busTxDone := false, out := {} } :=
    (execAll_cons (exec_busAw 0 s) _).trans (execAll_singleton (exec_busRx_of_first rfl))
  obtain ⟨o, hcmds⟩ := run_commands cmds (s := { s with busPhase := 1#1, busTxDone := false, out := {} }) rfl hroom
  rw [List.append_assoc, execAll_append hopen, execAll_append hcmds]
  exact execAll_singleton (exec_busStop 0 _)

/-- Settles O34: the end state of the transaction, read off field by field. -/
theorem busCommandRoundTrip : Obligations.BusCommandRoundTrip := by
  intro s b cmds hroom
  have hroom' : s.q.length + (actuations cmds).length ≤ s.cfg.qCap := by rwa [actuations, List.length_replicate]
  exact ⟨_, run_write b cmds hroom', rfl, rfl, rfl, rfl, rfl⟩

end Sys2Proof.Machine
end

