-- ==== Sys2Proof/Proofs/DoorFsm.lean ====
section
/-! PROOFS, 46_door_fsm.md: the rule of each event type, the character of a key event, and that every step of the hardware
keeps door and motor in agreement. -/

namespace Sys2Proof.Machine

open Sys2Proof.Spec

/-! ## The rule of each event type (R181 to R190) -/

theorem exec_closedLimitPressed (d : Byte) (s : State) :
    exec (.closedLimitPressed d) s = .next (onClosedLimitPressed s.begin) := by rfl

theorem exec_openLimitPressed (d : Byte) (s : State) :
    exec (.openLimitPressed d) s = .next (onOpenLimitPressed s.begin) := by rfl

theorem exec_startDoor (d : Byte) (s : State) : exec (.startDoor d) s = .next (onStartDoor s.begin) := by rfl

theorem exec_stopDoor (d : Byte) (s : State) : exec (.stopDoor d) s = .next (onStopDoor s.begin) := by rfl

theorem exec_actuateDoor (d : Byte) (s : State) : exec (.actuateDoor d) s = .next (onActuateDoor s.begin) := by rfl

theorem onClosedLimitPressed_eq (s : State) : onClosedLimitPressed s = motorStop (s.setDoor dsClosed) := rfl

theorem onOpenLimitPressed_eq (s : State) : onOpenLimitPressed s = motorStop (s.setDoor dsOpen) := rfl

/-- A start from below `DS_OPEN`, by the number of the code (R9, R185). -/
theorem onStartDoor_of_lt {s : State} (h : s.doorState.toNat < 2) :
    onStartDoor s = motorStartOpen (s.setDoor dsOpening) := if_pos (BitVec.lt_def.mpr h)

theorem onStartDoor_of_not_lt {s : State} (h : ¬ s.doorState.toNat < 2) :
    onStartDoor s = motorStartClose (s.setDoor dsClosing) := if_neg (mt BitVec.lt_def.mp h)

theorem onStopDoor_of_opening {s : State} (h : s.doorState = 0x04#7) :
    onStopDoor s = motorStop (s.setDoor dsOpeningStopped) := if_pos h

theorem onStopDoor_of_closing {s : State} (h : s.doorState = 0x05#7) :
    onStopDoor s = motorStop (s.setDoor dsClosingStopped) := by
  have hopening : s.doorState ≠ 0x04#7 := by rw [h]; decide
  exact (if_neg hopening).trans (if_pos h)

theorem onStopDoor_of_standing {s : State} (hopening : s.doorState ≠ 0x04#7) (hclosing : s.doorState ≠ 0x05#7) :
    onStopDoor s = s := (if_neg hopening).trans (if_neg hclosing)

/-- The toggle decision in the statements' own words (R188). -/
theorem evOf_toggle (door : DoorCode) : evOf (toggle door) = toggled door := by
  rcases toggle_cases door with ⟨hmoving, h⟩ | ⟨hstanding, h⟩ <;> rw [h, toggled]
  · rw [if_pos hmoving]; rfl
  · rw [if_neg (by omega)]; rfl

/-- Settles O36: a limit press is the end position and the motor's stop, under no condition. -/
theorem limitPressWins : Obligations.LimitPressWins := by
  intro s d
  rw [exec_closedLimitPressed, exec_openLimitPressed, onClosedLimitPressed_eq, onOpenLimitPressed_eq, motorStop_eq,
    motorStop_eq]
  exact ⟨rfl, rfl⟩

/-- Settles O37: the rule of each of these types is the identity. -/
theorem informationalAndReservedEventsChangeNothing : Obligations.InformationalAndReservedEventsChangeNothing :=
  fun _ _ _ _ => ⟨rfl, rfl, rfl, rfl, rfl, rfl⟩

/-- Settles O38: by the side of `DS_OPEN` that the code is on. -/
theorem startDoorPicksTheDirection : Obligations.StartDoorPicksTheDirection := by
  intro s d
  rw [exec_startDoor]
  by_cases h : s.doorState.toNat < 2
  · rw [onStartDoor_of_lt (s := s.begin) h, motorStartOpen_eq, if_pos h]
    rfl
  · rw [onStartDoor_of_not_lt (s := s.begin) h, motorStartClose_eq, if_neg h]
    rfl

/-- Settles O39: by the two moving states and the others. -/
theorem stopDoorHaltsAMovingDoor : Obligations.StopDoorHaltsAMovingDoor := by
  intro s d
  rw [exec_stopDoor]
  by_cases hopening : s.doorState = 0x04#7
  · rw [onStopDoor_of_opening (s := s.begin) hopening, motorStop_eq, if_pos hopening]
    rfl
  by_cases hclosing : s.doorState = 0x05#7
  · rw [onStopDoor_of_closing (s := s.begin) hclosing, motorStop_eq, if_neg hopening, if_pos hclosing]
    rfl
  · rw [onStopDoor_of_standing (s := s.begin) hopening hclosing, if_neg hopening, if_neg hclosing]
    rfl

/-- Settles O40: what is pending is the toggle decision. -/
theorem actuateDecidesTheToggle : Obligations.ActuateDecidesTheToggle := by
  intro s d
  rw [exec_actuateDoor, onActuateDoor, evOf_toggle]
  rfl

/-! ## The character of a key event (R189, R200) -/

/-- The operation of a character, for a keypad whose terminator is `terminator` (R200). -/
def keyInstr (terminator ch : Byte) : Instr :=
  if 0x30 ≤ ch.toNat ∧ ch.toNat ≤ 0x37 then .keyDigit0to7 (BitVec.ofNat 3 (ch.toNat - 0x30))
  else if 0x38 ≤ ch.toNat ∧ ch.toNat ≤ 0x39 then .keyDigit8to9 (BitVec.ofNat 1 (ch.toNat - 0x38))
  else if ch = terminator then .keyTerminator
  else .keyOther ch

theorem exec_keypadNewKey (ch : Byte) (s : State) : exec (.keypadNewKey ch) s = .next (validate ch s.begin) := by rfl

theorem exec_keyDigit0to7 (low : BitVec 3) (s : State) :
    exec (.keyDigit0to7 low) s = .next (keyDigit (digitValue (0b00110#5 ++ low)) s.begin) := by rfl

theorem exec_keyDigit8to9 (low : BitVec 1) (s : State) :
    exec (.keyDigit8to9 low) s = .next (keyDigit (digitValue (0b0011100#7 ++ low)) s.begin) := by rfl

theorem isDigit_eq_true_iff (ch : Byte) : isDigit ch = true ↔ 0x30 ≤ ch.toNat ∧ ch.toNat ≤ 0x39 := by
  simp [isDigit, BitVec.le_def]

theorem validate_of_digit {ch : Byte} (h : 0x30 ≤ ch.toNat ∧ ch.toNat ≤ 0x39) (s : State) :
    validate ch s = keyDigit (digitValue ch) s := if_pos ((isDigit_eq_true_iff ch).mpr h)

theorem validate_of_not_digit {ch : Byte} (h : ¬ (0x30 ≤ ch.toNat ∧ ch.toNat ≤ 0x39)) (s : State) :
    validate ch s = if ch = s.cfg.terminator then keyTerminator s else keyOther s :=
  if_neg (mt (isDigit_eq_true_iff ch).mp h)

/-- A byte is the number of its high bits above the number of its low ones. -/
theorem append_ofNat_eq {m n : Nat} {hi : BitVec m} {v : BitVec (m + n)} {k : Nat} (hk : k < 2 ^ n)
    (h : v.toNat = hi.toNat * 2 ^ n + k) : hi ++ BitVec.ofNat n k = v := by
  apply BitVec.eq_of_toNat_eq
  rw [BitVec.toNat_append, BitVec.toNat_ofNat, Nat.mod_eq_of_lt hk, ← Nat.shiftLeft_add_eq_or_of_lt hk, Nat.shiftLeft_eq, h]

theorem digit0to7_byte {ch : Byte} (h : 0x30 ≤ ch.toNat ∧ ch.toNat ≤ 0x37) :
    0b00110#5 ++ BitVec.ofNat 3 (ch.toNat - 0x30) = ch :=
  append_ofNat_eq (m := 5) (n := 3) (by omega) (show ch.toNat = 0b00110 * 8 + _ by omega)

theorem digit8to9_byte {ch : Byte} (h : 0x38 ≤ ch.toNat ∧ ch.toNat ≤ 0x39) :
    0b0011100#7 ++ BitVec.ofNat 1 (ch.toNat - 0x38) = ch :=
  append_ofNat_eq (m := 7) (n := 1) (by omega) (show ch.toNat = 0b0011100 * 2 + _ by omega)

/-- A key event does what the operation of its character does (R189). -/
theorem exec_keypadNewKey_eq_keyInstr (ch : Byte) (s : State) :
    exec (.keypadNewKey ch) s = exec (keyInstr s.cfg.terminator ch) s := by
  rw [exec_keypadNewKey, keyInstr]
  split_ifs with h07 h89 hterm
  · rw [validate_of_digit (by omega), exec_keyDigit0to7, digit0to7_byte h07]
  · rw [validate_of_digit (by omega), exec_keyDigit8to9, digit8to9_byte h89]
  · rw [validate_of_not_digit (by omega), State.begin_cfg, if_pos hterm]
    rfl
  · rw [validate_of_not_digit (by omega), State.begin_cfg, if_neg hterm]
    rfl

/-- Format `CHAR` decodes a character to its operation for the terminator '#' (R88, R200). -/
theorem decode_char (ch : Byte) : decode .char (ch.setWidth 16) = some (keyInstr 0x23#8 ch) := by
  have h07 : ch.extractLsb' 3 5 = 0b00110#5 ↔ 0x30 ≤ ch.toNat ∧ ch.toNat ≤ 0x37 := by
    rw [extractLsb'_eq_iff]
    bv_omega
  have h89 : ch.extractLsb' 1 7 = 0b0011100#7 ↔ 0x38 ≤ ch.toNat ∧ ch.toNat ≤ 0x39 := by
    rw [extractLsb'_eq_iff]
    bv_omega
  have hword : decode .char (ch.setWidth 16) = decodeChar (plainWord .char ch).bits := rfl
  rw [hword, decodeChar, plainWord_top (len := 8) .char ch rfl, if_neg (by decide),
    plainWord_field (lo := 3) (len := 5) _ _ (by decide), plainWord_field (lo := 0) (len := 3) _ _ (by decide),
    plainWord_field (lo := 1) (len := 7) _ _ (by decide), plainWord_field (lo := 0) (len := 1) _ _ (by decide),
    plainWord_all _ _ (by decide), keyInstr]
  simp only [h07, h89]
  split_ifs with hlow hhigh hterm
  · have hdigit : ch.extractLsb' 0 3 = BitVec.ofNat 3 (ch.toNat - 0x30) := by
      rw [extractLsb'_eq_iff]
      bv_omega
    rw [hdigit]
  · have hdigit : ch.extractLsb' 0 1 = BitVec.ofNat 1 (ch.toNat - 0x38) := by
      rw [extractLsb'_eq_iff]
      bv_omega
    rw [hdigit]
  · rfl
  · rfl

/-- Settles O45: a key event is the operation of its character, which for the terminator '#' is what the character decodes
to. -/
theorem keyEventRunsTheRuleOfItsCharacter : Obligations.KeyEventRunsTheRuleOfItsCharacter := by
  intro s ch
  have hkey := exec_keypadNewKey_eq_keyInstr ch s
  refine ⟨?_, fun hterm i hi => ?_, ⟨_, decode_char ch⟩, ⟨_, exec_keypadNewKey ch s⟩⟩
  · simpa only [keyInstr, apply_ite (exec · s)] using hkey
  · rw [hterm] at hkey
    rw [decode_char] at hi
    cases hi
    exact hkey

/-! ## Door and motor in agreement (R195) -/

/-- A motor that stops agrees with a standing door. -/
theorem agree_motorStop {s : State} (hfull : s.cfg.dutyFull ≠ 0#8) {d : DoorCode} (hd : d ≤ 0x03#7) :
    DoorMotorAgree (motorStop (s.setDoor d)) :=
  have hopening : d ≠ 0x04#7 := by rintro rfl; exact absurd hd (by decide)
  have hclosing : d ≠ 0x05#7 := by rintro rfl; exact absurd hd (by decide)
  ⟨iff_of_false hopening fun ⟨hon, _⟩ => hfull hon.symm, iff_of_false hclosing fun ⟨_, hon⟩ => hfull hon.symm,
    fun _ => ⟨rfl, rfl⟩⟩

theorem agree_motorStartOpen {s : State} (hfull : s.cfg.dutyFull ≠ 0#8) :
    DoorMotorAgree (motorStartOpen (s.setDoor dsOpening)) :=
  have hclosing : dsOpening ≠ 0x05#7 := by decide
  have hmoving : ¬ dsOpening ≤ 0x03#7 := by decide
  ⟨iff_of_true rfl ⟨rfl, rfl⟩, iff_of_false hclosing fun ⟨hoff, _⟩ => hfull hoff, fun h => absurd h hmoving⟩

theorem agree_motorStartClose {s : State} (hfull : s.cfg.dutyFull ≠ 0#8) :
    DoorMotorAgree (motorStartClose (s.setDoor dsClosing)) :=
  have hopening : dsClosing ≠ 0x04#7 := by decide
  have hmoving : ¬ dsClosing ≤ 0x03#7 := by decide
  ⟨iff_of_false hopening fun ⟨_, hoff⟩ => hfull hoff, iff_of_true rfl ⟨rfl, rfl⟩, fun h => absurd h hmoving⟩

theorem agree_onStartDoor {s : State} (hfull : s.cfg.dutyFull ≠ 0#8) : DoorMotorAgree (onStartDoor s) := by
  by_cases h : s.doorState.toNat < 2
  · rw [onStartDoor_of_lt h]; exact agree_motorStartOpen hfull
  · rw [onStartDoor_of_not_lt h]; exact agree_motorStartClose hfull

theorem DoorMotorAgree.onStopDoor {s : State} (h : DoorMotorAgree s) (hfull : s.cfg.dutyFull ≠ 0#8) :
    DoorMotorAgree (onStopDoor s) := by
  by_cases hopening : s.doorState = 0x04#7
  · rw [onStopDoor_of_opening hopening]; exact agree_motorStop hfull (by decide)
  by_cases hclosing : s.doorState = 0x05#7
  · rw [onStopDoor_of_closing hclosing]; exact agree_motorStop hfull (by decide)
  · rwa [onStopDoor_of_standing hopening hclosing]

/-- What a tick or an enqueue may write is neither door nor motor. -/
theorem DoorMotorAgree.of_tick {s t : State} (h : DoorMotorAgree s) (hw : TickWrites s t) : DoorMotorAgree t := by
  rw [hw]; exact h

theorem DoorMotorAgree.enqueue {s : State} (h : DoorMotorAgree s) (e : Ev) : DoorMotorAgree (s.enqueue e) :=
  h.of_tick (enqueue_writes e s).tick

theorem DoorMotorAgree.keyDigit {s : State} (h : DoorMotorAgree s) (d : BitVec 16) : DoorMotorAgree (keyDigit d s) := by
  unfold Machine.keyDigit; split <;> exact h

/-- The validator asks for a toggle and moves nothing (R202). -/
theorem DoorMotorAgree.keyTerminator {s : State} (h : DoorMotorAgree s) : DoorMotorAgree (keyTerminator s) := by
  unfold Machine.keyTerminator; split <;> exact h

theorem DoorMotorAgree.validate {s : State} (h : DoorMotorAgree s) (ch : Byte) : DoorMotorAgree (validate ch s) := by
  unfold Machine.validate
  split
  · exact h.keyDigit _
  · split
    · exact h.keyTerminator
    · exact h

/-- The rule of every event type moves door and motor together, or neither (R181 to R190). -/
theorem DoorMotorAgree.dispatch {s : State} (h : DoorMotorAgree s) (hfull : s.cfg.dutyFull ≠ 0#8) (e : Ev) :
    DoorMotorAgree (dispatch e s) := by
  unfold Machine.dispatch
  split
  · exact agree_motorStop hfull (by decide)
  · exact h
  · exact agree_motorStop hfull (by decide)
  · exact h
  · exact h.validate _
  · exact h
  · exact agree_onStartDoor hfull
  · exact h.onStopDoor hfull
  · exact h

theorem DoorMotorAgree.mainDispatch {s : State} (h : DoorMotorAgree s) (hfull : s.cfg.dutyFull ≠ 0#8) :
    DoorMotorAgree (mainDispatch s) := by
  rcases mainDispatch_cases s with ⟨_, he⟩ | ⟨e, rest, _, he⟩ <;> rw [he]
  · exact h
  · exact DoorMotorAgree.dispatch (s := { s with q := rest }) h hfull e

theorem qDeq_agree {s : State} (h : DoorMotorAgree s) : DoorMotorAgree s.qDeq.2 := by
  rcases qDeq_cases s with ⟨_, he⟩ | ⟨_, _, _, he⟩ <;> rw [he] <;> exact h

/-- R195 is kept by whatever an operation did that is no motor command by itself. -/
theorem DoorMotorAgree.of_effect {i : Instr} {s t : State} (h : DoorMotorAgree s) (hfull : s.cfg.dutyFull ≠ 0#8)
    (hi : ¬ isMotor i) (he : Effect i s t) : DoorMotorAgree t := by
  cases he with
  | recorded => exact h
  | commanded b n o => exact DoorMotorAgree.of_tick (s := { s with inputIndex := n, out := o }) h (csrWrite_writes b _).tick
  | ticked cl ol sense scan => exact DoorMotorAgree.of_tick (s := s.begin) h (tick_writes cl ol sense scan _)
  | sampled sw l => exact DoorMotorAgree.of_tick (s := s.begin) h (dbSample_writes sw l _)
  | scanned sense scan n =>
    exact DoorMotorAgree.of_tick (s := { s with inputIndex := n, out := {} }) h (kpRule_writes _ sense scan _)
  | dispatched e => exact DoorMotorAgree.dispatch (s := s.begin) h hfull e
  | digit d => exact DoorMotorAgree.keyDigit (s := s.begin) h d
  | terminator => exact DoorMotorAgree.keyTerminator (s := s.begin) h
  | stopped hm => exact absurd (hm.imp_right fun hm => .inr (.inr hm)) hi
  | startedOpen => exact absurd (.inr (.inl rfl)) hi
  | startedClose => exact absurd (.inr (.inr (.inl rfl))) hi
  | enqueued e => exact DoorMotorAgree.enqueue (s := s.begin) h e
  | dequeued => exact qDeq_agree (s := s.begin) h
  | mainDispatched => exact DoorMotorAgree.mainDispatch (s := s.begin) h hfull
  | mainEmitted e => exact DoorMotorAgree.enqueue (s := s.begin) h e
  | reset => exact agree_motorStop (s := s.resetRegisters) (d := dsClosed) hfull (by decide)

/-! ## The events of the core's own producers (R84) -/

/-- The queue holds only events of the core's own producers. -/
def QueueProduced (s : State) : Prop := ∀ e ∈ s.q, EvProduced s.cfg.keymap e

/-- No event comes in, and the layout stays. -/
theorem QueueProduced.of_subset {s t : State} (h : QueueProduced s) (hq : t.q ⊆ s.q) (hcfg : t.cfg = s.cfg) :
    QueueProduced t := by
  intro e he
  rw [hcfg]
  exact h e (hq he)

theorem QueueProduced.of_eq {s t : State} (h : QueueProduced s) (hq : t.q = s.q) (hcfg : t.cfg = s.cfg) :
    QueueProduced t :=
  h.of_subset (hq ▸ List.Subset.refl _) hcfg

theorem QueueProduced.enqueue {s : State} (h : QueueProduced s) {e : Ev} (he : EvProduced s.cfg.keymap e) :
    QueueProduced (s.enqueue e) := by
  rcases enqueue_cases e s with ⟨_, heq⟩ | ⟨_, heq⟩ <;> rw [heq]
  · exact h
  · intro e' he'
    rcases List.mem_append.mp he' with hold | hnew
    · exact h e' hold
    · rwa [List.mem_singleton.mp hnew]

/-- An event of one of the seven types that carry no character. -/
theorem evProduced_evOf (m : Vector Byte 16) {type : BitVec 4} (hlo : 1#4 ≤ type) (hhi : type ≤ 8#4) (hkey : type ≠ 5#4) :
    EvProduced m (evOf type) := by
  rw [EvProduced, evOf, evType_mkEv]
  exact ⟨hlo, hhi, fun h => absurd h hkey⟩

/-- A key event carries what a key layout read answers (R63, R134). -/
theorem evProduced_key (m : Vector Byte 16) (column row : BitVec 2) :
    EvProduced m (mkEv tyKeypadNewKey (kpResolve m column row)) := by
  rw [EvProduced, evType_mkEv, evData_mkEv]
  exact ⟨by decide, by decide, fun _ => keymapRead_mem m _⟩

theorem evProduced_edge (m : Vector Byte 16) (i : Switch) (l : Level) : EvProduced m (evOf (edgeType i l)) := by
  have hrange : ∀ l, 1#4 ≤ edgeType i l ∧ edgeType i l ≤ 8#4 ∧ edgeType i l ≠ 5#4 := by cases i <;> decide
  obtain ⟨hlo, hhi, hkey⟩ := hrange l
  exact evProduced_evOf m hlo hhi hkey

/-- The derived events are a start and a stop (R34, R188). -/
theorem evProduced_pending {s : State} (h : PendingOk s) {e : Ev} (he : s.mPending = some e) (m : Vector Byte 16) :
    EvProduced m e := by
  rw [PendingOk, he] at h
  rcases h with h | h | h <;> cases h
  · exact evProduced_evOf m (type := tyStartDoor) (by decide) (by decide) (by decide)
  · exact evProduced_evOf m (type := tyStopDoor) (by decide) (by decide) (by decide)

theorem QueueProduced.csrWrite {s : State} (h : QueueProduced s) (b : Byte) : QueueProduced (s.csrWrite b) := by
  cases hb : commandBit b with
  | true =>
    rw [csrWrite_of_command hb]
    exact h.enqueue (evProduced_evOf _ (by decide) (by decide) (by decide))
  | false => rwa [csrWrite_of_nop hb]

theorem QueueProduced.dbSample {s : State} (h : QueueProduced s) (i : Switch) (l : Level) :
    QueueProduced (dbSample i l s) := by
  have hset (d : Debounce) : QueueProduced (s.setDb i d) := h.of_eq (State.setDb_q i d s) (State.setDb_cfg i d s)
  rcases dbSample_cases i l s with ⟨_, he⟩ | ⟨_, he⟩ <;> rw [he]
  · exact hset _
  · exact (hset _).enqueue (evProduced_edge _ i l)

theorem QueueProduced.kpScanRule {s : State} (h : QueueProduced s) (sense scan : Lines) :
    QueueProduced (kpScanRule sense scan s) := by
  have hcfg := (raiseUnresolved_writes sense scan ((s.setKpRole .swapped).setKpRole .normal)).tick.cfg_eq
  have hcause := h.of_eq (raiseUnresolved_q sense scan ((s.setKpRole .swapped).setKpRole .normal)) hcfg
  have hkey := evProduced_key s.cfg.keymap (lowIdx sense) (lowIdx scan)
  rw [kpScanRule_eq]
  exact (hcause.enqueue (hcfg ▸ hkey)).of_eq rfl rfl

theorem QueueProduced.kpRule {s : State} (h : QueueProduced s) (k : KpState) (sense scan : Lines) :
    QueueProduced (kpRule k sense scan s) := by
  by_cases hk : k = .scan
  · exact hk ▸ h.kpScanRule sense scan
  · exact h.of_eq (kpRule_q_of_ne_scan hk sense scan s) (kpRule_writes k sense scan s).cfg_eq

theorem QueueProduced.tick {s : State} (h : QueueProduced s) (cl ol : Level) (sense scan : Lines) :
    QueueProduced (tick cl ol sense scan s) :=
  ((h.dbSample .cl cl).dbSample .ol ol).kpRule _ sense scan

/-- R84 is kept by whatever an operation did that is no enqueue by itself. -/
theorem QueueProduced.of_effect {i : Instr} {s t : State} (h : QueueProduced s) (hpending : PendingOk s)
    (hi : ∀ e, i ≠ .qEnq e) (he : Effect i s t) : QueueProduced t := by
  have hcfg := he.cfg_eq
  cases he with
  | recorded => exact h
  | commanded b n o => exact QueueProduced.csrWrite (s := { s with inputIndex := n, out := o }) h b
  | ticked cl ol sense scan => exact QueueProduced.tick (s := s.begin) h cl ol sense scan
  | sampled sw l => exact QueueProduced.dbSample (s := s.begin) h sw l
  | scanned sense scan n => exact QueueProduced.kpRule (s := { s with inputIndex := n, out := {} }) h _ sense scan
  | dispatched e => exact h.of_eq (dispatch_writes e s.begin).q_eq hcfg
  | digit d => exact h.of_eq (keyDigit_writes d s.begin).q_eq hcfg
  | terminator => exact h.of_eq (keyTerminator_writes s.begin).q_eq hcfg
  | stopped | startedOpen | startedClose => exact h
  | enqueued e => exact absurd rfl (hi e)
  | dequeued => exact h.of_subset (qDeq_q s.begin ▸ List.tail_subset s.q) hcfg
  | mainDispatched => exact h.of_subset (mainDispatch_q s.begin ▸ List.tail_subset s.q) hcfg
  | mainEmitted e hm => exact QueueProduced.enqueue (s := s.begin) h (evProduced_pending hpending hm _)
  | reset => exact nofun

/-! ## The words lined up -/

theorem TickWrites.stim_eq {s t : State} (h : TickWrites s t) : t.stim = s.stim := by rw [h]

theorem DoorWrites.stim_eq {s t : State} (h : DoorWrites s t) : t.stim = s.stim := by rw [h]

theorem MainWrites.stim_eq {s t : State} (h : MainWrites s t) : t.stim = s.stim := by rw [h]

theorem qDeq_stim (s : State) : s.qDeq.2.stim = s.stim := by
  rcases qDeq_cases s with ⟨_, h⟩ | ⟨_, _, _, h⟩ <;> rw [h]

/-- No operation, `RESET` included, writes the words still to come (log 2). -/
theorem Effect.stim_eq {i : Instr} {s t : State} (he : Effect i s t) : t.stim = s.stim := by
  cases he with
  | recorded => rfl
  | commanded b n o => exact csrWrite_stim b { s with inputIndex := n, out := o }
  | ticked cl ol sense scan => exact (tick_writes cl ol sense scan s.begin).stim_eq
  | sampled sw l => exact dbSample_stim sw l s.begin
  | scanned sense scan n => exact (kpRule_writes s.kpState sense scan { s with inputIndex := n, out := {} }).stim_eq
  | dispatched e => exact (dispatch_writes e s.begin).stim_eq
  | digit d => exact (keyDigit_writes d s.begin).stim_eq
  | terminator => exact (keyTerminator_writes s.begin).stim_eq
  | stopped | startedOpen | startedClose => rfl
  | enqueued e => exact enqueue_stim e s.begin
  | dequeued => exact qDeq_stim s.begin
  | mainDispatched => exact (mainDispatch_writes s.begin).stim_eq
  | mainEmitted e => exact (mainEmit_writes e s.begin).stim_eq
  | reset => rfl

/-- The row of a decoded operation is one of the format that its word was read in. -/
theorem fmt_of_decode {f : Format} {w : BitVec 16} {i : Instr} (h : decode f w = some i) :
    (rows[rowOf i]?).map Row.fmt = some f := by
  obtain ⟨_, hsel⟩ := decode_selects h
  obtain ⟨r, hr, hf, _⟩ := selects_iff.mp hsel
  rw [hr, Option.map_some, hf]

theorem not_isMotor_of_decode {f : Format} {w : BitVec 16} {i : Instr} (h : decode f w = some i) (hf : f ≠ .mcmd) :
    ¬ isMotor i := by
  have hrow := fmt_of_decode h
  rintro (rfl | rfl | rfl | rfl) <;> exact hf (Option.some.inj hrow).symm

theorem ne_qEnq_of_decode {f : Format} {w : BitVec 16} {i : Instr} (h : decode f w = some i) (hf : f ≠ .qop) (e : Ev) :
    i ≠ .qEnq e := by
  have hrow := fmt_of_decode h
  rintro rfl
  exact hf (Option.some.inj hrow).symm

/-- What the open schedule gives is the operation of a trace word (R90, R218). -/
theorem scheduled_decodes {s : State} {i : Instr} (h : s.scheduled = some i) : ∃ w, decode .trace w = some i := by
  unfold State.scheduled choiceInstr at h
  split at h
  · cases h; exact ⟨_, decode_encode_tick ..⟩
  · cases h; exact ⟨_, decode_busWord ..⟩
  · split_ifs at h <;> cases h
    · exact ⟨0x6000, rfl⟩
    · exact ⟨0x4000, rfl⟩
  · cases h; exact ⟨0xE000, rfl⟩

/-! ## Every step of the hardware keeps the agreement -/

theorem CoreInv.dutyFull_ne {s : State} (h : CoreInv s) : s.cfg.dutyFull ≠ 0#8 := by
  obtain ⟨_, _, _, hfull⟩ := h.inv.cfg
  exact hfull

theorem CoreInv.consume {s : State} (h : CoreInv s) : CoreInv s.consume :=
  { inv := h.inv.consume, agree := h.agree, events := h.events, words := fun w hw => h.words w (List.mem_of_mem_tail hw) }

theorem CoreInv.advance {s : State} (h : CoreInv s) : CoreInv s.advance := { h with inv := h.inv.advance }

theorem CoreInv.begin {s : State} (h : CoreInv s) : CoreInv s.begin := { h with inv := h.inv.begin }

/-- The operation of a word of one of the agents' formats keeps what the hardware keeps. -/
theorem CoreInv.of_exec {f : Format} {w : BitVec 16} {i : Instr} {s t : State} (h : CoreInv s)
    (hf : f ≠ .mcmd ∧ f ≠ .qop) (hi : decode f w = some i) (hex : exec i s = .next t) : CoreInv t := by
  obtain ⟨hmcmd, hqop⟩ := hf
  have he := effect_of_exec hex
  have hevents : QueueProduced t := QueueProduced.of_effect h.events h.inv.pending (ne_qEnq_of_decode hi hqop) he
  have hwords : AgentWords t := by rw [AgentWords, he.stim_eq]; exact h.words
  exact
    { inv := h.inv.of_effect he, agree := h.agree.of_effect h.dutyFull_ne (not_isMotor_of_decode hi hmcmd) he
      events := hevents, words := hwords }

/-- Settles O59: a step runs the operation of an agent's word, lined up or scheduled, and each part of the invariant is kept by
the effect it has. -/
theorem everyAgentStepKeepsDoorAndMotorInAgreement : Obligations.EveryAgentStepKeepsDoorAndMotorInAgreement := by
  intro s t h hst
  rcases step_cases hst with ⟨w, rest, i, hs, hi, hex⟩ | ⟨_, i, hi, hex⟩ | ⟨_, _, rfl⟩
  · exact h.consume.of_exec (h.words w (hs ▸ List.mem_cons_self)) hi hex
  · obtain ⟨w, hw⟩ := scheduled_decodes hi
    exact h.advance.of_exec (f := .trace) ⟨nofun, nofun⟩ hw hex
  · exact h.advance.begin

end Sys2Proof.Machine
end

