-- ==== Sys2Proof/Proofs/AccessCode.lean ====
section
/-! PROOFS, 47_access_code_validator.md: the operation of each class of key, and the run of a whole code with its terminator. -/

namespace Sys2Proof.Machine

open Sys2Proof.Spec

/-! ## The arithmetic of the accumulator (R98, R205) -/

theorem digitValue_0to7 : ∀ low : BitVec 3, digitValue (0b00110#5 ++ low) = BitVec.ofNat 16 low.toNat := by decide

theorem digitValue_8to9 : ∀ low : BitVec 1, digitValue (0b0011100#7 ++ low) = BitVec.ofNat 16 (8 + low.toNat) := by decide

theorem accAppend_ofNat (v k : Nat) :
    accAppend (BitVec.ofNat 16 v) (BitVec.ofNat 16 k) = BitVec.ofNat 16 (v * 10 + k) := by
  rw [accAppend, BitVec.ofNat_add, BitVec.ofNat_mul]

/-- The count in the statements' own words: it goes to 0 from the top of its register. -/
theorem counterSucc_accCountWidth (pinLen n : Nat) :
    counterSucc (accCountWidth pinLen) n = if n = counterTop 3 pinLen then 0 else n + 1 := by
  have hpos : 0 < 2 ^ accCountWidth pinLen := Nat.two_pow_pos _
  have htop : n = counterTop 3 pinLen ↔ n + 1 = 2 ^ accCountWidth pinLen := by
    rw [show counterTop 3 pinLen = 2 ^ accCountWidth pinLen - 1 from rfl]
    omega
  simp only [counterSucc, htop]

/-! ## One key (R201 to R203) -/

theorem exec_keyTerminator (s : State) : exec .keyTerminator s = .next (keyTerminator s.begin) := by rfl

theorem exec_keyOther (ch : Byte) (s : State) : exec (.keyOther ch) s = .next (keyOther s.begin) := by rfl

/-- A digit on a full accumulator starts a new code. -/
theorem keyDigit_of_full {s : State} (h : s.accCount = s.cfg.pinLen) (k : Nat) :
    keyDigit (BitVec.ofNat 16 k) s = s.setAcc (BitVec.ofNat 16 k) 1 := by
  have hwidth : accCountWidth s.cfg.pinLen ≠ 0 := by unfold accCountWidth counterWidth; omega
  have hone : counterSucc (accCountWidth s.cfg.pinLen) 0 = 1 := counterSucc_of_lt Nat.one_pos (Nat.one_lt_two_pow hwidth)
  rw [keyDigit, if_pos h, State.setAcc_accValue, State.setAcc_accCount, State.setAcc_cfg, hone, accAppend_ofNat 0,
    Nat.zero_mul, Nat.zero_add]
  rfl

theorem keyDigit_of_not_full {s : State} (h : s.accCount ≠ s.cfg.pinLen) (k : Nat) :
    keyDigit (BitVec.ofNat 16 k) s =
      s.setAcc (BitVec.ofNat 16 (s.accValue.toNat * 10 + k))
        (if s.accCount = counterTop 3 s.cfg.pinLen then 0 else s.accCount + 1) := by
  rw [keyDigit, if_neg h, ← accAppend_ofNat, BitVec.ofNat_toNat, BitVec.setWidth_eq, counterSucc_accCountWidth]

/-- Below `PIN_LEN` digits the count is not at the top of its register. -/
theorem keyDigit_of_lt {s : State} (h : s.accCount < s.cfg.pinLen) (d : BitVec 16) :
    keyDigit d s = s.setAcc (accAppend s.accValue d) (s.accCount + 1) := by
  rw [keyDigit, if_neg h.ne, accCountWidth, counterSucc_of_lt h (lt_counterWidth 3 _)]

/-- The right code makes a toggle request. -/
theorem keyTerminator_of_code {s : State} (h : s.accCount = s.cfg.pinLen ∧ s.accValue = s.cfg.pin) :
    keyTerminator s = (s.setPending (some (toggled s.doorState))).setAcc 0#16 0 := by
  rw [keyTerminator, if_pos h, evOf_toggle]

theorem keyTerminator_of_not_code {s : State} (h : ¬ (s.accCount = s.cfg.pinLen ∧ s.accValue = s.cfg.pin)) :
    keyTerminator s = s.setAcc 0#16 0 := by
  rw [keyTerminator, if_neg h]

/-- Settles O42: by whether the accumulator is full. -/
theorem digitKeyAppends : Obligations.DigitKeyAppends := by
  intro s low high appended
  have happend (k : Nat) : .next (keyDigit (BitVec.ofNat 16 k) s.begin) = appended k := by
    by_cases hfull : s.accCount = s.cfg.pinLen
    · rw [keyDigit_of_full (s := s.begin) hfull]
      simp only [appended, if_pos hfull]
      rfl
    · rw [keyDigit_of_not_full (s := s.begin) hfull]
      simp only [appended, if_neg hfull]
      rfl
  rw [exec_keyDigit0to7, exec_keyDigit8to9, digitValue_0to7, digitValue_8to9]
  exact ⟨happend _, happend _⟩

/-- Settles O43: by whether the digits held are the PIN. -/
theorem terminatorChecksTheCode : Obligations.TerminatorChecksTheCode := by
  intro s
  rw [exec_keyTerminator]
  by_cases hcode : s.accCount = s.cfg.pinLen ∧ s.accValue = s.cfg.pin
  · rw [keyTerminator_of_code (s := s.begin) hcode, if_pos hcode]
    rfl
  · rw [keyTerminator_of_not_code (s := s.begin) hcode, if_neg hcode]
    rfl

/-- Settles O44: the rule of such a key is the identity. -/
theorem otherKeysAreIgnored : Obligations.OtherKeysAreIgnored := by
  intro s ch
  rw [exec_keyOther, keyOther]
  rfl

/-! ## The keys of a code (R200, R204) -/

/-- The key event of a decimal digit (R98). -/
def digitKey (k : Nat) : Instr := .keypadNewKey (BitVec.ofNat 8 (0x30 + k))

/-- The number that a list of digits makes when it is typed after the digits of `v` (R201). -/
def typedValue (v : Nat) (ks : List Nat) : Nat := ks.foldl (fun v k => v * 10 + k) v

/-- The state with `n` digits held, whose number is `v`. -/
def State.holding (v n : Nat) (s : State) : State := s.begin.setAcc (BitVec.ofNat 16 v) n

theorem exec_digitKey {k : Nat} (hk : k ≤ 9) (s : State) :
    exec (digitKey k) s = .next (keyDigit (BitVec.ofNat 16 k) s.begin) := by
  have hchar : (BitVec.ofNat 8 (0x30 + k)).toNat = 0x30 + k := Nat.mod_eq_of_lt (by omega)
  have hvalue : digitValue (BitVec.ofNat 8 (0x30 + k)) = BitVec.ofNat 16 k := by
    unfold digitValue
    bv_omega
  rw [digitKey, exec_keypadNewKey, validate_of_digit (by omega), hvalue]

/-- The first digit of a code, on an accumulator that is full or empty. -/
theorem exec_digitKey_first {s : State} {k : Nat} (hk : k ≤ 9) (hpos : 0 < s.cfg.pinLen)
    (hstart : s.accCount = s.cfg.pinLen ∨ (s.accCount = 0 ∧ s.accValue = 0#16)) :
    exec (digitKey k) s = .next (s.holding k 1) := by
  rw [exec_digitKey hk]
  rcases hstart with hfull | ⟨hcount, hvalue⟩
  · rw [keyDigit_of_full (s := s.begin) hfull, State.holding]
  · rw [keyDigit_of_lt (s := s.begin) (hcount ▸ hpos), State.begin_accValue, State.begin_accCount, hcount, hvalue,
      accAppend_ofNat 0, Nat.zero_mul, Nat.zero_add, State.holding]

theorem exec_digitKey_holding {v n k : Nat} {s : State} (hk : k ≤ 9) (hroom : n < s.cfg.pinLen) :
    exec (digitKey k) (s.holding v n) = .next (s.holding (v * 10 + k) (n + 1)) := by
  rw [exec_digitKey hk, keyDigit_of_lt (s := (s.holding v n).begin) hroom, State.holding, State.begin_accValue,
    State.setAcc_accValue, accAppend_ofNat]
  rfl

/-- Digits with room for all of them make their number, for codes of any length. -/
theorem execAll_digitKeys {s : State} {ks : List Nat} (hks : ∀ k ∈ ks, k ≤ 9) {v n : Nat}
    (hroom : n + ks.length ≤ s.cfg.pinLen) :
    execAll (ks.map digitKey) (s.holding v n) = .next (s.holding (typedValue v ks) (n + ks.length)) := by
  induction ks generalizing v n with
  | nil => rfl
  | cons k ks ih =>
    obtain ⟨hk, hks⟩ := List.forall_mem_cons.mp hks
    rw [List.length_cons, Nat.add_comm ks.length, ← Nat.add_assoc] at hroom ⊢
    exact (execAll_cons (exec_digitKey_holding hk (by omega)) _).trans (ih hks hroom)

/-- The terminator is a key event like any other character: that of a core whose terminator is no digit does `KEY_TERMINATOR`
(R200). -/
theorem exec_terminator {s : State} (h : s.cfg.terminator.toNat < 0x30 ∨ 0x39 < s.cfg.terminator.toNat) :
    exec (.keypadNewKey s.cfg.terminator) s = exec .keyTerminator s := by
  rw [exec_keypadNewKey_eq_keyInstr, keyInstr, if_neg (by omega), if_neg (by omega), if_pos rfl]

/-- The terminator on a full accumulator compares the number typed with the PIN. -/
theorem exec_terminator_holding {v : Nat} {s : State} (hv : v < 2 ^ 16)
    (hterm : s.cfg.terminator.toNat < 0x30 ∨ 0x39 < s.cfg.terminator.toNat) :
    exec (.keypadNewKey s.cfg.terminator) (s.holding v s.cfg.pinLen) =
      .next
        { s with
          mPending := if s.cfg.pin.toNat = v then some (toggled s.doorState) else s.mPending
          accValue := 0#16, accCount := 0, out := {} } := by
  have hpin : ((s.holding v s.cfg.pinLen).accCount = s.cfg.pinLen ∧ (s.holding v s.cfg.pinLen).accValue = s.cfg.pin) ↔
      s.cfg.pin.toNat = v := by
    rw [State.holding, State.setAcc_accCount, State.setAcc_accValue, and_iff_right rfl, ← BitVec.toNat_inj,
      BitVec.toNat_ofNat, Nat.mod_eq_of_lt hv, eq_comm]
  have hcheck := terminatorChecksTheCode (s.holding v s.cfg.pinLen)
  rw [← exec_terminator (s := s.holding v s.cfg.pinLen) hterm] at hcheck
  refine hcheck.trans ?_
  simp only [← hpin]
  rfl

/-- Settles O46: the first digit starts the code, the other three follow it, and the terminator compares their number with the
PIN. -/
theorem accessCodeRoundTrip : Obligations.AccessCodeRoundTrip := by
  intro s a b c d ha hb hc hd hlen hterm hstart key
  have hdigits : ∀ k ∈ [b, c, d], k ≤ 9 := by simp [hb, hc, hd]
  have hvalue : typedValue a [b, c, d] = 1000 * a + 100 * b + 10 * c + d := by
    simp only [typedValue, List.foldl_cons, List.foldl_nil]
    omega
  have hfirst : exec (key a) s = .next (s.holding a 1) := exec_digitKey_first ha (by omega) (hlen ▸ hstart)
  have hothers : execAll [key b, key c, key d] (s.holding a 1) =
      .next (s.holding (1000 * a + 100 * b + 10 * c + d) s.cfg.pinLen) := by
    rw [← hvalue, hlen]
    exact execAll_digitKeys hdigits hlen.ge
  have hend := exec_terminator_holding (v := 1000 * a + 100 * b + 10 * c + d) (by omega) hterm
  exact (execAll_cons hfirst _).trans ((execAll_append hothers _).trans (execAll_singleton hend))

end Sys2Proof.Machine
end

section
/-! PROOFS, 48_agents_and_steps.md: the steps of the agents, what a step runs and where it stops, the drain, and the main loop's
turns. -/

namespace Sys2Proof.Machine

open Sys2Proof.Spec

/-! ## Where the main loop's steps are enabled (R210, R214, R215) -/

theorem dispatchEnabled_iff (s : State) : s.dispatchEnabled = true ↔ s.mPending = none ∧ s.q ≠ [] := by
  simp [State.dispatchEnabled, State.pendingValid, State.qEmpty]

theorem emitEnabled_of_pending {s : State} {e : Ev} (h : s.mPending = some e) : s.emitEnabled = true := by
  simp [State.emitEnabled, State.pendingValid, h]

theorem emitEnabled_of_none {s : State} (h : s.mPending = none) : s.emitEnabled = false := by
  simp [State.emitEnabled, State.pendingValid, h]

theorem dispatchEnabled_of_cons {s : State} {e : Ev} {rest : List Ev} (hp : s.mPending = none) (hq : s.q = e :: rest) :
    s.dispatchEnabled = true :=
  (dispatchEnabled_iff s).mpr ⟨hp, hq ▸ List.cons_ne_nil e rest⟩

theorem dispatchEnabled_of_nil {s : State} (hq : s.q = []) : s.dispatchEnabled = false := by
  simp [State.dispatchEnabled, State.qEmpty, hq]

/-- An enabled dispatch is the rule of the oldest event on the state without it (R214). -/
theorem exec_mainDispatch_of_cons {s : State} {e : Ev} {rest : List Ev} (hp : s.mPending = none) (hq : s.q = e :: rest) :
    exec .mainDispatch s = .next (dispatch e { s with q := rest, out := {} }) := by
  have hbegin : s.begin.q = e :: rest := hq
  change execMainDispatch s = _
  rw [execMainDispatch, if_pos (dispatchEnabled_of_cons hp hq), mainDispatch, qDeq_of_cons hbegin]
  rfl

theorem exec_mainDispatch_of_not_enabled {s : State} (h : s.mPending ≠ none ∨ s.q = []) :
    exec .mainDispatch s = .refused .mainDispatchNotEnabled := by
  refine if_neg fun hen => ?_
  obtain ⟨hp, hq⟩ := (dispatchEnabled_iff s).mp hen
  exact h.elim (· hp) hq

/-- An enabled emit enqueues the pending event and clears it (R215). -/
theorem exec_mainEmit_of_pending {s : State} {e : Ev} (h : s.mPending = some e) :
    exec .mainEmit s = .next ((s.begin.enqueue e).setPending none) := by
  change execMainEmit s = _
  rw [execMainEmit, h]
  rfl

theorem exec_mainEmit_of_none {s : State} (h : s.mPending = none) : exec .mainEmit s = .refused .mainEmitNotEnabled := by
  change execMainEmit s = _
  rw [execMainEmit, h]

/-- Settles O50: the emit's enqueue, in the statements' own words. -/
theorem mainEmitEnqueuesThePendingEvent : Obligations.MainEmitEnqueuesThePendingEvent := by
  intro s e h
  rw [exec_mainEmit_of_pending h, enqueue_eq_enqueued]
  rfl

/-- Settles O51: both steps where they are not enabled. -/
theorem mainStepsNeedToBeEnabled : Obligations.MainStepsNeedToBeEnabled :=
  fun _ => ⟨exec_mainDispatch_of_not_enabled, exec_mainEmit_of_none⟩

/-! ## The dispatch of an event as an event word (R82, R214) -/

theorem mkEv_evType_evData (e : Ev) : mkEv (evType e) (evData e) = e := by
  apply BitVec.eq_of_toNat_eq
  have hdata : (evData e).toNat < 2 ^ 8 := (evData e).isLt
  rw [mkEv, BitVec.toNat_append, ← Nat.shiftLeft_add_eq_or_of_lt hdata, Nat.shiftLeft_eq, evType, evData, toNat_field,
    toNat_field]
  omega

/-- Every event record decodes as an event word, to the operation that dispatches it (R82, R180). -/
theorem decode_ev_dispatches (e : Ev) :
    ∃ i, decode .ev (e.setWidth 16) = some i ∧ ∀ s, exec i s = .next (dispatch e s.begin) := by
  rw [← mkEv_evType_evData e]
  generalize evData e = d
  generalize evType e = type
  have hdecode : decode .ev ((mkEv type d).setWidth 16) = decodeEv (evWord type d).bits := rfl
  have hlt : type.toNat < 16 := type.isLt
  simp only [hdecode, decodeEv, evWord_type, evWord_data, dispatch_mkEv]
  generalize type.toNat = n at hlt
  interval_cases n
  all_goals exact ⟨_, rfl, fun _ => rfl⟩

/-- Settles O49: both are the dispatch of the oldest event on the state without it. -/
theorem mainDispatchRunsTheOldestEvent : Obligations.MainDispatchRunsTheOldestEvent := by
  intro s e rest hp hq
  have hmain := exec_mainDispatch_of_cons hp hq
  obtain ⟨i, hi, hrun⟩ := decode_ev_dispatches e
  refine ⟨⟨_, hmain⟩, ⟨i, hi⟩, fun j hj => ?_⟩
  cases hi.symm.trans hj
  exact hmain.trans (hrun { s with q := rest }).symm

/-! ## A tick (R211) -/

theorem edgeOf_cl (l : Level) : edgeOf .cl l = if l then 0x200#12 else 0x100#12 := by cases l <;> rfl

theorem edgeOf_ol (l : Level) : edgeOf .ol l = if l then 0x400#12 else 0x300#12 := by cases l <;> rfl

theorem dbSample_cl_eq_sampledCl (l : Level) (s : State) : dbSample .cl l s = sampledCl l s := by
  rw [dbSample_eq_sampled, edgeOf_cl]
  rfl

theorem dbSample_ol_eq_sampledOl (l : Level) (s : State) : dbSample .ol l s = sampledOl l s := by
  rw [dbSample_eq_sampled, edgeOf_ol]
  rfl

theorem exec_tick (cl ol : Level) (sense scan : Lines) (s : State) :
    exec (.tick cl ol sense scan) s =
      .next (kpRule s.kpState sense scan (dbSample .ol ol (dbSample .cl cl s.begin))) := by rfl

/-- Settles O47: the three processes one after another, each in the statements' own words. -/
theorem tickRunsTheThreeProcessesInOrder : Obligations.TickRunsTheThreeProcessesInOrder := by
  intro s cl ol sense scan
  rw [exec_tick, kpRule_eq_keypadTicked, dbSample_ol_eq_sampledOl, dbSample_cl_eq_sampledCl]
  rfl

/-! ## What a tick enqueues (R126, R239) -/

/-- The events of `new` are queued behind those of `s`, in their order, and none is lost. -/
structure Queues (new : List Ev) (s t : State) : Prop where
  q_eq : t.q = s.q ++ new
  dropCount_eq : t.dropCount = s.dropCount
  cfg_eq : t.cfg = s.cfg

theorem Queues.trans {new new' : List Ev} {s t u : State} (h : Queues new s t) (h' : Queues new' t u) :
    Queues (new ++ new') s u :=
  ⟨by rw [h'.q_eq, h.q_eq, List.append_assoc], h'.dropCount_eq.trans h.dropCount_eq, h'.cfg_eq.trans h.cfg_eq⟩

theorem Queues.nil {s t : State} (hq : t.q = s.q) (hdrop : t.dropCount = s.dropCount) (hcfg : t.cfg = s.cfg) :
    Queues [] s t :=
  ⟨by rw [hq, List.append_nil], hdrop, hcfg⟩

theorem Appends.length_le {n : Nat} {s t : State} (h : Appends n s t) : t.q.length ≤ s.q.length + n := by
  obtain ⟨new, hlen, hq⟩ := h
  rw [hq, List.length_append]
  omega

theorem enqueue_queues {e : Ev} {s : State} (h : s.q.length < s.cfg.qCap) : Queues [e] s (s.enqueue e) := by
  rw [enqueue_of_room ((qFull_eq_false_iff s).mpr (by omega))]
  exact ⟨rfl, rfl, rfl⟩

theorem setDb_queues (i : Switch) (d : Debounce) (s : State) : Queues [] s (s.setDb i d) := by
  cases i <;> exact .nil rfl rfl rfl

/-- A sample confirms a change exactly where it differs and one differing sample is waited for (R121). -/
theorem debounceNext_confirms_iff (n : Nat) (l : Level) (d : Debounce) :
    (debounceNext n l d).2 = true ↔ l ≠ d.confirmed ∧ d.left n = 1 := by
  by_cases hsame : l = d.confirmed
  · rw [debounceNext_same hsame]
    simp [hsame]
  · by_cases hlast : d.left n = 1
    · simp [debounceNext_confirm hsame (by rw [debounceArm_eq, hlast]), hsame, hlast]
    · simp [debounceNext_count hsame (by rwa [debounceArm_eq]), hlast]

/-- With room, a sample queues its edge where the edge falls due (R122). -/
theorem dbSample_queues (i : Switch) (l : Level) {s : State} (h : s.q.length < s.cfg.qCap) :
    Queues (if l ≠ (s.db i).confirmed ∧ (s.db i).left s.cfg.nLimit = 1 then [edgeOf i l] else []) s (dbSample i l s) := by
  have hset := setDb_queues i (debounceNext s.cfg.nLimit l (s.db i)).1 s
  have hdue := debounceNext_confirms_iff s.cfg.nLimit l (s.db i)
  rcases dbSample_cases i l s with ⟨hconf, heq⟩ | ⟨hconf, heq⟩
  · rw [heq, if_neg (mt hdue.mpr (Bool.eq_false_iff.mp hconf))]
    exact hset
  · rw [heq, if_pos (hdue.mp hconf), ← evOf_edgeType]
    exact hset.trans (enqueue_queues (by rw [State.setDb_q, State.setDb_cfg]; exact h))

/-- The other switch's process is not touched (R126). -/
theorem dbSample_cl_dbOl (l : Level) (s : State) : (dbSample .cl l s).dbOl = s.dbOl := by
  rcases dbSample_cases .cl l s with ⟨_, h⟩ | ⟨_, h⟩ <;> rw [h]
  · rfl
  · exact enqueue_dbOl ..

/-- With room, the scan queues its key (R134). -/
theorem kpScanRule_queues (sense scan : Lines) {s : State} (h : s.q.length < s.cfg.qCap) :
    Queues [0x5#4 ++ kpResolve s.cfg.keymap (lowIdx sense) (lowIdx scan)] s (kpScanRule sense scan s) := by
  have hcause : Queues [] s (raiseUnresolved sense scan ((s.setKpRole .swapped).setKpRole .normal)) := by
    rw [raiseUnresolved_eq]
    exact .nil rfl rfl rfl
  have hstate (u : State) : Queues [] u (u.setKpState .release) := .nil rfl rfl rfl
  rw [kpScanRule_eq]
  exact (hcause.trans (enqueue_queues (by rw [hcause.q_eq, hcause.cfg_eq, List.append_nil]; exact h))).trans (hstate _)

/-- The other three rules queue nothing (R132, R133, R135). -/
theorem kpRule_queues_of_ne_scan {k : KpState} (hk : k ≠ .scan) (sense scan : Lines) (s : State) :
    Queues [] s (kpRule k sense scan s) := by
  have hdrop : (kpRule k sense scan s).dropCount = s.dropCount := by
    rw [kpRule_eq_keypadTicked]
    cases k with
    | scan => exact absurd rfl hk
    | idle | wait | release => simp only [keypadTicked]; split <;> rfl
  have hcfg : (kpRule k sense scan s).cfg = s.cfg := by rw [kpRule_writes k sense scan s]
  exact .nil (kpRule_q_of_ne_scan hk sense scan s) hdrop hcfg

theorem kpRule_queues (k : KpState) (sense scan : Lines) {s : State} (h : s.q.length < s.cfg.qCap) :
    Queues (if k = .scan then [0x5#4 ++ kpResolve s.cfg.keymap (lowIdx sense) (lowIdx scan)] else []) s
      (kpRule k sense scan s) := by
  by_cases hk : k = .scan
  · rw [if_pos hk, hk]
    exact kpScanRule_queues sense scan h
  · rw [if_neg hk]
    exact kpRule_queues_of_ne_scan hk sense scan s

/-- Settles O48: the three processes queue one after another, each with room left by those before it. -/
theorem tickEnqueuesInFixedOrder : Obligations.TickEnqueuesInFixedOrder := by
  intro s t cl ol sense scan hroom ht due
  have hroom : s.begin.q.length + 3 ≤ s.begin.cfg.qCap := hroom
  have hlenCl := (dbSample_appends .cl cl s.begin).length_le
  have hlenOl := (dbSample_appends .ol ol (dbSample .cl cl s.begin)).length_le
  have hcl := dbSample_queues .cl cl (s := s.begin) (by omega)
  have hol := dbSample_queues .ol ol (s := dbSample .cl cl s.begin) (by rw [dbSample_cfg]; omega)
  have hkp := kpRule_queues s.kpState sense scan (s := dbSample .ol ol (dbSample .cl cl s.begin))
    (by rw [dbSample_cfg, dbSample_cfg]; omega)
  have htick := (hcl.trans hol).trans hkp
  cases (exec_tick cl ol sense scan s).symm.trans ht
  simp only [State.db, dbSample_cl_dbOl, dbSample_cfg, State.begin_cfg, edgeOf_cl, edgeOf_ol] at htick
  exact ⟨htick.q_eq.trans (by simp only [List.append_assoc]; rfl), htick.dropCount_eq⟩

/-! ## What a step runs, and where it stops (R210, R99) -/

theorem step_of_word {s : State} {w : Stim} {rest : List Stim} {i : Instr} (hs : s.stim = w :: rest)
    (hi : decode w.fmt w.bits = some i) : step s = exec i { s with stim := rest } := by
  have hconsume : s.consume = { s with stim := rest } := by rw [State.consume, hs, List.tail_cons]
  rw [← hconsume]
  simp only [step, hs, hi]

/-- Settles O5: the branch of the step in which the word lined up decodes. -/
theorem stepRunsTheDecodedWord : Obligations.StepRunsTheDecodedWord := fun _ _ _ _ => step_of_word

theorem step_of_scheduled {s : State} {i : Instr} (hs : s.stim = []) (hi : s.scheduled = some i) :
    step s = exec i s.advance := by
  simp only [step, hs, hi]

/-- A sleeping main loop changes nothing but the position and the outputs (R217). -/
theorem step_of_asleep {s : State} (hs : s.stim = []) (hi : s.scheduled = none) : step s = .next s.advance.begin := by
  simp only [step, hs, hi]

/-- The kinds of a bus phase are those of the `BUS` agent's operations (R91). -/
theorem isBus_busInstr (kind : BitVec 3) (d : Byte) : isBus (busInstr kind d) := by
  unfold busInstr
  split
  case h_7 => exact .inr ⟨_, d, rfl⟩
  all_goals exact .inl ⟨d, by simp⟩

/-- The steps of the main loop are the only operations that can be refused, each where it is not enabled. -/
theorem exec_refused {i : Instr} {s : State} {r : Refusal} (h : exec i s = .refused r) :
    (r = .mainDispatchNotEnabled ∧ i = .mainDispatch ∧ (s.mPending ≠ none ∨ s.q = [])) ∨
    (r = .mainEmitNotEnabled ∧ i = .mainEmit ∧ s.mPending = none) := by
  cases i with
  | mainDispatch =>
    change execMainDispatch s = _ at h
    unfold execMainDispatch at h
    split at h
    · cases h
    · next hen =>
      cases h
      rw [dispatchEnabled_iff, not_and_or, not_not] at hen
      exact .inl ⟨rfl, rfl, hen⟩
  | mainEmit =>
    change execMainEmit s = _ at h
    unfold execMainEmit at h
    split at h
    · cases h
    · next hp =>
      cases h
      exact .inr ⟨rfl, rfl, hp⟩
  | _ => cases h

/-- A bus phase always completes (R212). -/
theorem exec_bus_completes {i : Instr} (hi : isBus i) (s : State) : ∃ t, exec i s = .next t := by
  rcases hi with ⟨d, rfl | rfl | rfl | rfl | rfl | rfl⟩ | ⟨k, d, rfl⟩
  all_goals exact ⟨_, rfl⟩

/-! ## The pick of the open schedule (R210, R217, R218) -/

theorem mainChoice_of_pending {s : State} {e : Ev} (hp : s.mPending = some e) : choiceInstr .main s = some .mainEmit :=
  if_pos (emitEnabled_of_pending hp)

theorem mainChoice_of_cons {s : State} {e : Ev} {rest : List Ev} (hp : s.mPending = none) (hq : s.q = e :: rest) :
    choiceInstr .main s = some .mainDispatch := by
  rw [choiceInstr, emitEnabled_of_none hp, dispatchEnabled_of_cons hp hq]
  rfl

theorem mainChoice_of_idle {s : State} (hp : s.mPending = none) (hq : s.q = []) : choiceInstr .main s = none := by
  rw [choiceInstr, emitEnabled_of_none hp, dispatchEnabled_of_nil hq]
  rfl

/-- Settles O7: by the pick, and at the main loop's turn by what is pending and queued. -/
theorem openScheduleTakesEnabledSteps : Obligations.OpenScheduleTakesEnabledSteps := by
  intro s hs a
  have runs {c : Config.Choice} {i : Instr} (hc : Config.sched s.schedIndex = c) (hi : choiceInstr c s = some i) :
      step s = exec i a := step_of_scheduled hs (by rw [State.scheduled, hc, hi])
  cases hc : Config.sched s.schedIndex with
  | tick cl ol sense scan =>
    have hstep := runs hc rfl
    exact ⟨hstep, _, hstep.trans (exec_tick cl ol sense scan a)⟩
  | bus kind data =>
    have hstep := runs hc rfl
    exact ⟨hstep, hstep ▸ exec_bus_completes (isBus_busInstr kind data) a⟩
  | main =>
    cases hp : s.mPending with
    | some e =>
      have hstep := runs hc (mainChoice_of_pending hp)
      exact ⟨hstep, _, hstep.trans (exec_mainEmit_of_pending (s := a) hp)⟩
    | none =>
      cases hq : s.q with
      | cons e rest =>
        have hstep := runs hc (mainChoice_of_cons hp hq)
        exact ⟨hstep, _, hstep.trans (exec_mainDispatch_of_cons (s := a) hp hq)⟩
      | nil =>
        have hstep : step s = .next (quiet a) :=
          step_of_asleep hs (by rw [State.scheduled, hc, mainChoice_of_idle hp hq])
        exact ⟨hstep, _, hstep⟩
  | reset =>
    have hstep := runs hc rfl
    exact ⟨hstep, _, hstep.trans rfl⟩

/-- Settles O8: the open schedule always completes, and a word stops a step if it decodes to nothing or its operation is
refused. -/
theorem stepStopsOnlyOutsideTheTrace : Obligations.StepStopsOnlyOutsideTheTrace := by
  intro s r h
  cases hs : s.stim with
  | nil =>
    obtain ⟨_, t, ht⟩ := openScheduleTakesEnabledSteps s hs
    cases ht.symm.trans h
  | cons w rest =>
    refine ⟨w, rest, rfl, ?_⟩
    cases hdecode : decode w.fmt w.bits with
    | none =>
      cases (Sys2Proof.stepRefusesAMalformedWord s w rest hs hdecode).symm.trans h
      exact .inl ⟨rfl, rfl⟩
    | some i =>
      rcases exec_refused ((step_of_word hs hdecode).symm.trans h) with ⟨hr, rfl, hwhy⟩ | ⟨hr, rfl, hwhy⟩
      · exact .inr (.inl ⟨hr, rfl, hwhy⟩)
      · exact .inr (.inr ⟨hr, rfl, hwhy⟩)

/-! ## The main loop's turns (R221) -/

theorem TickWrites.schedIndex_eq {s t : State} (h : TickWrites s t) : t.schedIndex = s.schedIndex := by rw [h]

theorem BusWrites.schedIndex_eq {s t : State} (h : BusWrites s t) : t.schedIndex = s.schedIndex := by rw [h]

theorem MainWrites.schedIndex_eq {s t : State} (h : MainWrites s t) : t.schedIndex = s.schedIndex := by rw [h]

/-- No operation that the open schedule can pick writes the position, `RESET` included (log 3). -/
theorem exec_choiceInstr_schedIndex {c : Config.Choice} {s u t : State} {i : Instr} (hi : choiceInstr c s = some i)
    (h : exec i u = .next t) : t.schedIndex = u.schedIndex := by
  cases c with
  | tick => cases hi; exact (exec_tick_writes h).schedIndex_eq
  | bus kind data => cases hi; exact (exec_bus_writes (isBus_busInstr kind data) h).schedIndex_eq
  | main =>
    have hmain : i = .mainDispatch ∨ i = .mainEmit := by
      unfold choiceInstr at hi
      split_ifs at hi <;> cases hi <;> simp
    exact (exec_main_writes hmain h).schedIndex_eq
  | reset => cases hi; cases h; rfl

/-- With no word lined up the machine goes on to the next position of the schedule (R218). -/
theorem step_advances {s : State} (hs : s.stim = []) :
    ∃ t, step s = .next t ∧ t.stim = [] ∧ t.schedIndex = s.schedIndex + 1 := by
  obtain ⟨_, t, ht⟩ := openScheduleTakesEnabledSteps s hs
  refine ⟨t, ht, ?_⟩
  rcases step_cases ht with ⟨w, rest, _, hw, _⟩ | ⟨_, i, hi, hex⟩ | ⟨_, _, rfl⟩
  · cases hs.symm.trans hw
  · exact ⟨(effect_of_exec hex).stim_eq.trans hs, exec_choiceInstr_schedIndex hi hex⟩
  · exact ⟨hs, rfl⟩

theorem steps_advance (n : Nat) {s : State} (hs : s.stim = []) :
    ∃ t, steps n s = .next t ∧ t.stim = [] ∧ t.schedIndex = s.schedIndex + n := by
  induction n generalizing s with
  | zero => exact ⟨s, rfl, hs, rfl⟩
  | succ n ih =>
    obtain ⟨u, hu, hsu, hiu⟩ := step_advances hs
    obtain ⟨t, ht, hst, hit⟩ := ih hsu
    refine ⟨t, ?_, hst, by omega⟩
    rw [steps, hu]
    exact ht

/-- Settles O54: the schedule is weakly fair, and every position of it is reached. -/
theorem mainLoopHasItsTurnAgain : Obligations.MainLoopHasItsTurnAgain := by
  intro s hs
  obtain ⟨m, hm, hturn⟩ := Config.sched_weakly_fair s.schedIndex
  obtain ⟨t, ht, hst, hit⟩ := steps_advance (m - s.schedIndex) hs
  have hmain : Config.sched t.schedIndex = .main := by rw [hit, Nat.add_sub_cancel' hm, hturn]
  refine ⟨_, t, ht, hst, hmain, ?_⟩
  obtain ⟨hstep, _⟩ := openScheduleTakesEnabledSteps t hst
  rw [hmain] at hstep
  refine hstep.trans ?_
  cases t.mPending with
  | some e => rfl
  | none => cases t.q <;> rfl

/-! ## The drain (R222)

A dispatch of a key or of an actuate request can leave a derived event pending, which costs its emit and its own dispatch. Every
other event costs its dispatch only, a derived event among them. -/

/-- The steps of a drain that an event in the queue can still cost. -/
def eventCost (e : Ev) : Nat := if evType e = tyKeypadNewKey ∨ evType e = tyActuateDoor then 3 else 1

/-- The steps of a drain that a pending event can still cost: its emit, and what it costs in the queue. -/
def pendingCost (p : Option Ev) : Nat :=
  match p with
  | none => 0
  | some e => eventCost e + 1

/-- The steps of a drain that the events in a queue can still cost. -/
def queueCost (q : List Ev) : Nat := (q.map eventCost).sum

/-- The steps that a drain can still take. -/
def drainCost (s : State) : Nat := queueCost s.q + pendingCost s.mPending

theorem queueCost_cons (e : Ev) (q : List Ev) : queueCost (e :: q) = eventCost e + queueCost q := by
  rw [queueCost, List.map_cons, List.sum_cons, queueCost]

theorem queueCost_concat (q : List Ev) (e : Ev) : queueCost (q ++ [e]) = queueCost q + eventCost e := by
  rw [queueCost, List.map_append, List.sum_append, queueCost, List.map_singleton, List.sum_singleton]

theorem eventCost_pos (e : Ev) : 1 ≤ eventCost e := by unfold eventCost; split <;> decide

theorem eventCost_le (e : Ev) : eventCost e ≤ 3 := by unfold eventCost; split <;> decide

/-- A derived event costs its emit and its dispatch (R188). -/
theorem pendingCost_toggle (d : DoorCode) : pendingCost (some (evOf (toggle d))) = 2 := by
  rcases toggle_cases d with ⟨_, h⟩ | ⟨_, h⟩ <;> rw [h] <;> decide

/-- A key leaves what is pending, or asks for a toggle (R201 to R203). -/
theorem validate_mPending (ch : Byte) (s : State) :
    (validate ch s).mPending = s.mPending ∨ (validate ch s).mPending = some (evOf (toggle s.doorState)) := by
  unfold validate
  split
  · left
    unfold keyDigit
    split <;> rfl
  · split
    · unfold keyTerminator
      split
      · exact .inr rfl
      · exact .inl rfl
    · exact .inl rfl

theorem onStartDoor_mPending (s : State) : (onStartDoor s).mPending = s.mPending := by
  unfold onStartDoor; split <;> rfl

theorem onStopDoor_mPending (s : State) : (onStopDoor s).mPending = s.mPending := by
  unfold onStopDoor
  split
  · rfl
  · split <;> rfl

/-- A dispatch leaves what is pending, or is that of a key or an actuate request and asks for a toggle (R187, R189). -/
theorem dispatch_mPending (e : Ev) (s : State) :
    (dispatch e s).mPending = s.mPending ∨
    eventCost e = 3 ∧ (dispatch e s).mPending = some (evOf (toggle s.doorState)) := by
  have hcost {type : BitVec 4} (h : (evType e).toNat = type.toNat) (ht : type = tyKeypadNewKey ∨ type = tyActuateDoor) :
      eventCost e = 3 := if_pos (BitVec.eq_of_toNat_eq h ▸ ht)
  unfold dispatch
  split
  case h_5 h =>
    rcases validate_mPending (evData e) s with hsame | htoggle
    · exact .inl hsame
    · exact .inr ⟨hcost (type := tyKeypadNewKey) h (.inl rfl), htoggle⟩
  case h_6 h => exact .inr ⟨hcost (type := tyActuateDoor) h (.inr rfl), rfl⟩
  case h_7 => exact .inl (onStartDoor_mPending s)
  case h_8 => exact .inl (onStopDoor_mPending s)
  all_goals exact .inl rfl

/-- A dispatch with nothing pending leaves less to do than its event could cost. -/
theorem drainCost_dispatch_lt (e : Ev) {s : State} (hp : s.mPending = none) :
    drainCost (dispatch e s) < eventCost e + queueCost s.q := by
  rw [drainCost, (dispatch_writes e s).q_eq, Nat.add_comm]
  refine Nat.add_lt_add_right ?_ _
  rcases dispatch_mPending e s with h | ⟨hcost, h⟩
  · rw [h, hp]
    exact eventCost_pos e
  · rw [h, pendingCost_toggle, hcost]
    decide

/-- An enqueue adds the cost of its event, or loses the event (R111). -/
theorem queueCost_enqueue_le (e : Ev) (s : State) : queueCost (s.enqueue e).q ≤ queueCost s.q + eventCost e := by
  rcases enqueue_cases e s with ⟨_, h⟩ | ⟨_, h⟩ <;> rw [h]
  · exact Nat.le_add_right ..
  · exact (queueCost_concat s.q e).le

/-- Each step of a drain completes and leaves less to do. -/
theorem exec_drainInstr_lt {s : State} {i : Instr} (hi : drainInstr s = some i) :
    ∃ t, exec i s = .next t ∧ drainCost t < drainCost s := by
  change choiceInstr .main s = some i at hi
  cases hp : s.mPending with
  | some e =>
    cases (mainChoice_of_pending hp).symm.trans hi
    have hcost : drainCost s = queueCost s.q + (eventCost e + 1) := by rw [drainCost, hp, pendingCost]
    exact ⟨_, exec_mainEmit_of_pending hp, hcost ▸ Nat.lt_succ_of_le (queueCost_enqueue_le e s.begin)⟩
  | none =>
    cases hq : s.q with
    | cons e rest =>
      cases (mainChoice_of_cons hp hq).symm.trans hi
      have hcost : drainCost s = eventCost e + queueCost rest := by rw [drainCost, hp, hq, queueCost_cons]; rfl
      exact ⟨_, exec_mainDispatch_of_cons hp hq,
        hcost ▸ drainCost_dispatch_lt e (s := { s with q := rest, out := {} }) hp⟩
    | nil => cases (mainChoice_of_idle hp hq).symm.trans hi

/-- A drain stops only where the main loop has no step (R210). -/
theorem drained_of_drainInstr {s : State} (h : drainInstr s = none) : s.q = [] ∧ s.mPending = none := by
  change choiceInstr .main s = none at h
  cases hp : s.mPending with
  | some e => cases (mainChoice_of_pending hp).symm.trans h
  | none =>
    cases hq : s.q with
    | cons e rest => cases (mainChoice_of_cons hp hq).symm.trans h
    | nil => exact ⟨rfl, rfl⟩

/-- With as many steps as it can take, a drain ends with the queue empty and nothing pending. -/
theorem drain_of_drainCost_le (n : Nat) {s : State} (h : drainCost s ≤ n) :
    (drain n s).1.q = [] ∧ (drain n s).1.mPending = none := by
  induction n generalizing s with
  | zero =>
    cases hi : drainInstr s with
    | none => exact drained_of_drainInstr hi
    | some i =>
      obtain ⟨_, _, hlt⟩ := exec_drainInstr_lt hi
      omega
  | succ n ih =>
    cases hi : drainInstr s with
    | none =>
      simp only [drain, hi]
      exact drained_of_drainInstr hi
    | some i =>
      obtain ⟨t, ht, hlt⟩ := exec_drainInstr_lt hi
      simp only [drain, hi, ht]
      exact ih (by omega)

theorem queueCost_le (q : List Ev) : queueCost q ≤ 3 * q.length := by
  induction q with
  | nil => rfl
  | cons e q ih =>
    have := eventCost_le e
    rw [queueCost_cons, List.length_cons]
    omega

/-- Settles O53: no event costs more than three steps. -/
theorem drainEndsWithinThreeStepsAnEvent : Obligations.DrainEndsWithinThreeStepsAnEvent := by
  intro s hp
  refine drain_of_drainCost_le _ ?_
  rw [drainCost, hp]
  exact queueCost_le s.q

end Sys2Proof.Machine
end

section
/-! PROOFS, 70_reset_and_hazards.md: the reset step, two toggles decided before either acts, and two limit presses confirmed in
one tick. -/

namespace Sys2Proof.Machine

open Sys2Proof.Spec

/-! ## The reset step (R260) -/

theorem exec_reset (s : State) : exec .reset s = .next s.begin.resetRegisters := by rfl

/-- Settles O10: the registers are those of the reset state, in the statements' own words (R40). -/
theorem resetStepRestoresEveryRegister : Obligations.ResetStepRestoresEveryRegister := by
  intro s
  rw [exec_reset, State.resetRegisters, State.reset]
  rfl

/-! ## The dispatch of the oldest event, by its type (R181, R183, R185, R187) -/

section
variable {s : State} {rest : List Ev}

/-- An enabled dispatch is the operation of the oldest event's word (R82, R214). -/
theorem exec_mainDispatch_of_decode {e : Ev} {i : Instr} (hp : s.mPending = none) (hq : s.q = e :: rest)
    (hi : decode .ev (e.setWidth 16) = some i) : exec .mainDispatch s = exec i { s with q := rest } :=
  (mainDispatchRunsTheOldestEvent s e rest hp hq).2.2 i hi

theorem exec_mainDispatch_of_closedLimit (hp : s.mPending = none) (hq : s.q = 0x100#12 :: rest) :
    exec .mainDispatch s =
      .next { s with q := rest, doorState := 0x00#7, dutyOpen := 0#8, dutyClose := 0#8, out := {} } :=
  (exec_mainDispatch_of_decode hp hq rfl).trans (limitPressWins _ 0#8).1

theorem exec_mainDispatch_of_openLimit (hp : s.mPending = none) (hq : s.q = 0x300#12 :: rest) :
    exec .mainDispatch s =
      .next { s with q := rest, doorState := 0x02#7, dutyOpen := 0#8, dutyClose := 0#8, out := {} } :=
  (exec_mainDispatch_of_decode hp hq rfl).trans (limitPressWins _ 0#8).2

theorem exec_mainDispatch_of_actuate (hp : s.mPending = none) (hq : s.q = 0x600#12 :: rest) :
    exec .mainDispatch s = .next { s with q := rest, mPending := some (toggled s.doorState), out := {} } :=
  (exec_mainDispatch_of_decode hp hq rfl).trans (actuateDecidesTheToggle _ 0#8)

/-- A start from below `DS_OPEN` opens. -/
theorem exec_mainDispatch_of_start_lt (hp : s.mPending = none) (hq : s.q = 0x700#12 :: rest)
    (hdoor : s.doorState.toNat < 2) :
    exec .mainDispatch s =
      .next { s with q := rest, doorState := 0x04#7, dutyOpen := s.cfg.dutyFull, dutyClose := 0#8, out := {} } := by
  rw [exec_mainDispatch_of_decode (i := .startDoor 0#8) hp hq rfl, startDoorPicksTheDirection, if_pos hdoor]

/-- A start from `DS_OPEN` upward closes. -/
theorem exec_mainDispatch_of_start_not_lt (hp : s.mPending = none) (hq : s.q = 0x700#12 :: rest)
    (hdoor : ¬ s.doorState.toNat < 2) :
    exec .mainDispatch s =
      .next { s with q := rest, doorState := 0x05#7, dutyOpen := 0#8, dutyClose := s.cfg.dutyFull, out := {} } := by
  rw [exec_mainDispatch_of_decode (i := .startDoor 0#8) hp hq rfl, startDoorPicksTheDirection, if_neg hdoor]

/-! ## Stacked toggles (R272) -/

theorem exec_mainEmit_of_room {e : Ev} (hp : s.mPending = some e) (hroom : s.q.length ≠ s.cfg.qCap) :
    exec .mainEmit s = .next { s with q := s.q ++ [e], mPending := none, out := {} } := by
  rw [mainEmitEnqueuesThePendingEvent s e hp, enqueued, if_neg hroom]

/-- A toggle request becomes the event decided at its dispatch, behind all the others; the door does not move. -/
theorem execAll_actuate (hp : s.mPending = none) (hq : s.q = 0x600#12 :: rest) (hroom : rest.length ≠ s.cfg.qCap) :
    execAll [.mainDispatch, .mainEmit] s = .next { s with q := rest ++ [toggled s.doorState], out := {} } := by
  rw [execAll_cons (exec_mainDispatch_of_actuate hp hq), execAll_singleton (exec_mainEmit_of_room rfl hroom), ← hp]

/-- The first of two starts turns a door below `DS_OPEN` to opening, and so the second one reverses it. -/
theorem execAll_starts (hp : s.mPending = none) (hq : s.q = [0x700#12, 0x700#12]) (hdoor : s.doorState.toNat < 2) :
    execAll [.mainDispatch, .mainDispatch] s =
      .next { s with q := [], doorState := 0x05#7, dutyOpen := 0#8, dutyClose := s.cfg.dutyFull, out := {} } := by
  have hopening : ¬ (0x04#7).toNat < 2 := by decide
  rw [execAll_cons (exec_mainDispatch_of_start_lt hp hq hdoor)]
  exact execAll_singleton (exec_mainDispatch_of_start_not_lt hp rfl hopening)

end

/-- Settles O55: neither request moves the door, so both become a start. -/
theorem stackedTogglesReverseTheDoor : Obligations.StackedTogglesReverseTheDoor := by
  intro s hq hp hdoor hcap
  have hstart : toggled s.doorState = 0x700#12 := if_neg (by omega)
  have hroom : 1 ≠ s.cfg.qCap := by omega
  have hfirst := execAll_actuate hp hq hroom
  have hsecond := execAll_actuate (s := { s with q := [0x600#12, 0x700#12], out := {} }) hp rfl hroom
  rw [hstart] at hfirst hsecond
  exact ⟨_, (execAll_append hfirst _).trans ((execAll_append hsecond _).trans (execAll_starts hp rfl hdoor)), rfl⟩

/-! ## Both limit switches at once (R126, R278) -/

theorem TickWrites.mPending_eq {s t : State} (h : TickWrites s t) : t.mPending = s.mPending := by rw [h]

/-- The switch is released and one low sample short of a press. -/
def PressDue (i : Switch) (s : State) : Prop := (s.db i).confirmed = true ∧ (s.db i).left s.cfg.nLimit = 1

theorem pressDue_of_db_eq {i : Switch} {s : State}
    (h : s.db i = { pending := false, confirmed := true, countdown := 1, armed := true }) : PressDue i s := by
  rw [PressDue, h]
  exact ⟨rfl, rfl⟩

/-- The sample of the closed limit does not bear on the open limit's process (R126). -/
theorem PressDue.dbSample_cl {s : State} (h : PressDue .ol s) (l : Level) : PressDue .ol (dbSample .cl l s) := by
  rw [PressDue, State.db, dbSample_cl_dbOl, dbSample_cfg]
  exact h

theorem PressDue.queues {i : Switch} {s : State} (h : PressDue i s) (hroom : s.q.length < s.cfg.qCap) :
    Queues [edgeOf i false] s (dbSample i false s) := by
  obtain ⟨hconfirmed, hleft⟩ := h
  have hdiffers : false ≠ (s.db i).confirmed := by rw [hconfirmed]; nofun
  have hsample := dbSample_queues i false hroom
  rwa [if_pos ⟨hdiffers, hleft⟩] at hsample

/-- The closed limit is sampled first, so its press is the older one; the keypad queues nothing. -/
theorem tick_queues_both_presses {s : State} (sense scan : Lines) (hroom : s.q.length + 2 ≤ s.cfg.qCap)
    (hkp : s.kpState ≠ .scan) (hcl : PressDue .cl s) (hol : PressDue .ol s) :
    Queues [0x100#12, 0x300#12] s (tick false false sense scan s) := by
  have hclosed := hcl.queues (by omega)
  have hroom' : (dbSample .cl false s).q.length < (dbSample .cl false s).cfg.qCap := by
    rw [hclosed.q_eq, hclosed.cfg_eq, List.length_append, List.length_singleton]
    omega
  have hopen := (hol.dbSample_cl false).queues hroom'
  exact (hclosed.trans hopen).trans (kpRule_queues_of_ne_scan hkp sense scan _)

/-- The later of the two presses decides the door; both stop the motor. -/
theorem execAll_both_presses {s : State} (hp : s.mPending = none) (hq : s.q = [0x100#12, 0x300#12]) :
    execAll [.mainDispatch, .mainDispatch] s =
      .next { s with q := [], doorState := 0x02#7, dutyOpen := 0#8, dutyClose := 0#8, out := {} } := by
  rw [execAll_cons (exec_mainDispatch_of_closedLimit hp hq)]
  exact execAll_singleton (exec_mainDispatch_of_openLimit hp rfl)

/-- Settles O56: the tick queues the closed press before the open one, and the later one decides. -/
theorem bothLimitPressesInOneTickEndOpen : Obligations.BothLimitPressesInOneTickEndOpen := by
  intro s sense scan hq hp hcap hkp hcl hol
  have hroom : s.begin.q.length + 2 ≤ s.begin.cfg.qCap := by rw [State.begin_q, hq]; exact hcap
  have hqueues := tick_queues_both_presses sense scan hroom hkp (pressDue_of_db_eq hcl) (pressDue_of_db_eq hol)
  have hqueue : (tick false false sense scan s.begin).q = [0x100#12, 0x300#12] := by
    rw [hqueues.q_eq, State.begin_q, hq, List.nil_append]
  have hpending := (tick_writes false false sense scan s.begin).mPending_eq.trans hp
  exact ⟨_, _, exec_tick false false sense scan s, hqueue, execAll_both_presses hpending hqueue, rfl, rfl, rfl, rfl⟩

end Sys2Proof.Machine
end
